-- ==== Sys2Proof/Word.lean ====
section
/-! DEFINITION. The plain words of the block: 32-bit port words, 16-bit keys and binary32 patterns
(spec/20_memory.md R62, spec/30_encoding.md R80, spec/41_voice_pool.md R150). -/

namespace Sys2Proof

/-- One byte of a byte transport (R62). -/
abbrev Byte := BitVec 8

/-- One transfer of the command or response port (R62, R80). -/
abbrev Word := BitVec 32

/-- A voice key, `KEY_WIDTH` = 16 bits, compared for equality only (R9, R150). -/
abbrev Key := BitVec 16

/-- One binary32 value, held as its pattern: `bits(x)` of R16 is the field and `f32(w)` is the
constructor.  Every 32-bit pattern is a value (R87). -/
structure F32 where
  bits : Word
deriving DecidableEq, Repr, Inhabited

end Sys2Proof
end

