-- ==== Sys2Proof/Syntax.lean ====
section
/-! DEFINITION. The commands of the block as syntax: one constructor per row of the opcode map
(spec/30_encoding.md R88), with the operands of R83 to R87. -/

namespace Sys2Proof

/-- The waveforms, in the order of their 2-bit codes 0 to 3 (spec/10_state.md R23). -/
inductive Waveform
  | sine
  | square
  | triangle
  | saw
deriving DecidableEq, Repr, Inhabited

/-- The filter types, in the order of their 2-bit codes 0 to 3 (spec/10_state.md R24). -/
inductive FilterType
  | lowPass
  | highPass
  | bandPass
  | notch
deriving DecidableEq, Repr, Inhabited

/-- The FM modes, codes 0 and 1 (spec/10_state.md R25). -/
inductive FmMode
  | harmonic
  | inharmonic
deriving DecidableEq, Repr, Inhabited

/-- The eleven commands (R88).  `slot`, `index` and `n` are the unsigned immediate of R86, a count
or an index; `WellFormed.lean` says that they fit its 16 bits.  `v0` and `v1` are the operand words
(R87), in arrival order. -/
inductive Instr
  | nop
  | noteon (key : Key) (v0 : F32)
  | noteoff (key : Key)
  | setwv (slot : Nat) (wave : Waveform)
  | setwva (wave : Waveform)
  | setfm (enabled : Bool) (wave : Waveform) (mode : FmMode) (v0 v1 : F32)
  | addflt
  | rmflt (index : Nat)
  | setflt (index : Nat) (ftype : FilterType) (v0 v1 : F32)
  | render (n : Nat)
  | rdvis
deriving DecidableEq, Repr, Inhabited

end Sys2Proof
end

