-- ==== Sys2Proof/Config.lean ====
section
/-! DEFINITION. What is fixed when the block is built (spec/00_scope.md R9, R10, R13, R14; spec/10_state.md
R39) and the free values of the model (spec/93_implementation_defined.md U4, U5, U7).  The parameters the spec calls
OPEN are quantified over: the block's own configuration takes them from an opaque constant.  Every internal operation takes
every parameter as an argument: the capacities in its `Shape`, the rest in its `Config`. -/

namespace Sys2Proof

/-- The binary32 operations that can return a NaN (R12). -/
inductive FloatOp
  | add
  | sub
  | mul
  | div
deriving DecidableEq, Repr, Inhabited

/-- The mix normalisations of R264. -/
inductive NormPolicy
  | divideByCount
  | fixedGain (g : F32)
deriving DecidableEq, Repr, Inhabited

/-- The capacities and the key width of R9, with the constraints of R10 on them: the parameters that fix the size of the
state.  Every operation takes them as an argument, implicit in the type of the state it works on. -/
structure Shape where
  /-- `VOICE_CAPACITY`. -/
  voices : Nat
  /-- `FILTER_CAPACITY`. -/
  filters : Nat
  /-- `VIS_CAPACITY`. -/
  vis : Nat
  /-- `KEY_WIDTH`. -/
  keyWidth : Nat
  /-- `VOICE_CAPACITY >= 1` (R10). -/
  voicesPos : 0 < voices
  /-- `VIS_CAPACITY >= 1` (R10). -/
  visPos : 0 < vis
  /-- Every slot index fits in 16 bits (R10). -/
  voicesFit : voices ≤ 65536
  /-- Every filter index fits in 16 bits (R10). -/
  filtersFit : filters ≤ 65536
deriving DecidableEq, Repr

/-- This hardware's values (R9). -/
abbrev Shape.hw : Shape :=
  { voices := 8, filters := 5, vis := 1024, keyWidth := 16,
    voicesPos := by decide, visPos := by decide, voicesFit := by decide, filtersFit := by decide }

/-- The other parameters of R9 and the three configuration functions of R14. -/
structure Config where
  /-- `SR`, the sample rate in Hz (OPEN). -/
  sr : F32
  /-- `FREQ_MIN`, the lower clamp of every frequency (OPEN). -/
  freqMin : F32
  /-- `RATIO_MIN`, the lower clamp of the FM ratio (OPEN). -/
  ratioMin : F32
  /-- `CUTOFF_MIN`, the lower clamp of every cutoff. -/
  cutoffMin : F32
  /-- `Q_MIN`, the lower clamp of every resonance. -/
  qMin : F32
  /-- `BETA_MIN`, the lower clamp of the modulation index. -/
  betaMin : F32
  /-- `BETA_MAX`, the upper clamp of the modulation index. -/
  betaMax : F32
  /-- `FILTER_DEFAULT_TYPE`. -/
  filterDefaultType : FilterType
  /-- `FILTER_DEFAULT_CUTOFF` (OPEN). -/
  filterDefaultCutoff : F32
  /-- `FILTER_DEFAULT_RESONANCE` (OPEN). -/
  filterDefaultResonance : F32
  /-- `NORM_POLICY`. -/
  normPolicy : NormPolicy
  /-- `SIN`. -/
  sin : F32 → F32
  /-- `COS`. -/
  cos : F32 → F32
  /-- `ASIN`. -/
  asin : F32 → F32
deriving Inhabited

/-- FREE VALUE: the OPEN parameters and configuration functions of the block at hand (R9 "Where a parameter
is OPEN, the model quantifies over it"; R14).  Nothing says what they are; `Config.hw` (Machine/Operands.lean) takes
them from here where they meet the constraints of R10. -/
opaque Config.chosen : Config

/-- FREE VALUE: sign and payload of the quiet NaN that an operation returns on these operands (R12 "any quiet
NaN pattern"; U4). -/
opaque Config.nanChoice : FloatOp → F32 → F32 → BitVec 23

/-- FREE VALUE: how many response words a command interrupted by reset has already emitted (R294 "any prefix";
U5), applied to the model's counter and reduced to the length of the response. -/
opaque Config.abortLength : Nat → Nat

end Sys2Proof
end

