-- ==== Sys2Proof/Machine/Flags.lean ====
section
/-! DEFINITION. The block has no flag and no condition code (spec/10_state.md R22), and the IEEE exception flags
are not kept (spec/00_scope.md R12).  What other machines hold in flags, the outcome of a comparison, is here a
function of the operands: the classes of binary32 patterns and the IEEE comparisons of R12. -/

namespace Sys2Proof.F32

/-- The sign, bit 31 (spec/20_memory.md R62). -/
def sign (x : F32) : Bool := x.bits.msb

/-- Bits 30:0, exponent above fraction: the order of the magnitudes. -/
def magBits (x : F32) : Nat := (x.bits.extractLsb' 0 31).toNat

/-- The biased exponent, bits 30:23 (R62). -/
def expField (x : F32) : Nat := (x.bits.extractLsb' 23 8).toNat

/-- The fraction, bits 22:0 (R62). -/
def fracField (x : F32) : Nat := (x.bits.extractLsb' 0 23).toNat

/-- The magnitude bits of infinity. -/
def infBits : Nat := 0x7F800000

/-- `isNaN(x)`: every NaN encoding (R12). -/
def isNaN (x : F32) : Bool := decide (infBits < x.magBits)

def isInf (x : F32) : Bool := decide (x.magBits = infBits)

def isFinite (x : F32) : Bool := decide (x.magBits < infBits)

def isZero (x : F32) : Bool := decide (x.magBits = 0)

/-- Where a pattern that is no NaN stands in the order of the values: both zeros at 0, the infinities
outermost. -/
def rank (x : F32) : Int := if x.sign then -(x.magBits : Int) else (x.magBits : Int)

/-- `x <= y`: false when either operand is NaN, and `-0.0 == +0.0` (R12). -/
def le (x y : F32) : Bool := !x.isNaN && !y.isNaN && decide (x.rank ≤ y.rank)

/-- `x < y` (R12). -/
def lt (x y : F32) : Bool := !x.isNaN && !y.isNaN && decide (x.rank < y.rank)

/-- `x >= y` (R12). -/
def ge (x y : F32) : Bool := le y x

end Sys2Proof.F32
end

