-- ==== Sys2Proof/Machine/Float.lean ====
section
/-! DEFINITION. binary32 arithmetic as spec/00_scope.md R12 asks for it: each operation computes the exact
result as a whole number (or a quotient of two) of units of 2^-149, the least subnormal, and rounds once, to
nearest with ties to even, subnormals kept.  Nothing is fused and no flag is kept.  What R12 names without spelling it out
(which operations are invalid, the signs of zero results, a nonzero value over zero, overflow to infinity, which NaNs are
quiet) is IEEE 754's: PRESUMED, log entry 19. -/

namespace Sys2Proof.F32

/-- The magnitude of a finite value in units of 2^-149. -/
def mag (x : F32) : Nat :=
  if x.expField = 0 then x.fracField else (2 ^ 23 + x.fracField) * 2 ^ (x.expField - 1)

/-- A finite value in units of 2^-149. -/
def val (x : F32) : Int := if x.sign then -(x.mag : Int) else (x.mag : Int)

/-- The pattern with this sign and these magnitude bits. -/
def ofParts (s : Bool) (m : Nat) : F32 := ⟨BitVec.ofNat 32 (if s then 2 ^ 31 + m else m)⟩

/-- The whole number nearest to `n / d`, ties to even. -/
def roundNE (n d : Nat) : Nat :=
  if 2 * (n % d) > d ∨ (2 * (n % d) = d ∧ (n / d) % 2 = 1) then n / d + 1 else n / d

/-- How many bits below the 24-bit significand `n / d` has: 0 in the subnormal range and just above it. -/
def roundShift (n d : Nat) : Nat := Nat.log2 (n / d) - 23

/-- The magnitude bits of the binary32 value nearest to `n / d` units of 2^-149, ties to even.  A significand
that rounds up to 2^24 carries into the exponent, and whatever reaches 2^128 is infinity. -/
def roundMag (n d : Nat) : Nat :=
  min (roundShift n d * 2 ^ 23 + roundNE n (d * 2 ^ roundShift n d)) infBits

/-- A NaN result: quiet, with sign and payload left open (R12, U4; log entry 5). -/
def nan (op : FloatOp) (x y : F32) : F32 :=
  ⟨(Config.nanChoice op x y).extractLsb' 22 1 ++ (0x1FF#9 ++ (Config.nanChoice op x y).extractLsb' 0 22)⟩

/-- `-x` flips the sign bit and is exact, NaN included (R12). -/
def neg (x : F32) : F32 := ⟨x.bits ^^^ 0x80000000#32⟩

/-- `x + y` where neither is NaN and they are not opposite infinities.  An exact zero sum is `+0.0`, but
`-0.0` where both operands are negative zeros. -/
def addNum (x y : F32) : F32 :=
  if x.isInf then x
  else if y.isInf then y
  else if x.val + y.val = 0 then ofParts (x.sign && y.sign) 0
  else ofParts (decide (x.val + y.val < 0)) (roundMag (x.val + y.val).natAbs 1)

/-- `x + y` (R12). -/
def add (x y : F32) : F32 :=
  if x.isNaN || y.isNaN || (x.isInf && y.isInf && x.sign != y.sign) then nan .add x y else addNum x y

/-- `x - y` (R12). -/
def sub (x y : F32) : F32 :=
  if x.isNaN || y.isNaN || (x.isInf && y.isInf && x.sign == y.sign) then nan .sub x y else addNum x y.neg

/-- `x * y` (R12). -/
def mul (x y : F32) : F32 :=
  if x.isNaN || y.isNaN || (x.isInf && y.isZero) || (x.isZero && y.isInf) then nan .mul x y
  else if x.isInf || y.isInf then ofParts (x.sign != y.sign) infBits
  else ofParts (x.sign != y.sign) (roundMag (x.mag * y.mag) (2 ^ 149))

/-- `x / y` (R12).  A nonzero value over zero is an infinity. -/
def div (x y : F32) : F32 :=
  if x.isNaN || y.isNaN || (x.isInf && y.isInf) || (x.isZero && y.isZero) then nan .div x y
  else if x.isInf || y.isZero then ofParts (x.sign != y.sign) infBits
  else if y.isInf then ofParts (x.sign != y.sign) 0
  else ofParts (x.sign != y.sign) (roundMag (x.mag * 2 ^ 149) y.mag)

/-- `float(n)`, exact for `n <= 2^24` (R12). -/
def ofNat (n : Nat) : F32 := ofParts false (roundMag (n * 2 ^ 149) 1)

/-- The literals of the rules (R12) and the three constants of R13. -/
def zero : F32 := ⟨0x00000000⟩

def one : F32 := ⟨0x3F800000⟩

def negOne : F32 := ⟨0xBF800000⟩

def two : F32 := ⟨0x40000000⟩

def hundred : F32 := ⟨0x42C80000⟩

/-- 240.0, the least sample rate (R10). -/
def twoHundredForty : F32 := ⟨0x43700000⟩

/-- 440.0, the reset frequency before its clamp (spec/10_state.md R27). -/
def fourHundredForty : F32 := ⟨0x43DC0000⟩

/-- `TWO_PI` (R13). -/
def twoPi : F32 := ⟨0x40C90FDB⟩

/-- `PI_F` (R13). -/
def piF : F32 := ⟨0x40490FDB⟩

/-- `TWO_OVER_PI` (R13). -/
def twoOverPi : F32 := ⟨0x3F22F983⟩

end Sys2Proof.F32
end

