-- ==== Sys2Proof/Machine/Operands.lean ====
section
/-! DEFINITION. What becomes of an operand word on its way into a register: the clamps of spec/00_scope.md R15 and
the legal range of every parameter (spec/40_oscillator.md R121, spec/42_fm_operator.md R182 to R184,
spec/43_filter.md R214, R215), the parameters that follow from `SR`, the constraints of R10 and R14, and the configuration of the
block. -/

namespace Sys2Proof

open F32

/-- `clamp(x, lo, hi)` (R15). -/
def clamp (x lo hi : F32) : F32 :=
  if x.isNaN || le x lo then lo else if ge x hi then hi else x

/-- `clampMin(x, lo)` (R15). -/
def clampMin (x lo : F32) : F32 := if x.isNaN || le x lo then lo else x

/-- `FREQ_MAX = SR / 2.0` (R9). -/
def Config.freqMax (c : Config) : F32 := div c.sr two

/-- `CUTOFF_MAX = (SR / 2.0) - 100.0` (R9). -/
def Config.cutoffMax (c : Config) : F32 := sub (div c.sr two) hundred

/-- `clampFreq(x)` (R121). -/
def clampFreq (c : Config) (x : F32) : F32 := clamp x c.freqMin c.freqMax

/-- The cutoff a filter stores (R214). -/
def clampCutoff (c : Config) (x : F32) : F32 := clamp x c.cutoffMin c.cutoffMax

/-- The resonance a filter stores (R215). -/
def clampResonance (c : Config) (x : F32) : F32 := clampMin x c.qMin

/-- The FM ratio (R182). -/
def clampRatio (c : Config) (x : F32) : F32 := clampMin x c.ratioMin

/-- The modulation index (R183). -/
def clampBeta (c : Config) (x : F32) : F32 := clamp x c.betaMin c.betaMax

/-- The constraints of R10 on the numbers.  (Those on the capacities are in `Shape`; a default cutoff outside its range is
clamped like any other.) -/
def Config.valid (c : Config) : Bool :=
  c.sr.isFinite && ge c.sr twoHundredForty && lt zero c.freqMin && le c.freqMin c.freqMax && lt zero c.ratioMin

/-- `TWO_PI * FREQ_MAX` does not overflow: what the argument of R123 needs of `SR` and R10 does not ask (DEDUCED, log entry
3).  The block runs without it; only claims about the phase range have it as a premise. -/
def Config.stepFinite (c : Config) : Bool := (mul twoPi c.freqMax).isFinite

/-- The values R9 gives this hardware, in a configuration whose OPEN parameters and functions are those of `c`. -/
def Config.withHardwareValues (c : Config) : Config :=
  { c with cutoffMin := ⟨0x41A00000⟩, qMin := ⟨0x3D4CCCCD⟩, betaMin := ⟨0x00000000⟩, betaMax := ⟨0x3F800000⟩,
           filterDefaultType := .lowPass, normPolicy := .divideByCount }

/-- The configuration with the values the vectors use for the OPEN numbers (R9), and everything else of `c`. -/
def Config.withReferenceNumbers (c : Config) : Config :=
  { c with sr := ⟨0x472C4400⟩, freqMin := ⟨0x3F800000⟩, ratioMin := ⟨0x3A800000⟩,
           filterDefaultCutoff := ⟨0x447A0000⟩, filterDefaultResonance := ⟨0x3F3504F3⟩ }

/-- The configuration of the block (DESIGN CHOICE, log entry 2): this hardware's values, and any OPEN ones that meet R10.  A
choice that breaks a constraint is refused (U6): the reference numbers stand in its place. -/
def Config.hw : Config :=
  (if Config.chosen.valid then Config.chosen else Config.chosen.withReferenceNumbers).withHardwareValues

/-- `SIN_RANGE` (R14). -/
def Config.SinRange (c : Config) : Prop :=
  ∀ x : F32, x.isFinite = true → le negOne (c.sin x) = true ∧ le (c.sin x) one = true

/-- `COS_RANGE` (R14). -/
def Config.CosRange (c : Config) : Prop :=
  ∀ x : F32, x.isFinite = true → le negOne (c.cos x) = true ∧ le (c.cos x) one = true

/-- `ASIN_RANGE` (R14). -/
def Config.AsinRange (c : Config) : Prop :=
  (∀ y : F32, le negOne y = true → le y one = true →
    le (c.asin one).neg (c.asin y) = true ∧ le (c.asin y) (c.asin one) = true)
  ∧ le (mul twoOverPi (c.asin one)) one = true

/-- `ODD` (R14). -/
def Config.Odd (c : Config) : Prop :=
  (∀ x : F32, c.sin x.neg = (c.sin x).neg) ∧ ∀ y : F32, c.asin y.neg = (c.asin y).neg

/-- `SIN_POS_DESIGN` (R14): over the range of `w0` that the coefficient design can produce. -/
def Config.SinPosDesign (c : Config) : Prop :=
  ∀ w0 : F32, le (div (mul twoPi c.cutoffMin) c.sr) w0 = true →
    le w0 (div (mul twoPi c.cutoffMax) c.sr) = true → lt zero (c.sin w0) = true

/-- The five named properties of R14 together: all that a claim may assume of `SIN`, `COS` and `ASIN`. -/
structure Config.TrigLaws (c : Config) : Prop where
  sinRange : c.SinRange
  cosRange : c.CosRange
  asinRange : c.AsinRange
  odd : c.Odd
  sinPosDesign : c.SinPosDesign

end Sys2Proof
end

