-- ==== Sys2Proof/Machine/State.lean ====
section
/-! DEFINITION. The whole state of the block (spec/10_state.md R26 to R48), the two port streams (spec/20_memory.md R60),
the model's refusal mark (R47), and the state right after reset.  The block has no memory (R60), no program counter (R21),
no general register (R20) and no flag (R22). -/

namespace Sys2Proof.Machine

/-- The block raises no exception and no command faults (spec/60_exceptions.md R290, R292): there is no fault.  Nothing
raises one, and that is as the spec says, neither safe nor unsafe. -/
inductive Fault
deriving DecidableEq, Repr

/-- The reasons for a refusal. -/
inductive Refusal
  /-- Raised by `exec` for a constructor that has no meaning yet; no arm of this model is one.  Safe. -/
  | notModelled (mnemonic : String)
  /-- `IllegalEncoding(W)`, raised by `refuse` when the header word selects no row of the opcode map
  (spec/30_encoding.md R90, R95; R292).  The block discards the command and goes on, and the refusal mark is set.  Safe for
  claims about clean runs (log entry 1). -/
  | illegalEncoding (header : Word)
deriving DecidableEq, Repr

/-- One voice slot (R27). -/
structure Voice (κ : Shape := Shape.hw) where
  active : Bool
  key : BitVec κ.keyWidth
  frequency : F32
  phase : F32
  waveform : Waveform
deriving DecidableEq, Repr, Inhabited

/-- The FM operator's register set (R30). -/
structure Fm where
  enabled : Bool
  wave : Waveform
  mode : FmMode
  ratio : F32
  mfreq : F32
  mphase : F32
  beta : F32
deriving DecidableEq, Repr, Inhabited

/-- The five stored coefficients of a filter (R34). -/
structure Coeffs where
  b0 : F32
  b1 : F32
  b2 : F32
  a1 : F32
  a2 : F32
deriving DecidableEq, Repr, Inhabited

/-- One filter entry (R34): parameters, coefficients and recurrence state. -/
structure Filter where
  ftype : FilterType
  cutoff : F32
  resonance : F32
  coeffs : Coeffs
  x1 : F32
  x2 : F32
  y1 : F32
  y2 : F32
deriving DecidableEq, Repr, Inhabited

/-- The cells of the visualisation ring, `vis[0 .. VIS_CAPACITY-1]` (R37). -/
structure Ring (κ : Shape := Shape.hw) where
  cells : List F32
  size : cells.length = κ.vis
deriving DecidableEq, Repr

/-- The decoder state of the command port (R45): idle, or a header and the operand words received so far. -/
inductive Decoder
  | idle
  | collecting (header : Word) (operands : List Word)
deriving DecidableEq, Repr

/-- What reaches the block from outside: the words of the command stream in arrival order (R60, spec/20_memory.md R68) and
the reset input (spec/70_reset_and_hazards.md R320). -/
inductive PortEvent
  /-- A word arrives. -/
  | word (w : Word)
  /-- Reset is asserted between two words (R294, R321). -/
  | reset
  /-- A word arrives, and reset is asserted while the command it completes is executing (R294). -/
  | interrupted (w : Word)
deriving DecidableEq, Repr

/-- The state of the block and of its model; of this hardware where no capacities are named. -/
structure State (κ : Shape := Shape.hw) where
  /-- `voice[0 .. VOICE_CAPACITY-1]` (R26, R27). -/
  voices : Vector (Voice κ) κ.voices
  /-- The shared FM operator (R30). -/
  fm : Fm
  /-- `filt[0 .. FILTER_CAPACITY-1]` (R33, R34); only the first `fcount` entries exist. -/
  filt : Vector Filter κ.filters
  /-- `fcount`, 0 to `FILTER_CAPACITY` (R33). -/
  fcount : Fin (κ.filters + 1)
  /-- `vis` (R37). -/
  vis : Ring κ
  /-- `vcur`, the write cursor (R37). -/
  vcur : Fin κ.vis
  /-- The command decoder (R45). -/
  decoder : Decoder
  /-- The response sequence, oldest word first (R46). -/
  responses : List Word
  /-- The refusal mark (R47): the model's, not the block's. -/
  refusalMark : Bool
  /-- The recorded value of every refusal, oldest first (R292): the model's (DEDUCED, log entry 18). -/
  refusals : List Refusal
  /-- What has reached the block and is not consumed yet, oldest first (R60, R69): the model's view of the host's
  stream (DESIGN CHOICE, log entry 8). -/
  port : List PortEvent
  /-- How many free values of reset-interrupted commands were used: the model's (DESIGN CHOICE, log entry 6). -/
  freeCount : Nat
deriving DecidableEq, Repr

section Reset
variable {κ : Shape} (c : Config)

/-- A voice slot after reset (R48). -/
def Voice.initial : Voice κ :=
  { active := false, key := 0, frequency := clampFreq c F32.fourHundredForty, phase := F32.zero, waveform := .sine }

/-- The FM operator after reset (R48). -/
def Fm.initial : Fm :=
  { enabled := false, wave := .sine, mode := .harmonic, ratio := F32.one,
    mfreq := clampFreq c F32.fourHundredForty, mphase := F32.zero, beta := F32.zero }

/-- The reference contents of a filter entry that does not exist (R35): unobservable (DESIGN CHOICE, log entry 10). -/
def Filter.initial : Filter :=
  { ftype := .lowPass, cutoff := F32.zero, resonance := F32.zero,
    coeffs := { b0 := F32.zero, b1 := F32.zero, b2 := F32.zero, a1 := F32.zero, a2 := F32.zero },
    x1 := F32.zero, x2 := F32.zero, y1 := F32.zero, y2 := F32.zero }

/-- Every cell `+0.0` (R37). -/
def Ring.initial : Ring κ :=
  { cells := List.replicate κ.vis F32.zero, size := List.length_replicate }

/-- A block of these parameters right after power-on (R48; R47 for the refusal mark): nothing has arrived, nothing was
emitted. -/
def State.initial : State κ :=
  { voices := Vector.replicate _ (Voice.initial c), fm := Fm.initial c, filt := Vector.replicate _ Filter.initial,
    fcount := ⟨0, Nat.succ_pos _⟩, vis := Ring.initial, vcur := ⟨0, κ.visPos⟩, decoder := .idle, responses := [],
    refusalMark := false, refusals := [], port := [], freeCount := 0 }

end Reset

/-- This hardware right after power-on (R48). -/
def State.reset : State := State.initial Config.hw

end Sys2Proof.Machine
end

