-- ==== Sys2Proof/Machine/Ops.lean ====
section
/-! DEFINITION. The named operations over the register files and the ports: voice slots, filter entries, the
visualisation ring, `emit` and `refuse` (spec/00_scope.md R16), and taking a reset, the one event that redirects the block
(spec/60_exceptions.md R294, R295: there is no exception to take). -/

namespace Sys2Proof.Machine

variable {κ : Shape}

/-- `voice[i]` (R26). -/
def State.voice (s : State κ) (i : Fin κ.voices) : Voice κ := s.voices[i]

/-- `filt[k]` (R33). -/
def State.filter (s : State κ) (k : Fin κ.filters) : Filter := s.filt[k]

/-- `voice[i] <- v`. -/
def State.setVoice (s : State κ) (i : Fin κ.voices) (v : Voice κ) : State κ :=
  { s with voices := s.voices.set i v }

/-- Write the FM operator's register set. -/
def State.withFm (s : State κ) (fm : Fm) : State κ := { s with fm := fm }

/-- `filt[k] <- f`. -/
def State.setFilter (s : State κ) (k : Fin κ.filters) (f : Filter) : State κ :=
  { s with filt := s.filt.set k f }

/-- `vis[j]`. -/
def Ring.get (r : Ring κ) (j : Fin κ.vis) : F32 := r.cells[j.val]'(by rw [r.size]; exact j.isLt)

/-- `vis[j] <- y`. -/
def Ring.set (r : Ring κ) (j : Fin κ.vis) (y : F32) : Ring κ :=
  { cells := r.cells.set j y, size := by rw [List.length_set]; exact r.size }

/-- The ring index `j` places after the cursor, modulo `VIS_CAPACITY` (R37). -/
def State.ringAt (s : State κ) (j : Nat) : Fin κ.vis := ⟨(s.vcur.val + j) % κ.vis, Nat.mod_lt _ κ.visPos⟩

/-- Append a sample to the ring: it overwrites the oldest entry, and the cursor advances modulo `VIS_CAPACITY`
(spec/44_render.md R266). -/
def State.pushVis (s : State κ) (y : F32) : State κ :=
  { s with vis := s.vis.set s.vcur y, vcur := s.ringAt 1 }

/-- `emit`, word after word (spec/00_scope.md R16, spec/10_state.md R46). -/
def State.emit (s : State κ) (ws : List Word) : State κ := { s with responses := s.responses ++ ws }

/-- `refuse(reason)` (spec/30_encoding.md R95): the sticky mark of spec/10_state.md R47 is set, the reason is recorded
(spec/60_exceptions.md R292), and nothing else changes. -/
def State.refuse (s : State κ) (r : Refusal) : State κ :=
  { s with refusalMark := true, refusals := s.refusals ++ [r] }

/-- Reset is asserted (spec/70_reset_and_hazards.md R320): every piece of the block's state takes its reset value, from any
state, and a partly received command is lost (R321).  Response words emitted before stay in the response sequence (R321;
DEDUCED, log entry 7), the refusal mark and its record stay (R323), and what has not reached the decoder yet is still to
come. -/
def State.takeReset (s : State) : State :=
  { State.reset with
    responses := s.responses, refusalMark := s.refusalMark, refusals := s.refusals, port := s.port,
    freeCount := s.freeCount }

end Sys2Proof.Machine
end

