-- ==== Sys2Proof/Machine/Control.lean ====
section
/-! DEFINITION. The command that does nothing: NOP (spec/30_encoding.md R96). -/

namespace Sys2Proof.Machine

/-- NOP (R96): `skip`. -/
def execNop (s : State) : Host.Outcome State Fault Refusal := .next s

end Sys2Proof.Machine
end

