-- ==== Sys2Proof/Machine/FilterChain.lean ====
section
/-! DEFINITION. The biquad filter cascade (spec/43_filter.md): coefficient design, the per-sample recurrence, the chain, and
the commands ADDFLT, RMFLT and SETFLT. -/

namespace Sys2Proof.Machine

open F32

variable {κ : Shape}

/-- `w0 = (TWO_PI * c) / SR` (R216). -/
def designAngle (c : Config) (cutoff : F32) : F32 := div (mul twoPi cutoff) c.sr

/-- `al = sw / (2.0 * q)` (R216). -/
def designAlpha (c : Config) (cutoff q : F32) : F32 := div (c.sin (designAngle c cutoff)) (mul two q)

/-- `a0 = 1.0 + al` (R216). -/
def designA0 (c : Config) (cutoff q : F32) : F32 := add one (designAlpha c cutoff q)

/-- The numerators `(b0, b1, b2)` before normalisation (R216). -/
def designNumerators (t : FilterType) (cw al : F32) : F32 × F32 × F32 :=
  match t with
  | .lowPass => (div (sub one cw) two, sub one cw, div (sub one cw) two)
  | .highPass => (div (add one cw) two, (add one cw).neg, div (add one cw) two)
  | .bandPass => (al, zero, al.neg)
  | .notch => (one, (mul two cw).neg, one)

/-- `design(t, c, q)` (R216). -/
def design (c : Config) (t : FilterType) (cutoff q : F32) : Coeffs :=
  let cw := c.cos (designAngle c cutoff)
  let al := designAlpha c cutoff q
  let a0 := designA0 c cutoff q
  let b := designNumerators t cw al
  { b0 := div b.1 a0, b1 := div b.2.1 a0, b2 := div b.2.2 a0, a1 := div (mul two cw).neg a0, a2 := div (sub one al) a0 }

/-- `setParameters` (R213) on one entry: clamp, design, and keep the recurrence state (R217). -/
def Filter.withParameters (c : Config) (f : Filter) (t : FilterType) (cutoff q : F32) : Filter :=
  { f with
    ftype := t, cutoff := clampCutoff c cutoff, resonance := clampResonance c q,
    coeffs := design c t (clampCutoff c cutoff) (clampResonance c q) }

/-- The entry ADDFLT makes (R221): default parameters and zero recurrence state. -/
def Filter.fresh (c : Config) (f : Filter) : Filter :=
  { f.withParameters c c.filterDefaultType c.filterDefaultCutoff c.filterDefaultResonance with
    x1 := zero, x2 := zero, y1 := zero, y2 := zero }

/-- ADDFLT (R221): a full chain stays as it is. -/
def addFilter (c : Config) (s : State κ) : State κ :=
  if h : s.fcount.val < κ.filters then
    { s.setFilter ⟨s.fcount, h⟩ ((s.filter ⟨s.fcount, h⟩).fresh c) with
      fcount := ⟨s.fcount + 1, Nat.succ_lt_succ h⟩ }
  else s

/-- The array after the entries above `index` moved down by one, each record whole (R222).  The entry that
no longer exists keeps what it held (DESIGN CHOICE, log entry 10). -/
def shiftDown (filt : Vector Filter κ.filters) (index count : Nat) : Vector Filter κ.filters :=
  Vector.ofFn fun k : Fin κ.filters =>
    if h : index ≤ k.val ∧ k.val + 1 < count ∧ k.val + 1 < κ.filters then filt[k.val + 1]'h.2.2 else filt[k]

/-- RMFLT (R222): an index that names no filter does nothing. -/
def removeFilter (index : Nat) (s : State κ) : State κ :=
  if index < s.fcount.val then
    { s with
      filt := shiftDown s.filt index s.fcount
      fcount := ⟨s.fcount - 1, Nat.lt_of_le_of_lt (Nat.sub_le _ _) s.fcount.isLt⟩ }
  else s

/-- SETFLT (R223): an index that names no filter does nothing. -/
def setFilter (c : Config) (index : Nat) (t : FilterType) (v0 v1 : F32) (s : State κ) : State κ :=
  if h : index < s.fcount.val then
    have hk : index < κ.filters := Nat.lt_of_lt_of_le h (Nat.le_of_lt_succ s.fcount.isLt)
    s.setFilter ⟨index, hk⟩ ((s.filter ⟨index, hk⟩).withParameters c t v0 v1)
  else s

/-- The output of the recurrence (R230), left to right. -/
def Filter.output (f : Filter) (x : F32) : F32 :=
  sub (sub (add (add (mul f.coeffs.b0 x) (mul f.coeffs.b1 f.x1)) (mul f.coeffs.b2 f.x2)) (mul f.coeffs.a1 f.y1))
    (mul f.coeffs.a2 f.y2)

/-- The entry after one sample (R230): the old `x1` and `y1` move to `x2` and `y2`. -/
def Filter.shifted (f : Filter) (x : F32) : Filter := { f with x2 := f.x1, x1 := x, y2 := f.y1, y1 := f.output x }

/-- `process(k, x)` (R230), threading the sample. -/
def process (acc : State κ × F32) (k : Fin κ.filters) : State κ × F32 :=
  (acc.1.setFilter k ((acc.1.filter k).shifted acc.2), (acc.1.filter k).output acc.2)

/-- The entries that exist, in processing order (R33, R210). -/
def State.chainIndices (s : State κ) : List (Fin κ.filters) :=
  (List.finRange κ.filters).filter fun k => decide (k.val < s.fcount.val)

/-- `chain(x)` (R232). -/
def chain (x : F32) (s : State κ) : State κ × F32 := s.chainIndices.foldl process (s, x)

/-- ADDFLT (R221). -/
def execAddflt (s : State) : Host.Outcome State Fault Refusal := .next (addFilter Config.hw s)

/-- RMFLT (R222). -/
def execRmflt (index : Nat) (s : State) : Host.Outcome State Fault Refusal := .next (removeFilter index s)

/-- SETFLT (R223). -/
def execSetflt (index : Nat) (t : FilterType) (v0 v1 : F32) (s : State) : Host.Outcome State Fault Refusal :=
  .next (setFilter Config.hw index t v0 v1 s)

end Sys2Proof.Machine
end

