-- ==== Sys2Proof/Machine/Oscillator.lean ====
section
/-! DEFINITION. The phase-accumulator oscillator and the waveform evaluator (spec/40_oscillator.md), with the commands
SETWV and SETWVA. -/

namespace Sys2Proof.Machine

open F32

variable {κ : Shape}

/-- The phase increment of one sample, `(TWO_PI * f) / SR` (R122). -/
def phaseInc (c : Config) (f : F32) : F32 := div (mul twoPi f) c.sr

/-- `advance(p, f)` (R122): one subtraction wraps, at `TWO_PI` and above. -/
def advance (c : Config) (p f : F32) : F32 :=
  if ge (add p (phaseInc c f)) twoPi then sub (add p (phaseInc c f)) twoPi else add p (phaseInc c f)

/-- `wave(w, p)` (R124). -/
def wave (c : Config) (w : Waveform) (p : F32) : F32 :=
  match w with
  | .sine => c.sin p
  | .square => if ge (c.sin p) zero then one else negOne
  | .triangle => mul twoOverPi (c.asin (c.sin p))
  | .saw => sub (mul two (div p twoPi)) one

/-- A voice one sample later (R126, step 1). -/
def Voice.advanced (c : Config) (v : Voice κ) : Voice κ := { v with phase := advance c v.phase v.frequency }

/-- `render(v)` (R126): advance first, then evaluate at the new phase. -/
def renderVoice (c : Config) (v : Fin κ.voices) (s : State κ) : State κ × F32 :=
  (s.setVoice v ((s.voice v).advanced c), wave c (s.voice v).waveform ((s.voice v).advanced c).phase)

/-- SETWV (R127): a slot at or above `VOICE_CAPACITY` names none, and nothing happens. -/
def setWaveform (slot : Nat) (w : Waveform) (s : State κ) : State κ :=
  if h : slot < κ.voices then s.setVoice ⟨slot, h⟩ { s.voice ⟨slot, h⟩ with waveform := w } else s

/-- SETWVA (R128): every slot, active or not. -/
def setAllWaveforms (w : Waveform) (s : State κ) : State κ :=
  { s with voices := Vector.ofFn fun i : Fin κ.voices => { s.voice i with waveform := w } }

/-- SETWV (R127). -/
def execSetwv (slot : Nat) (w : Waveform) (s : State) : Host.Outcome State Fault Refusal := .next (setWaveform slot w s)

/-- SETWVA (R128). -/
def execSetwva (w : Waveform) (s : State) : Host.Outcome State Fault Refusal := .next (setAllWaveforms w s)

end Sys2Proof.Machine
end

