-- ==== Sys2Proof/Machine/FmOperator.lean ====
section
/-! DEFINITION. The shared FM operator (spec/42_fm_operator.md): the command SETFM and the internal operation
`renderModulated`. -/

namespace Sys2Proof.Machine

open F32

variable {κ : Shape}

/-- The register set SETFM leaves (R181): the ratio is written in Harmonic mode only (R182), the modulator frequency in
Inharmonic mode only (R184), the modulator phase never. -/
def Fm.configured (c : Config) (fm : Fm) (enabled : Bool) (w : Waveform) (mode : FmMode) (v0 v1 : F32) : Fm :=
  match mode with
  | .harmonic => { fm with enabled := enabled, wave := w, mode := .harmonic, ratio := clampRatio c v0, beta := clampBeta c v1 }
  | .inharmonic => { fm with enabled := enabled, wave := w, mode := .inharmonic, mfreq := clampFreq c v0, beta := clampBeta c v1 }

/-- SETFM (R181). -/
def setFm (c : Config) (enabled : Bool) (w : Waveform) (mode : FmMode) (v0 v1 : F32) (s : State κ) : State κ :=
  s.withFm (s.fm.configured c enabled w mode v0 v1)

/-- The modulator one step later (R186, step 1). -/
def Fm.advanced (c : Config) (fm : Fm) : Fm := { fm with mphase := advance c fm.mphase fm.mfreq }

/-- The modulator's value at its phase (R186, step 3). -/
def Fm.value (c : Config) (fm : Fm) : F32 := Machine.wave c fm.wave fm.mphase

/-- The carrier's waveform at the modulated phase, which is neither wrapped nor stored (R186, step 4; R188). -/
def carrier (c : Config) (fm : Fm) (v : Voice κ) : F32 := wave c v.waveform (add v.phase (mul fm.beta (fm.value c)))

/-- `renderModulated(v)` (R186): modulator first, then the voice, then the carrier at the modulated phase. -/
def renderModulated (c : Config) (v : Fin κ.voices) (s : State κ) : State κ × F32 :=
  ((s.withFm (s.fm.advanced c)).setVoice v ((s.voice v).advanced c),
    carrier c (s.fm.advanced c) ((s.voice v).advanced c))

/-- SETFM (R181). -/
def execSetfm (enabled : Bool) (w : Waveform) (mode : FmMode) (v0 v1 : F32) (s : State) :
    Host.Outcome State Fault Refusal :=
  .next (setFm Config.hw enabled w mode v0 v1 s)

end Sys2Proof.Machine
end

