-- ==== Sys2Proof/Machine/VoicePool.lean ====
section
/-! DEFINITION. The voice pool (spec/41_voice_pool.md): allocation, retrigger in place, slot-0 stealing and release, with
the commands NOTEON and NOTEOFF and the internal operation `activeVoices`. -/

namespace Sys2Proof.Machine

open F32

variable {κ : Shape}

/-- The slot is active and holds the key (R151, R157). -/
def Voice.holds (v : Voice κ) (key : BitVec κ.keyWidth) : Bool := v.active && v.key == key

/-- The least slot that is active and holds the key (R151, R157). -/
def State.findKey (s : State κ) (key : BitVec κ.keyWidth) : Option (Fin κ.voices) :=
  (List.finRange κ.voices).find? fun i => (s.voice i).holds key

/-- The least inactive slot (R152). -/
def State.findInactive (s : State κ) : Option (Fin κ.voices) :=
  (List.finRange κ.voices).find? fun i => !(s.voice i).active

/-- The slot a newly triggered voice takes: the least inactive one (R152), slot 0 where there is none (R153). -/
def State.claimSlot (s : State κ) : Fin κ.voices := s.findInactive.getD ⟨0, κ.voicesPos⟩

/-- `activeVoices()` (R158): the active slots in slot order. -/
def State.activeVoices (s : State κ) : List (Fin κ.voices) :=
  (List.finRange κ.voices).filter fun i => (s.voice i).active

/-- Retune in place (R155): only the slot's frequency. -/
def retune (i : Fin κ.voices) (f : F32) (s : State κ) : State κ :=
  s.setVoice i { s.voice i with frequency := f }

/-- The Harmonic recompute of a newly triggered voice (R154), whatever `fm.enabled` holds. -/
def harmonicRecompute (c : Config) (f : F32) (s : State κ) : State κ :=
  match s.fm.mode with
  | .harmonic => s.withFm { s.fm with mfreq := clampFreq c (mul f s.fm.ratio) }
  | .inharmonic => s

/-- Allocation and stealing (R151 to R154): the slot keeps its phase and its waveform. -/
def trigger (c : Config) (i : Fin κ.voices) (key : BitVec κ.keyWidth) (f : F32) (s : State κ) : State κ :=
  harmonicRecompute c f (s.setVoice i { s.voice i with active := true, key := key, frequency := f })

/-- NOTEON (R151). -/
def noteOn (c : Config) (key : BitVec κ.keyWidth) (v0 : F32) (s : State κ) : State κ :=
  match s.findKey key with
  | some i => retune i (clampFreq c v0) s
  | none => trigger c s.claimSlot key (clampFreq c v0) s

/-- NOTEOFF (R157): a key that no active slot holds does nothing. -/
def noteOff (key : BitVec κ.keyWidth) (s : State κ) : State κ :=
  match s.findKey key with
  | some i => s.setVoice i { s.voice i with active := false }
  | none => s

/-- NOTEON (R151). -/
def execNoteon (key : Key) (v0 : F32) (s : State) : Host.Outcome State Fault Refusal :=
  .next (noteOn Config.hw key v0 s)

/-- NOTEOFF (R157). -/
def execNoteoff (key : Key) (s : State) : Host.Outcome State Fault Refusal := .next (noteOff key s)

end Sys2Proof.Machine
end

