-- ==== Sys2Proof/Machine/Render.lean ====
section
/-! DEFINITION. The audio render loop and the visualisation readout (spec/44_render.md): `sampleStep`, `normalise`, and the
commands RENDER and RDVIS. -/

namespace Sys2Proof.Machine

open F32

variable {κ : Shape}

/-- One active voice's turn (R262): plain or modulated, and one rounded addition to the mix (R263). -/
def mixVoice (c : Config) (acc : State κ × F32) (v : Fin κ.voices) : State κ × F32 :=
  let r := if acc.1.fm.enabled then renderModulated c v acc.1 else renderVoice c v acc.1
  (r.1, add acc.2 r.2)

/-- The sum over the active voices in slot order, from `+0.0` (R262, R263). -/
def mixVoices (c : Config) (s : State κ) : State κ × F32 := s.activeVoices.foldl (mixVoice c) (s, zero)

/-- `normalise(mix, n)` (R264). -/
def normalise (p : NormPolicy) (mix : F32) (n : Nat) : F32 :=
  match p with
  | .divideByCount => if 0 < n then div mix (ofNat n) else mix
  | .fixedGain g => mul mix g

/-- `sampleStep()` (R262). -/
def sampleStep (c : Config) (s : State κ) : State κ × F32 :=
  let m := mixVoices c s
  let y := chain (normalise c.normPolicy m.2 s.activeVoices.length) m.1
  (y.1.pushVis y.2, y.2)

/-- `n` sample steps: the state after them and the samples in order (R260). -/
def renderSamples (c : Config) : Nat → State κ → State κ × List F32
  | 0, s => (s, [])
  | n + 1, s =>
    let r := sampleStep c s
    let rs := renderSamples c n r.1
    (rs.1, r.2 :: rs.2)

/-- RENDER (R260): the samples are the words it emits (R265). -/
def renderBuffer (c : Config) (n : Nat) (s : State κ) : State κ :=
  let r := renderSamples c n s
  r.1.emit (r.2.map F32.bits)

/-- The window of RDVIS (R270): entry `(vcur + j) mod VIS_CAPACITY` for each `j`, oldest first. -/
def visWindow (s : State κ) : List F32 := (List.range κ.vis).map fun j => s.vis.get (s.ringAt j)

/-- RDVIS (R270). -/
def readVis (s : State κ) : State κ := s.emit ((visWindow s).map F32.bits)

/-- RENDER (R260). -/
def execRender (n : Nat) (s : State) : Host.Outcome State Fault Refusal := .next (renderBuffer Config.hw n s)

/-- RDVIS (R270). -/
def execRdvis (s : State) : Host.Outcome State Fault Refusal := .next (readVis s)

end Sys2Proof.Machine
end

