-- ==== Sys2Proof/Machine/Dispatch.lean ====
section
/-! DEFINITION. One arm per command: which meaning it has. -/

namespace Sys2Proof.Machine

def exec (i : Instr) (s : State) : Host.Outcome State Fault Refusal :=
  match i with
  | .nop => Sys2Proof.Machine.execNop s
  | .noteon key v0 => Sys2Proof.Machine.execNoteon key v0 s
  | .noteoff key => Sys2Proof.Machine.execNoteoff key s
  | .setwv slot wave => Sys2Proof.Machine.execSetwv slot wave s
  | .setwva wave => Sys2Proof.Machine.execSetwva wave s
  | .setfm enabled wave mode v0 v1 => Sys2Proof.Machine.execSetfm enabled wave mode v0 v1 s
  | .addflt => Sys2Proof.Machine.execAddflt s
  | .rmflt index => Sys2Proof.Machine.execRmflt index s
  | .setflt index ftype v0 v1 => Sys2Proof.Machine.execSetflt index ftype v0 v1 s
  | .render n => Sys2Proof.Machine.execRender n s
  | .rdvis => Sys2Proof.Machine.execRdvis s

end Sys2Proof.Machine
end

