-- ==== Sys2Proof/WellFormed.lean ====
section
/-! DEFINITION. Which commands can be encoded: every unsigned immediate fits the 16 bits of `IMM`
(spec/30_encoding.md R86; R97 "each at most 0xFFFF"). -/

namespace Sys2Proof

/-- The value fits the immediate field `IMM` (R86). -/
def fitsImm (n : Nat) : Bool := decide (n < 65536)

/-- The command has an encoding: its index, slot or count fits `IMM`.  Keys, codes, flags and operand
words fit by their types, and an operand's VALUE never makes a command illegal (R87, R92). -/
def Instr.wellFormed : Instr → Bool
  | .nop => true
  | .noteon _ _ => true
  | .noteoff _ => true
  | .setwv slot _ => fitsImm slot
  | .setwva _ => true
  | .setfm _ _ _ _ _ => true
  | .addflt => true
  | .rmflt index => fitsImm index
  | .setflt index _ _ _ => fitsImm index
  | .render n => fitsImm n
  | .rdvis => true

end Sys2Proof
end

