-- ==== Sys2Proof/Decode.lean ====
section
/-! DEFINITION. The command encoding (spec/30_encoding.md R80 to R93) and its inverse: fields of a header word, the
length rule, the decoder, total on any words and rejecting an illegal header by name, the opcode map as a table of masks and
matches, the encoder, and the byte order of a byte transport (spec/20_memory.md R62). -/

namespace Sys2Proof

/-- The code of a waveform (spec/10_state.md R23). -/
def Waveform.code : Waveform → BitVec 2
  | .sine => 0
  | .square => 1
  | .triangle => 2
  | .saw => 3

/-- The waveform of a code: all four are assigned (R84). -/
def Waveform.ofCode (c : BitVec 2) : Waveform :=
  if c = 0 then .sine else if c = 1 then .square else if c = 2 then .triangle else .saw

/-- The code of a filter type (spec/10_state.md R24). -/
def FilterType.code : FilterType → BitVec 2
  | .lowPass => 0
  | .highPass => 1
  | .bandPass => 2
  | .notch => 3

/-- The filter type of a code: all four are assigned (R84). -/
def FilterType.ofCode (c : BitVec 2) : FilterType :=
  if c = 0 then .lowPass else if c = 1 then .highPass else if c = 2 then .bandPass else .notch

/-- The bit `M` of an FM mode (spec/10_state.md R25). -/
def FmMode.code : FmMode → BitVec 1
  | .harmonic => 0
  | .inharmonic => 1

/-- The FM mode of the bit `M` (R85). -/
def FmMode.ofCode (c : BitVec 1) : FmMode := if c = 0 then .harmonic else .inharmonic

/-- `OP = W[31:24]` (R82). -/
def opField (h : Word) : BitVec 8 := h.extractLsb' 24 8

/-- The code field `A = W[23:20]` (R80). -/
def aField (h : Word) : BitVec 4 := h.extractLsb' 20 4

/-- The reserved upper half `W[23:22]` of `A` in a command with a code (R83). -/
def aReserved (h : Word) : BitVec 2 := h.extractLsb' 22 2

/-- The waveform or filter type code `W[21:20]` (R83). -/
def codeField (h : Word) : BitVec 2 := h.extractLsb' 20 2

/-- The flag field `B = W[19:16]` (R80). -/
def bField (h : Word) : BitVec 4 := h.extractLsb' 16 4

/-- The reserved bits `W[19:17]` of SETWV and SETWVA (R85). -/
def gReserved (h : Word) : BitVec 3 := h.extractLsb' 17 3

/-- The reserved bits `W[19:18]` of SETFM (R85). -/
def emReserved (h : Word) : BitVec 2 := h.extractLsb' 18 2

/-- Bit 16: `G` of SETWV and SETWVA, `E` of SETFM (R85). -/
def geBit (h : Word) : BitVec 1 := h.extractLsb' 16 1

/-- Bit 17: `M` of SETFM (R85). -/
def mBit (h : Word) : BitVec 1 := h.extractLsb' 17 1

/-- `IMM = W[15:0]` (R86). -/
def immField (h : Word) : BitVec 16 := h.extractLsb' 0 16

/-- The length of a command in words, header included: it depends on `OP` alone (R81). -/
def commandLength (h : Word) : Nat :=
  if opField h = 0x01 then 2 else if opField h = 0x04 ∨ opField h = 0x07 then 3 else 1

/-- The operand word `V<k>` as a value, of the operand words that came with the header (R87). -/
def operandValue (operands : List Word) (k : Nat) : F32 := ⟨operands.getD k 0⟩

/-- The command that a header and its operand words spell, by the fields of R82 to R87; none where the header is
illegal (R90), whatever the operand words hold. -/
def decodeCommand (h : Word) (operands : List Word) : Option Instr :=
  if opField h = 0x00 then
    if aField h = 0 ∧ bField h = 0 ∧ immField h = 0 then some .nop else none
  else if opField h = 0x01 then
    if aField h = 0 ∧ bField h = 0 then some (.noteon (immField h) (operandValue operands 0)) else none
  else if opField h = 0x02 then
    if aField h = 0 ∧ bField h = 0 then some (.noteoff (immField h)) else none
  else if opField h = 0x03 then
    if aReserved h = 0 ∧ gReserved h = 0 ∧ geBit h = 0 then
      some (.setwv (immField h).toNat (.ofCode (codeField h)))
    else if aReserved h = 0 ∧ gReserved h = 0 ∧ immField h = 0 then some (.setwva (.ofCode (codeField h)))
    else none
  else if opField h = 0x04 then
    if aReserved h = 0 ∧ emReserved h = 0 ∧ immField h = 0 then
      some (.setfm (geBit h == 1) (.ofCode (codeField h)) (.ofCode (mBit h)) (operandValue operands 0)
        (operandValue operands 1))
    else none
  else if opField h = 0x05 then
    if aField h = 0 ∧ bField h = 0 ∧ immField h = 0 then some .addflt else none
  else if opField h = 0x06 then
    if aField h = 0 ∧ bField h = 0 then some (.rmflt (immField h).toNat) else none
  else if opField h = 0x07 then
    if aReserved h = 0 ∧ bField h = 0 then
      some (.setflt (immField h).toNat (.ofCode (codeField h)) (operandValue operands 0) (operandValue operands 1))
    else none
  else if opField h = 0x08 then
    if aField h = 0 ∧ bField h = 0 then some (.render (immField h).toNat) else none
  else if opField h = 0x09 then
    if aField h = 0 ∧ bField h = 0 ∧ immField h = 0 then some .rdvis else none
  else none

/-- What the decoder reads from the front of a command stream (R93). -/
inductive Decoded
  /-- A legal command and the words after it. -/
  | instr (i : Instr) (rest : List Word)
  /-- `IllegalEncoding(W)`: the header selects no row; it and the operand words of its length are discarded (R95). -/
  | illegal (header : Word) (rest : List Word)
  /-- The stream ends before the command does (R45). -/
  | incomplete
deriving DecidableEq, Repr

/-- `decode(words)` of R93: total on every stream. -/
def decode : List Word → Decoded
  | [] => .incomplete
  | h :: ws =>
    if ws.length + 1 < commandLength h then .incomplete
    else
      match decodeCommand h (ws.take (commandLength h - 1)) with
      | some i => .instr i (ws.drop (commandLength h - 1))
      | none => .illegal h (ws.drop (commandLength h - 1))

/-- One row of the opcode map (R88). -/
structure OpcodeRow where
  mnemonic : String
  length : Nat
  pattern : Word
  mask : Word
deriving DecidableEq, Repr

/-- The opcode map (R88), row by row.  The decoder reads fields; that both select the same commands is a statement. -/
def opcodeMap : List OpcodeRow :=
  [ ⟨"NOP", 1, 0x00000000, 0xFFFFFFFF⟩,
    ⟨"NOTEON", 2, 0x01000000, 0xFFFF0000⟩,
    ⟨"NOTEOFF", 1, 0x02000000, 0xFFFF0000⟩,
    ⟨"SETWV", 1, 0x03000000, 0xFFCF0000⟩,
    ⟨"SETWVA", 1, 0x03010000, 0xFFCFFFFF⟩,
    ⟨"SETFM", 3, 0x04000000, 0xFFCCFFFF⟩,
    ⟨"ADDFLT", 1, 0x05000000, 0xFFFFFFFF⟩,
    ⟨"RMFLT", 1, 0x06000000, 0xFFFF0000⟩,
    ⟨"SETFLT", 3, 0x07000000, 0xFFCF0000⟩,
    ⟨"RENDER", 1, 0x08000000, 0xFFFF0000⟩,
    ⟨"RDVIS", 1, 0x09000000, 0xFFFFFFFF⟩ ]

/-- `(W & mask) == match` (R88). -/
def OpcodeRow.selects (r : OpcodeRow) (h : Word) : Bool := (h &&& r.mask) == r.pattern

/-- The header word is legal: it selects a row (R90). -/
def legalHeader (h : Word) : Bool := opcodeMap.any (fun r => r.selects h)

/-- The mnemonic of a command's row. -/
def Instr.mnemonic : Instr → String
  | .nop => "NOP"
  | .noteon _ _ => "NOTEON"
  | .noteoff _ => "NOTEOFF"
  | .setwv _ _ => "SETWV"
  | .setwva _ => "SETWVA"
  | .setfm _ _ _ _ _ => "SETFM"
  | .addflt => "ADDFLT"
  | .rmflt _ => "RMFLT"
  | .setflt _ _ _ _ => "SETFLT"
  | .render _ => "RENDER"
  | .rdvis => "RDVIS"

/-- A header word from its four fields (R80). -/
def header (op : BitVec 8) (a b : BitVec 4) (imm : BitVec 16) : Word := op ++ (a ++ (b ++ imm))

/-- The words of a command (R80 to R88). -/
def encode : Instr → List Word
  | .nop => [header 0x00 0 0 0]
  | .noteon key v0 => [header 0x01 0 0 key, v0.bits]
  | .noteoff key => [header 0x02 0 0 key]
  | .setwv slot wave => [header 0x03 (0#2 ++ wave.code) 0 (BitVec.ofNat 16 slot)]
  | .setwva wave => [header 0x03 (0#2 ++ wave.code) 1 0]
  | .setfm enabled wave mode v0 v1 =>
    [header 0x04 (0#2 ++ wave.code) (0#2 ++ (mode.code ++ BitVec.ofBool enabled)) 0, v0.bits, v1.bits]
  | .addflt => [header 0x05 0 0 0]
  | .rmflt index => [header 0x06 0 0 (BitVec.ofNat 16 index)]
  | .setflt index ftype v0 v1 =>
    [header 0x07 (0#2 ++ ftype.code) 0 (BitVec.ofNat 16 index), v0.bits, v1.bits]
  | .render n => [header 0x08 0 0 (BitVec.ofNat 16 n)]
  | .rdvis => [header 0x09 0 0 0]

/-- The bytes of a word on a byte transport, least significant byte first (R62). -/
def wordToBytes (w : Word) : List Byte :=
  [w.extractLsb' 0 8, w.extractLsb' 8 8, w.extractLsb' 16 8, w.extractLsb' 24 8]

/-- The words that a byte transport delivers; a partial word at its end is not one yet (R62, R63). -/
def bytesToWords : List Byte → List Word
  | b0 :: b1 :: b2 :: b3 :: rest => (b3 ++ (b2 ++ (b1 ++ b0)) : Word) :: bytesToWords rest
  | _ => []

/-- The decoder behind a byte transport (R62, R93): total on any bytes. -/
def decodeBytes (bytes : List Byte) : Decoded := decode (bytesToWords bytes)

/-- Word `k` of a number whose bit 0 is the least significant bit of the first word. -/
def tableWord (w k : Nat) : Word := BitVec.ofNat 32 (w / 2 ^ (32 * k))

/-- The words of the command in the low `nbits` bits of `w`, every bit above them 0: as many as its header asks for. -/
def tableCommand (nbits w : Nat) : List Word :=
  ((tableWord (w % 2 ^ nbits) 0) :: (tableWord (w % 2 ^ nbits) 1) :: [tableWord (w % 2 ^ nbits) 2]).take
    (commandLength (tableWord (w % 2 ^ nbits) 0))

/-- The command the decoder reads from a table word (the host's numbering of bits). -/
def decodeTableWord (nbits w : Nat) : Option Instr :=
  match decode (tableCommand nbits w) with
  | .instr i _ => some i
  | .illegal _ _ => none
  | .incomplete => none

end Sys2Proof
end

