-- ==== Sys2Proof/Machine/Port.lean ====
section
/-! DEFINITION. The command port (spec/10_state.md R45, spec/30_encoding.md R81): how words are collected until a command is
whole, and how reset cuts in (spec/60_exceptions.md R294, spec/70_reset_and_hazards.md R321). -/

namespace Sys2Proof.Machine

/-- The words the decoder holds: the header and the operand words so far. -/
def Decoder.words : Decoder → List Word
  | .idle => []
  | .collecting header operands => header :: operands

/-- The decoder state that holds these words. -/
def Decoder.ofWords : List Word → Decoder
  | [] => .idle
  | header :: operands => .collecting header operands

/-- The words make up a whole command: as many as the length rule takes from the header (R81). -/
def wholeCommand : List Word → Bool
  | [] => false
  | h :: ws => decide (commandLength h ≤ ws.length + 1)

/-- What the port delivers next. -/
inductive Fetched
  /-- Every event is consumed and no command is whole yet: the block waits with these words. -/
  | waiting (words : List Word)
  /-- A command is whole. -/
  | command (words : List Word) (rest : List PortEvent)
  /-- Reset was asserted before a command was whole. -/
  | reset (rest : List PortEvent)
  /-- A command is whole, and reset is asserted while it executes. -/
  | interrupted (words : List Word) (rest : List PortEvent)
deriving DecidableEq, Repr

/-- Collect words, after those already held, until a command is whole or reset cuts in (DESIGN CHOICE, log entries 6, 8). -/
def fetch (held : List Word) : List PortEvent → Fetched
  | [] => .waiting held
  | .reset :: rest => .reset rest
  | .word w :: rest => if wholeCommand (held ++ [w]) then .command (held ++ [w]) rest else fetch (held ++ [w]) rest
  | .interrupted w :: rest => if wholeCommand (held ++ [w]) then .interrupted (held ++ [w]) rest else .reset rest

/-- What a byte transport delivers (spec/20_memory.md R62, R63): bytes, and the reset input as in `PortEvent`
(DESIGN CHOICE, log entry 13). -/
inductive ByteEvent
  | byte (b : Byte)
  | reset
  /-- A byte arrives, and reset is asserted while the command it completes is executing (R294). -/
  | interrupted (b : Byte)
deriving DecidableEq, Repr

/-- The word that a fourth byte completes, least significant byte first (R62); none before that. -/
def completeWord : List Byte → Byte → Option Word
  | [b0, b1, b2], b3 => some (b3 ++ (b2 ++ (b1 ++ b0)))
  | _, _ => none

/-- The port events that a byte transport makes, the bytes of a partial word held so far: reset loses them (R63). -/
def assembleBytes (held : List Byte) : List ByteEvent → List PortEvent
  | [] => []
  | .reset :: rest => .reset :: assembleBytes [] rest
  | .byte b :: rest =>
    match completeWord held b with
    | some w => .word w :: assembleBytes [] rest
    | none => assembleBytes (held ++ [b]) rest
  | .interrupted b :: rest =>
    match completeWord held b with
    | some w => .interrupted w :: assembleBytes [] rest
    | none => .reset :: assembleBytes [] rest

end Sys2Proof.Machine
end

