-- ==== Sys2Proof/Machine/Sequencer.lean ====
section
/-! DEFINITION. What the block does with what the port delivers: it executes a legal command, discards an illegal one
(spec/30_encoding.md R95), takes a reset (spec/70_reset_and_hazards.md R320), or waits (R322). -/

namespace Sys2Proof.Machine

/-- A whole command executes as one atomic step (spec/00_scope.md R17, spec/20_memory.md R64), or is discarded (R95). -/
def runCommand (words : List Word) (s : State) : Host.Outcome State Fault Refusal :=
  match decode words with
  | .instr i _ => exec i s
  | .illegal h _ => .next (s.refuse (.illegalEncoding h))
  | .incomplete => .next s

/-- The words a command emitted: those by which the response sequence grew. -/
def emitted (s t : State) : List Word := t.responses.drop s.responses.length

/-- Reset cuts off a command that went from `s` to `t` (spec/60_exceptions.md R294): the reset state, and a prefix of the
words the command would have emitted, of a length that nothing fixes. -/
def cutOff (s t : State) : State :=
  let ws := emitted s t
  { (s.emit (ws.take (Config.abortLength s.freeCount % (ws.length + 1)))).takeReset with freeCount := s.freeCount + 1 }

/-- A whole command during which reset is asserted (R294).  An illegal one is refused and reset is taken. -/
def runInterrupted (words : List Word) (s : State) : Host.Outcome State Fault Refusal :=
  match decode words with
  | .instr i _ =>
    match exec i s with
    | .next t => .next (cutOff s t)
    | .fault r => .fault r
    | .refused r => .refused r
  | .illegal h _ => .next (s.refuse (.illegalEncoding h)).takeReset
  | .incomplete => .next s.takeReset

/-- The block with an idle decoder and these events to come. -/
def State.afterFetch (s : State) (rest : List PortEvent) : State := { s with decoder := .idle, port := rest }

/-- One step on what the port delivers.  With nothing delivered the block is idle and keeps all its state
(spec/60_exceptions.md R303); words of a command that is not whole yet are held by the decoder. -/
def runFetched (s : State) : Fetched → Host.Outcome State Fault Refusal
  | .waiting words => .next { s with decoder := Decoder.ofWords words, port := [] }
  | .command words rest => runCommand words (s.afterFetch rest)
  | .reset rest => .next (s.afterFetch rest).takeReset
  | .interrupted words rest => runInterrupted words (s.afterFetch rest)

/-- Put the words of a command at the head of the command stream, before an idle decoder. -/
def State.deliver (s : State) (words : List Word) : State :=
  { s with decoder := .idle, port := words.map PortEvent.word ++ s.port }

end Sys2Proof.Machine
end

