-- ==== Sys2Proof/Machine/Step.lean ====
section
/-! DEFINITION. One step of the block: it consumes the command port up to the end of one command, one reset, or the end of
what has arrived (spec/00_scope.md R17, spec/20_memory.md R68). -/

namespace Sys2Proof.Machine

/-- One step. -/
def step (s : State) : Host.Outcome State Fault Refusal := runFetched s (fetch s.decoder.words s.port)

/-- The state with this command, numbered as the opcode table numbers bits, next on the command port, so that the very
next step runs it.  The block stores no program (spec/10_state.md R21): commands come from the host (log entry 9). -/
def State.withFetchWord (s : State) (nbits w : Nat) : State := s.deliver (tableCommand nbits w)

end Sys2Proof.Machine
end

