-- ==== Sys2Proof/Safety.lean ====
section
/-! DEFINITION. What a claim calls a legal state and a clean run: the invariants of spec/10_state.md R29, R32, R36 and R45, and
the refusal mark of R47.  The block cannot stop (spec/60_exceptions.md R290), so a run is safe when it stays clean. -/

namespace Sys2Proof.Machine

open F32

variable {κ : Shape}

/-- `+0.0 <= p < TWO_PI` in the comparisons of R12, which no NaN meets (R29(a), R32, R122). -/
def PhaseInRange (p : F32) : Prop := le zero p = true ∧ lt p twoPi = true

/-- `+0.0 <= p < TWO_PI` as the values a phase really takes: in range, and never `-0.0` (R29(a), R32, R189). -/
def PhaseLegal (p : F32) : Prop := PhaseInRange p ∧ p ≠ zero.neg

/-- `FREQ_MIN <= f <= FREQ_MAX` (R29(b), R32). -/
def FreqLegal (c : Config) (f : F32) : Prop := le c.freqMin f = true ∧ le f c.freqMax = true

/-- Every voice's frequency is in range (R29(b)). -/
def VoiceFreqsLegal (c : Config) (s : State κ) : Prop := ∀ i : Fin κ.voices, FreqLegal c (s.voice i).frequency

/-- Every voice's phase is in range (R29(a)). -/
def VoicePhasesLegal (s : State κ) : Prop := ∀ i : Fin κ.voices, PhaseLegal (s.voice i).phase

/-- No two active slots hold the same key (R29(c)). -/
def KeysUnique (s : State κ) : Prop :=
  ∀ i j : Fin κ.voices,
    (s.voice i).active = true → (s.voice j).active = true → (s.voice i).key = (s.voice j).key → i = j

/-- `fm.ratio >= RATIO_MIN` (R32), but for the reset ratio 1.0 of a block whose RATIO_MIN is above it, which R10 admits and
R48 overlooks (DEDUCED, log entry 4). -/
def RatioLegal (c : Config) (ratio : F32) : Prop :=
  le c.ratioMin ratio = true ∨ (le c.ratioMin one = false ∧ ratio = one)

/-- The FM parameters are in range; `fm.beta` is never `-0.0` (R32). -/
def FmParamsLegal (c : Config) (fm : Fm) : Prop :=
  FreqLegal c fm.mfreq ∧ RatioLegal c fm.ratio ∧ le zero fm.beta = true ∧ le fm.beta one = true
    ∧ fm.beta ≠ zero.neg

/-- A filter's stored parameters are within their clamps (R36). -/
def FilterParamsLegal (c : Config) (f : Filter) : Prop :=
  le c.cutoffMin f.cutoff = true ∧ le f.cutoff c.cutoffMax = true ∧ le c.qMin f.resonance = true

/-- A filter's coefficients are the design of its parameters (R36). -/
def FilterDesigned (c : Config) (f : Filter) : Prop := f.coeffs = design c f.ftype f.cutoff f.resonance

/-- Every stored parameter is within the range its clamp gives it (R29(b), R32, R36). -/
structure ParamsLegal (c : Config) (s : State κ) : Prop where
  voices : VoiceFreqsLegal c s
  fm : FmParamsLegal c s.fm
  filters : ∀ k : Fin κ.filters, k.val < s.fcount.val → FilterParamsLegal c (s.filter k)

/-- Every frequency is in range, and, where `TWO_PI * FREQ_MAX` does not overflow (log entry 3), so is every phase (R29, R32,
R123). -/
structure PhasesLegal (c : Config) (s : State κ) : Prop where
  freqs : VoiceFreqsLegal c s
  mfreq : FreqLegal c s.fm.mfreq
  phases : c.stepFinite = true → VoicePhasesLegal s
  mphase : c.stepFinite = true → PhaseLegal s.fm.mphase

/-- Every filter that exists has the coefficients its parameters design (R36, R217). -/
def FiltersDesigned (c : Config) (s : State κ) : Prop :=
  ∀ k : Fin κ.filters, k.val < s.fcount.val → FilterDesigned c (s.filter k)

/-- The decoder never holds a whole command: it is idle or waits for an operand word (R45). -/
def DecoderWaits (s : State) : Prop := wholeCommand s.decoder.words = false

/-- The refusal mark is set exactly when a refusal is recorded (R47, spec/60_exceptions.md R292). -/
def MarkRecorded (s : State) : Prop := s.refusalMark = !s.refusals.isEmpty

/-- What rendering may change and nothing else (R27, R28, R30, R34, R41): the phase of an active voice, the modulator's
phase, the recurrence state of a filter that exists, the ring and its cursor. -/
structure RenderFrame (s t : State κ) : Prop where
  voice : ∀ i : Fin κ.voices, t.voice i = { s.voice i with phase := (t.voice i).phase }
  frozen : ∀ i : Fin κ.voices, (s.voice i).active = false → t.voice i = s.voice i
  fm : t.fm = { s.fm with mphase := t.fm.mphase }
  filter : ∀ k : Fin κ.filters,
    t.filter k = { s.filter k with x1 := (t.filter k).x1, x2 := (t.filter k).x2, y1 := (t.filter k).y1, y2 := (t.filter k).y2 }
  absent : ∀ k : Fin κ.filters, s.fcount.val ≤ k.val → t.filter k = s.filter k
  fcount : t.fcount = s.fcount
  decoder : t.decoder = s.decoder
  responses : t.responses = s.responses
  refusalMark : t.refusalMark = s.refusalMark
  refusals : t.refusals = s.refusals
  port : t.port = s.port
  freeCount : t.freeCount = s.freeCount

/-- The run so far has left no command unexecuted for want of a meaning (R47).  A claim about a run is a claim about its
clean states. -/
def State.clean (s : State) : Bool := !s.refusalMark

/-- `k` steps of the block, for claims about runs. -/
def runSteps : Nat → State → Host.Outcome State Fault Refusal := Host.Core.run
  { State := State, Fault := Fault, Refusal := Refusal, step := step, reset := State.reset }

/-- A run of `k` steps is safe: it stops nowhere and its last state is clean, so that every state of it is. -/
def SafeRun (k : Nat) (s : State) : Prop := ∃ t, runSteps k s = .next t ∧ t.clean = true

end Sys2Proof.Machine
end

