-- ==== Sys2Proof/Certificates/Slice0/Obligations.lean ====
section
/-! DEFINITION. The statements for the provers.  Each says what a numbered rule of spec/ says of the encoding, of the port, of
one command, or of the whole machine. -/

open Sys2Proof Sys2Proof.Machine Sys2Proof.F32

/-! ### Encoding -/

/-- Decoding what the encoder makes gives the command back, whatever follows it (R80, R81, R88, R93). -/
def Obligations.DecodeOfEncodeGivesTheCommand : Prop :=
  ∀ (i : Instr) (rest : List Word), i.wellFormed = true → decode (encode i ++ rest) = .instr i rest

/-- Whatever decodes to a command is that command's encoding: each legal word sequence has one spelling (R88, R90). -/
def Obligations.EveryLegalCommandIsItsEncoding : Prop :=
  ∀ (words : List Word) (i : Instr) (rest : List Word),
    decode words = .instr i rest → i.wellFormed = true ∧ words = encode i ++ rest

/-- The opcode map (R88), row by row: a header that meets a row's mask and match has that row's length, and its command has
the fields of that row; and no two rows select the same word. -/
def Obligations.EveryOpcodeMapRowDecodes : Prop :=
  (∀ h v0 v1 : Word,
    (h &&& 0xFFFFFFFF = 0x00000000 → commandLength h = 1 ∧ decodeCommand h [] = some .nop) ∧
    (h &&& 0xFFFF0000 = 0x01000000 →
      commandLength h = 2 ∧ decodeCommand h [v0] = some (.noteon (h.extractLsb' 0 16) ⟨v0⟩)) ∧
    (h &&& 0xFFFF0000 = 0x02000000 →
      commandLength h = 1 ∧ decodeCommand h [] = some (.noteoff (h.extractLsb' 0 16))) ∧
    (h &&& 0xFFCF0000 = 0x03000000 →
      commandLength h = 1 ∧
        decodeCommand h [] = some (.setwv (h.extractLsb' 0 16).toNat (.ofCode (h.extractLsb' 20 2)))) ∧
    (h &&& 0xFFCFFFFF = 0x03010000 →
      commandLength h = 1 ∧ decodeCommand h [] = some (.setwva (.ofCode (h.extractLsb' 20 2)))) ∧
    (h &&& 0xFFCCFFFF = 0x04000000 →
      commandLength h = 3 ∧
        decodeCommand h [v0, v1] =
          some (.setfm (h.getLsbD 16) (.ofCode (h.extractLsb' 20 2))
            (if h.getLsbD 17 then .inharmonic else .harmonic) ⟨v0⟩ ⟨v1⟩)) ∧
    (h &&& 0xFFFFFFFF = 0x05000000 → commandLength h = 1 ∧ decodeCommand h [] = some .addflt) ∧
    (h &&& 0xFFFF0000 = 0x06000000 →
      commandLength h = 1 ∧ decodeCommand h [] = some (.rmflt (h.extractLsb' 0 16).toNat)) ∧
    (h &&& 0xFFCF0000 = 0x07000000 →
      commandLength h = 3 ∧
        decodeCommand h [v0, v1] =
          some (.setflt (h.extractLsb' 0 16).toNat (.ofCode (h.extractLsb' 20 2)) ⟨v0⟩ ⟨v1⟩)) ∧
    (h &&& 0xFFFF0000 = 0x08000000 →
      commandLength h = 1 ∧ decodeCommand h [] = some (.render (h.extractLsb' 0 16).toNat)) ∧
    (h &&& 0xFFFFFFFF = 0x09000000 → commandLength h = 1 ∧ decodeCommand h [] = some .rdvis))
  ∧ ∀ (h : Word) (r₁ r₂ : OpcodeRow), r₁ ∈ opcodeMap → r₂ ∈ opcodeMap → r₁.selects h = true → r₂.selects h = true → r₁ = r₂

/-- A header is illegal exactly when it selects no row (R90): then, and only then, the decoder rejects it by name; a reserved
opcode is one word long, and a header with a defined opcode keeps the length of its row. -/
def Obligations.HeadersOutsideTheMapAreIllegal : Prop :=
  (∀ (h : Word) (operands rest : List Word), operands.length + 1 = commandLength h →
    (decode (h :: (operands ++ rest)) = .illegal h rest ↔ legalHeader h = false)) ∧
  (∀ h : Word, 10 ≤ (opField h).toNat → legalHeader h = false ∧ commandLength h = 1) ∧
  ∀ (h : Word) (r : OpcodeRow), r ∈ opcodeMap → opField h = opField r.pattern → commandLength h = r.length

/-- The length rule (R81): 2 words for NOTEON, 3 for SETFM and SETFLT, 1 for every other opcode; it depends on `OP` alone; the
decoder answers nothing before that many words have arrived, and takes exactly that many. -/
def Obligations.LengthDependsOnTheOpcodeAlone : Prop :=
  (∀ h : Word, commandLength h =
    if (opField h).toNat = 1 then 2 else if (opField h).toNat = 4 ∨ (opField h).toNat = 7 then 3 else 1) ∧
  (∀ h h' : Word, opField h = opField h' → commandLength h = commandLength h') ∧
  (∀ (h : Word) (ws : List Word), ws.length + 1 < commandLength h → decode (h :: ws) = .incomplete) ∧
  ∀ (h : Word) (operands rest : List Word), operands.length + 1 = commandLength h →
    decode (h :: (operands ++ rest)) = .illegal h rest ∨ ∃ i, decode (h :: (operands ++ rest)) = .instr i rest

/-- The worked encodings (R99): the words stand for the commands they are listed for, both ways, and the illegal ones are
rejected. -/
def Obligations.WorkedEncodingsHold : Prop :=
  encode (.noteon 4 ⟨0x43DC0000⟩) = [0x01000004, 0x43DC0000] ∧
  encode (.noteoff 4) = [0x02000004] ∧
  encode (.setwv 2 .saw) = [0x03300002] ∧
  encode (.setwva .triangle) = [0x03210000] ∧
  encode (.setfm true .sine .harmonic ⟨0x40000000⟩ ⟨0x3F000000⟩) = [0x04010000, 0x40000000, 0x3F000000] ∧
  encode (.setfm false .square .inharmonic ⟨0x42C80000⟩ ⟨0x3F800000⟩) = [0x04120000, 0x42C80000, 0x3F800000] ∧
  encode .addflt = [0x05000000] ∧
  encode (.rmflt 1) = [0x06000001] ∧
  encode (.setflt 0 .bandPass ⟨0x447A0000⟩ ⟨0x40000000⟩) = [0x07200000, 0x447A0000, 0x40000000] ∧
  encode (.render 64) = [0x08000040] ∧
  encode .rdvis = [0x09000000] ∧
  decode [0x01000004, 0x43DC0000] = .instr (.noteon 4 ⟨0x43DC0000⟩) [] ∧
  decode [0x02000004] = .instr (.noteoff 4) [] ∧
  decode [0x03300002] = .instr (.setwv 2 .saw) [] ∧
  decode [0x03210000] = .instr (.setwva .triangle) [] ∧
  decode [0x04010000, 0x40000000, 0x3F000000] = .instr (.setfm true .sine .harmonic ⟨0x40000000⟩ ⟨0x3F000000⟩) [] ∧
  decode [0x04120000, 0x42C80000, 0x3F800000] = .instr (.setfm false .square .inharmonic ⟨0x42C80000⟩ ⟨0x3F800000⟩) [] ∧
  decode [0x05000000] = .instr .addflt [] ∧
  decode [0x06000001] = .instr (.rmflt 1) [] ∧
  decode [0x07200000, 0x447A0000, 0x40000000] = .instr (.setflt 0 .bandPass ⟨0x447A0000⟩ ⟨0x40000000⟩) [] ∧
  decode [0x08000040] = .instr (.render 64) [] ∧
  decode [0x09000000] = .instr .rdvis [] ∧
  decode [0x0A000000] = .illegal 0x0A000000 [] ∧
  decode [0x02010004] = .illegal 0x02010004 [] ∧
  decode [0x03C00000] = .illegal 0x03C00000 [] ∧
  decode [0x03010001] = .illegal 0x03010001 []

/-- A byte transport sends each word least significant byte first, what arrives is the same words in the same order, and reset
loses the bytes of a partial word (R62, R63). -/
def Obligations.ByteTransportIsLittleEndian : Prop :=
  (∀ (w : Word) (k : Fin 4), ((wordToBytes w).getD k.val 0).toNat = w.toNat / 256 ^ k.val % 256) ∧
  (∀ ws : List Word, bytesToWords (ws.flatMap wordToBytes) = ws) ∧
  (∀ (ws : List Word) (rest : List ByteEvent),
    assembleBytes [] ((ws.flatMap wordToBytes).map ByteEvent.byte ++ rest) =
      ws.map PortEvent.word ++ assembleBytes [] rest) ∧
  ∀ (bytes : List Byte) (rest : List ByteEvent), bytes.length < 4 →
    assembleBytes [] (bytes.map ByteEvent.byte ++ .reset :: rest) = .reset :: assembleBytes [] rest

/-! ### Port, step and reset -/

/-- When the words held and the words arriving spell a well-formed command, the step is that command's meaning, on an idle
decoder and with exactly those words consumed (R17, R45, R93). -/
def Obligations.StepRunsTheDecodedCommand : Prop :=
  ∀ (s : State) (i : Instr) (ws : List Word) (rest : List PortEvent), i.wellFormed = true → ws ≠ [] →
    s.decoder.words ++ ws = encode i → s.port = ws.map PortEvent.word ++ rest →
    step s = exec i { s with decoder := .idle, port := rest }

/-- Words that do not make up a whole command are held by the decoder, and nothing else of the state changes (R45, R64); with
nothing arriving the block is idle and keeps all its state (R303). -/
def Obligations.PartialCommandChangesNothing : Prop :=
  ∀ (s : State) (ws : List Word), wholeCommand (s.decoder.words ++ ws) = false → s.port = ws.map PortEvent.word →
    step s = .next { s with decoder := Decoder.ofWords (s.decoder.words ++ ws), port := [] }

/-- An illegal command is discarded with the operand words its length counts, however many of them the decoder held already;
nothing is executed and nothing is emitted; the refusal mark is set and the header is recorded (R95, R292).  That the step goes on
and where the header is recorded are the model's choices (log entries 1, 18). -/
def Obligations.IllegalCommandIsDiscarded : Prop :=
  ∀ (s : State) (h : Word) (operands ws : List Word) (rest : List PortEvent), legalHeader h = false →
    operands.length + 1 = commandLength h → ws ≠ [] → s.decoder.words ++ ws = h :: operands →
    s.port = ws.map PortEvent.word ++ rest →
    step s = .next { s with
      decoder := .idle, port := rest, refusalMark := true, refusals := s.refusals ++ [.illegalEncoding h] }

/-- Reset, from any state and with any partial command, leaves the power-on state; response words emitted before stay, and so
do the refusal mark and what has not arrived yet (R320, R321, R323).  The same where reset falls on a word that completes no
command.  The port list, the counter, the kept response sequence and the record of refusals that a reset keeps are the
model's (log entries 6, 7, 8, 18). -/
def Obligations.ResetLeavesThePowerOnState : Prop :=
  (∀ (s : State) (ws : List Word) (rest : List PortEvent), wholeCommand (s.decoder.words ++ ws) = false →
    s.port = ws.map PortEvent.word ++ .reset :: rest →
    step s = .next { State.reset with
      responses := s.responses, refusalMark := s.refusalMark, refusals := s.refusals, port := rest,
      freeCount := s.freeCount }) ∧
  ∀ (s : State) (ws : List Word) (last : Word) (rest : List PortEvent),
    wholeCommand (s.decoder.words ++ ws ++ [last]) = false →
    s.port = ws.map PortEvent.word ++ .interrupted last :: rest →
    step s = .next { State.reset with
      responses := s.responses, refusalMark := s.refusalMark, refusals := s.refusals, port := rest,
      freeCount := s.freeCount }

/-- Reset during a command leaves the power-on state and a prefix, of whatever length, of the words the command would have
emitted (R294); an illegal one emits nothing, and the mark stays set (R95, R323).  The form of the event, the counter, and the
refusal of an interrupted illegal command are the model's choices (log entry 6), and so is that the record of refusals stays
over the reset (log entry 18). -/
def Obligations.ResetDuringACommandLeavesAPrefix : Prop :=
  (∀ (s : State) (i : Instr) (ws : List Word) (last : Word) (rest : List PortEvent), i.wellFormed = true →
    s.decoder.words ++ ws ++ [last] = encode i → s.port = ws.map PortEvent.word ++ .interrupted last :: rest →
    ∃ (t : State) (out : List Word) (k : Nat),
      exec i { s with decoder := .idle, port := rest } = .next t ∧ t.responses = s.responses ++ out ∧ k ≤ out.length ∧
      step s = .next { State.reset with
        responses := s.responses ++ out.take k, refusalMark := s.refusalMark, refusals := s.refusals, port := rest,
        freeCount := s.freeCount + 1 }) ∧
  ∀ (s : State) (h : Word) (operands ws : List Word) (last : Word) (rest : List PortEvent), legalHeader h = false →
    operands.length + 1 = commandLength h → s.decoder.words ++ ws ++ [last] = h :: operands →
    s.port = ws.map PortEvent.word ++ .interrupted last :: rest →
    step s = .next { State.reset with
      responses := s.responses, refusalMark := true, refusals := s.refusals ++ [.illegalEncoding h], port := rest,
      freeCount := s.freeCount }

/-- No command and no step stops: the block raises no exception (R290).  That the step also goes on, with the mark set, after
an illegal header, which R292 calls no state change, is the model's choice (log entry 1). -/
def Obligations.NothingEverStops : Prop :=
  (∀ (i : Instr) (s : State), ∃ t, exec i s = .next t) ∧ ∀ s : State, ∃ t, step s = .next t

/-- The refusal mark (R47): `refuse` sets it, no step clears it, reset does not clear it, it is clear at power-on, and no
command reads it. -/
def Obligations.RefusalMarkIsStickyAndUnread : Prop :=
  State.reset.refusalMark = false ∧
  (∀ (s : State) (r : Refusal), (s.refuse r).refusalMark = true) ∧
  (∀ s t : State, step s = .next t → s.refusalMark = true → t.refusalMark = true) ∧
  (∀ s : State, s.takeReset.refusalMark = s.refusalMark) ∧
  ∀ (i : Instr) (s t : State) (b : Bool), exec i s = .next t →
    exec i { s with refusalMark := b } = .next { t with refusalMark := b }

/-- The response sequence only grows: no step, reset included, takes back a word (R46, R321). -/
def Obligations.ResponsesOnlyGrow : Prop :=
  ∀ s t : State, step s = .next t → s.responses <+: t.responses

/-- RENDER emits exactly `N` words, RDVIS exactly 1024, and no other command emits (R94). -/
def Obligations.OnlyRenderAndRdvisEmit : Prop :=
  ∀ (i : Instr) (s : State), ∃ t ws, exec i s = .next t ∧ t.responses = s.responses ++ ws ∧
    ws.length = match i with
      | .render n => n
      | .rdvis => 1024
      | _ => 0

/-- No command touches the ports or the model's marks: only the step moves them (R45, R47, R64). -/
def Obligations.CommandsLeaveThePortAlone : Prop :=
  ∀ (i : Instr) (s t : State), exec i s = .next t →
    t.decoder = s.decoder ∧ t.port = s.port ∧ t.refusalMark = s.refusalMark ∧ t.refusals = s.refusals ∧
      t.freeCount = s.freeCount

/-- The phases of the voices, the modulator's phase, the ring and its cursor move in RENDER only (R27, R30, R37, R41). -/
def Obligations.OnlyRenderMovesPhasesAndRing : Prop :=
  ∀ (i : Instr) (s t : State), (∀ n, i ≠ .render n) → exec i s = .next t →
    (∀ v, (t.voice v).phase = (s.voice v).phase) ∧ t.fm.mphase = s.fm.mphase ∧ t.vis = s.vis ∧ t.vcur = s.vcur

/-- The state right after power-on, field by field (R48). -/
def Obligations.PowerOnStateIsTheResetTable : Prop :=
  (∀ v, State.reset.voice v =
    { active := false, key := 0x0000, frequency := clamp ⟨0x43DC0000⟩ Config.hw.freqMin Config.hw.freqMax,
      phase := ⟨0x00000000⟩, waveform := .sine }) ∧
  State.reset.fm =
    { enabled := false, wave := .sine, mode := .harmonic, ratio := ⟨0x3F800000⟩,
      mfreq := clamp ⟨0x43DC0000⟩ Config.hw.freqMin Config.hw.freqMax, mphase := ⟨0x00000000⟩, beta := ⟨0x00000000⟩ } ∧
  State.reset.fcount = 0 ∧ (∀ j, State.reset.vis.get j = ⟨0x00000000⟩) ∧ State.reset.vcur = 0 ∧
  State.reset.decoder = .idle ∧ State.reset.responses = []

/-! ### The commands -/

/-- NOP (R96): it reads and writes nothing and emits nothing; it is the all-zero word, of length 1, and every other word with
its opcode is illegal. -/
def Obligations.NopChangesNothing : Prop :=
  (∀ s : State, exec .nop s = .next s) ∧
  (∀ rest : List Word, decode (0x00000000 :: rest) = .instr .nop rest) ∧
  ∀ (h : Word) (rest : List Word), opField h = 0x00 → h ≠ 0x00000000 → decode (h :: rest) = .illegal h rest

/-- SETWV writes one slot's waveform, and nothing where the slot does not exist; everything else stays (R127). -/
def Obligations.SetwvWritesOneSlotsWaveform : Prop :=
  ∀ (slot : Nat) (w : Waveform) (s : State), ∃ t, exec (.setwv slot w) s = .next t ∧
    (∀ v, t.voice v = if v.val = slot then { s.voice v with waveform := w } else s.voice v) ∧
    { t with voices := s.voices } = s

/-- SETWVA writes every slot's waveform, active or not; everything else stays, `fm.wave` included (R128). -/
def Obligations.SetwvaWritesEverySlotsWaveform : Prop :=
  ∀ (w : Waveform) (s : State), ∃ t, exec (.setwva w) s = .next t ∧
    (∀ v, t.voice v = { s.voice v with waveform := w }) ∧ { t with voices := s.voices } = s

/-- NOTEON of a key that an active slot holds writes that slot's frequency only (R155). -/
def Obligations.NoteonOfAnActiveKeyRetunes : Prop :=
  ∀ (key : Key) (v0 : F32) (s : State) (i : Fin Shape.hw.voices),
    (s.voice i).active = true → (s.voice i).key = key →
    (∀ j < i, ¬ ((s.voice j).active = true ∧ (s.voice j).key = key)) →
    ∃ t, exec (.noteon key v0) s = .next t ∧
      (∀ v, t.voice v = if v = i then
        { s.voice v with frequency := clamp v0 Config.hw.freqMin Config.hw.freqMax } else s.voice v) ∧
      { t with voices := s.voices } = s

/-- NOTEON of a new key takes the least inactive slot, which keeps its phase and its waveform; everything else stays but for
the Harmonic recompute of `fm.mfreq` (R152, R154). -/
def Obligations.NoteonAllocatesTheLeastInactiveSlot : Prop :=
  ∀ (key : Key) (v0 : F32) (s : State) (i : Fin Shape.hw.voices),
    (∀ j, ¬ ((s.voice j).active = true ∧ (s.voice j).key = key)) →
    (s.voice i).active = false → (∀ j < i, (s.voice j).active = true) →
    ∃ t, exec (.noteon key v0) s = .next t ∧
      (∀ v, t.voice v = if v = i then
        { s.voice v with
          active := true, key := key, frequency := clamp v0 Config.hw.freqMin Config.hw.freqMax } else s.voice v) ∧
      t.fm = (match s.fm.mode with
        | .harmonic => { s.fm with
            mfreq := clamp (mul (clamp v0 Config.hw.freqMin Config.hw.freqMax) s.fm.ratio)
              Config.hw.freqMin Config.hw.freqMax }
        | .inharmonic => s.fm) ∧
      { t with voices := s.voices, fm := s.fm } = s

/-- NOTEON of a new key with every slot active reuses slot 0, whose phase and waveform stay; every other slot is unchanged
(R153, R154). -/
def Obligations.NoteonStealsSlotZeroWhenFull : Prop :=
  ∀ (key : Key) (v0 : F32) (s : State),
    (∀ j, (s.voice j).active = true) → (∀ j, (s.voice j).key ≠ key) →
    ∃ t, exec (.noteon key v0) s = .next t ∧
      t.voice 0 = { s.voice 0 with key := key, frequency := clamp v0 Config.hw.freqMin Config.hw.freqMax } ∧
      (∀ v, v ≠ 0 → t.voice v = s.voice v) ∧
      t.fm = (match s.fm.mode with
        | .harmonic => { s.fm with
            mfreq := clamp (mul (clamp v0 Config.hw.freqMin Config.hw.freqMax) s.fm.ratio)
              Config.hw.freqMin Config.hw.freqMax }
        | .inharmonic => s.fm) ∧
      { t with voices := s.voices, fm := s.fm } = s

/-- The Harmonic recompute (R154): NOTEON writes `fm.mfreq` exactly when the voice is newly triggered and the mode is
Harmonic, whatever `fm.enabled` holds, and never another field of `fm`. -/
def Obligations.HarmonicRecomputeOnNewVoicesOnly : Prop :=
  ∀ (key : Key) (v0 : F32) (s : State), ∃ t, exec (.noteon key v0) s = .next t ∧
    ((∃ j, (s.voice j).active = true ∧ (s.voice j).key = key) → t.fm = s.fm) ∧
    (s.fm.mode = .inharmonic → t.fm = s.fm) ∧
    ((∀ j, ¬ ((s.voice j).active = true ∧ (s.voice j).key = key)) → s.fm.mode = .harmonic →
      t.fm = { s.fm with
        mfreq := clamp (mul (clamp v0 Config.hw.freqMin Config.hw.freqMax) s.fm.ratio)
          Config.hw.freqMin Config.hw.freqMax })

/-- NOTEOFF clears `active` of the least active slot that holds the key, and does nothing where there is none; everything else
stays (R157). -/
def Obligations.NoteoffReleasesTheHoldingSlot : Prop :=
  ∀ (key : Key) (s : State), ∃ t, exec (.noteoff key) s = .next t ∧
    (∀ v, ((s.voice v).active = true ∧ (s.voice v).key = key ∧
        ∀ j < v, ¬ ((s.voice j).active = true ∧ (s.voice j).key = key)) →
      t.voice v = { s.voice v with active := false }) ∧
    (∀ v, ¬ ((s.voice v).active = true ∧ (s.voice v).key = key ∧
        ∀ j < v, ¬ ((s.voice j).active = true ∧ (s.voice j).key = key)) →
      t.voice v = s.voice v) ∧
    { t with voices := s.voices } = s

/-- SETFM writes `enabled`, `wave`, `mode` and `beta`, the ratio in Harmonic mode only and the modulator frequency in
Inharmonic mode only; it writes neither the modulator's phase nor any voice (R181). -/
def Obligations.SetfmConfiguresTheOperator : Prop :=
  ∀ (en : Bool) (w : Waveform) (m : FmMode) (v0 v1 : F32) (s : State), ∃ t, exec (.setfm en w m v0 v1) s = .next t ∧
    t.fm = { enabled := en, wave := w, mode := m,
             ratio := if m = .harmonic then clampMin v0 Config.hw.ratioMin else s.fm.ratio,
             mfreq := if m = .inharmonic then clamp v0 Config.hw.freqMin Config.hw.freqMax else s.fm.mfreq,
             mphase := s.fm.mphase, beta := clamp v1 ⟨0x00000000⟩ ⟨0x3F800000⟩ } ∧
    { t with fm := s.fm } = s

/-- What an operand outside a parameter's range becomes (R15, R160, R182, R183, R214, R215): NaN and anything at or below the
lower bound becomes the lower bound, anything at or above the upper bound becomes the upper bound, and a value between them
stays; where there is no upper bound, infinity stays. -/
def Obligations.OperandsOutsideTheirRangeBecomeTheBound : Prop :=
  (∀ v : F32, v.isNaN = true ∨ le v Config.hw.freqMin = true → clampFreq Config.hw v = Config.hw.freqMin) ∧
  (∀ v : F32, v.isNaN = true ∨ v.sign = true ∨ v.isZero = true → clampFreq Config.hw v = Config.hw.freqMin) ∧
  (∀ v : F32, le Config.hw.freqMax v = true → clampFreq Config.hw v = Config.hw.freqMax) ∧
  (∀ v : F32, v.isNaN = true ∨ le v Config.hw.ratioMin = true → clampRatio Config.hw v = Config.hw.ratioMin) ∧
  (∀ v : F32, v.isNaN = true ∨ v.sign = true ∨ v.isZero = true → clampRatio Config.hw v = Config.hw.ratioMin) ∧
  (∀ v : F32, v.isNaN = true ∨ v.sign = true ∨ v.isZero = true → clampBeta Config.hw v = ⟨0x00000000⟩) ∧
  (∀ v : F32, le ⟨0x3F800000⟩ v = true → clampBeta Config.hw v = ⟨0x3F800000⟩) ∧
  (∀ v : F32, v.isNaN = true ∨ le v ⟨0x41A00000⟩ = true → clampCutoff Config.hw v = ⟨0x41A00000⟩) ∧
  (∀ v : F32, le Config.hw.cutoffMax v = true → clampCutoff Config.hw v = Config.hw.cutoffMax) ∧
  (∀ v : F32, v.isNaN = true ∨ le v ⟨0x3D4CCCCD⟩ = true → clampResonance Config.hw v = ⟨0x3D4CCCCD⟩) ∧
  clampResonance Config.hw ⟨0x7F800000⟩ = ⟨0x7F800000⟩ ∧ clampRatio Config.hw ⟨0x7F800000⟩ = ⟨0x7F800000⟩ ∧
  (∀ x lo hi : F32, lt lo x = true → lt x hi = true → clamp x lo hi = x) ∧
  ∀ x lo : F32, lt lo x = true → clampMin x lo = x

/-- ADDFLT appends a filter with the default parameters, clamped, their design and zero recurrence state, and does nothing to a
full chain; everything else stays (R221). -/
def Obligations.AddfltAppendsADefaultFilter : Prop :=
  ∀ s : State, ∃ t, exec .addflt s = .next t ∧
    (s.fcount.val = Shape.hw.filters → t = s) ∧
    (s.fcount.val < Shape.hw.filters →
      t.fcount.val = s.fcount.val + 1 ∧
      (∀ k, k.val = s.fcount.val → t.filter k =
        { ftype := .lowPass,
          cutoff := clamp Config.hw.filterDefaultCutoff ⟨0x41A00000⟩ Config.hw.cutoffMax,
          resonance := clampMin Config.hw.filterDefaultResonance ⟨0x3D4CCCCD⟩,
          coeffs := design Config.hw .lowPass (clamp Config.hw.filterDefaultCutoff ⟨0x41A00000⟩ Config.hw.cutoffMax)
            (clampMin Config.hw.filterDefaultResonance ⟨0x3D4CCCCD⟩),
          x1 := ⟨0x00000000⟩, x2 := ⟨0x00000000⟩, y1 := ⟨0x00000000⟩, y2 := ⟨0x00000000⟩ }) ∧
      (∀ k, k.val ≠ s.fcount.val → t.filter k = s.filter k) ∧
      { t with filt := s.filt, fcount := s.fcount } = s)

/-- RMFLT moves every later filter down by one place, each record whole, and does nothing where the index names no filter;
everything else stays (R222). -/
def Obligations.RmfltShiftsTheLaterFiltersDown : Prop :=
  ∀ (index : Nat) (s : State), ∃ t, exec (.rmflt index) s = .next t ∧
    (s.fcount.val ≤ index → t = s) ∧
    (index < s.fcount.val →
      t.fcount.val + 1 = s.fcount.val ∧
      (∀ k, k.val < index → t.filter k = s.filter k) ∧
      (∀ k m, index ≤ k.val → k.val < t.fcount.val → m.val = k.val + 1 → t.filter k = s.filter m) ∧
      { t with filt := s.filt, fcount := s.fcount } = s)

/-- SETFLT clamps and stores one filter's parameters and their design, keeps its recurrence state, and does nothing where the
index names no filter; everything else stays (R213, R223). -/
def Obligations.SetfltSetsOneFiltersParameters : Prop :=
  ∀ (index : Nat) (ty : FilterType) (v0 v1 : F32) (s : State), ∃ t, exec (.setflt index ty v0 v1) s = .next t ∧
    (∀ k, k.val = index → k.val < s.fcount.val → t.filter k =
      { s.filter k with
        ftype := ty, cutoff := clamp v0 ⟨0x41A00000⟩ Config.hw.cutoffMax, resonance := clampMin v1 ⟨0x3D4CCCCD⟩,
        coeffs := design Config.hw ty (clamp v0 ⟨0x41A00000⟩ Config.hw.cutoffMax) (clampMin v1 ⟨0x3D4CCCCD⟩) }) ∧
    (∀ k, ¬ (k.val = index ∧ k.val < s.fcount.val) → t.filter k = s.filter k) ∧
    { t with filt := s.filt } = s

/-- RENDER 0 runs no sample step, emits nothing and changes nothing (R261). -/
def Obligations.RenderZeroChangesNothing : Prop := ∀ s : State, exec (.render 0) s = .next s

/-- RENDER runs `n` sample steps, and word `i` is the pattern of the result of the `i`-th of them (R260, R265). -/
def Obligations.RenderEmitsTheSampleSteps : Prop :=
  ∀ (n : Nat) (s : State),
    let after := fun k => (fun u => (sampleStep Config.hw u).1)^[k] s
    exec (.render n) s = .next { after n with
      responses := s.responses ++ (List.range n).map fun i => (sampleStep Config.hw (after i)).2.bits }

/-- What RENDER leaves (R27, R28, R30, R34, R69): every field but the phases of active voices, the modulator's phase, the
recurrence state of the filters that exist, the ring, its cursor and the response sequence. -/
def Obligations.RenderKeepsEveryParameter : Prop :=
  ∀ (n : Nat) (s : State), ∃ t, exec (.render n) s = .next t ∧ RenderFrame s { t with responses := s.responses }

/-- `RENDER m` and then `RENDER n` give the state and the words of `RENDER m+n` (R328). -/
def Obligations.RenderSplitsAtAnySample : Prop :=
  ∀ (m n : Nat) (s : State), ∃ u t,
    exec (.render m) s = .next u ∧ exec (.render n) u = .next t ∧ exec (.render (m + n)) s = .next t

/-- After RENDER the visualisation window is the last 1024 samples ever rendered, the old window's first, oldest first (R38,
R266, R270). -/
def Obligations.WindowHoldsTheLastSamples : Prop :=
  ∀ (n : Nat) (s t : State), exec (.render n) s = .next t →
    (visWindow t).map F32.bits = ((visWindow s).map F32.bits ++ t.responses.drop s.responses.length).drop n

/-- RDVIS emits the ring from the cursor on, 1024 words, oldest first, and writes no state (R270). -/
def Obligations.RdvisEmitsTheWindowOldestFirst : Prop :=
  ∀ s : State, exec .rdvis s = .next { s with
    responses := s.responses ++
      (List.range 1024).map fun j => (s.vis.cells.getD ((s.vcur.val + j) % 1024) ⟨0⟩).bits }

/-- With no active voice and no filter, RENDER emits `n` words of +0.0 and the ring still advances (R264, R267, R325). -/
def Obligations.SilentRenderEmitsZeros : Prop :=
  ∀ (n : Nat) (s : State), (∀ v, (s.voice v).active = false) → s.fcount = 0 →
    ∃ t, exec (.render n) s = .next t ∧ t.responses = s.responses ++ List.replicate n 0x00000000 ∧
      t.vcur.val = (s.vcur.val + n) % 1024 ∧ t.voices = s.voices ∧ t.fm = s.fm

/-- Setting the same parameters twice is setting them once (R65): the second issue of the same command changes nothing. -/
def Obligations.ParameterCommandsAreIdempotent : Prop :=
  ∀ (s t : State) (key : Key) (slot index : Nat) (w : Waveform) (ty : FilterType) (en : Bool) (m : FmMode) (v0 v1 : F32)
    (i : Instr),
    i = .nop ∨ i = .noteon key v0 ∨ i = .noteoff key ∨ i = .setwv slot w ∨ i = .setwva w ∨ i = .setfm en w m v0 v1
      ∨ i = .setflt index ty v0 v1 →
    KeysUnique s → exec i s = .next t → exec i t = .next t

/-! ### The units -/

/-- The formulas of the units, operation by operation: the oscillator step, the waveforms, the filter's coefficients for each
type, its recurrence, and both mix normalisations (R122, R124, R216, R230, R264). -/
def Obligations.UnitsFollowTheirFormulas : Prop :=
  ∀ (c : Config) (p f cutoff q : F32) (k : Filter) (x mix g : F32) (n : Nat),
    let inc := div (mul ⟨0x40C90FDB⟩ f) c.sr
    let w0 := div (mul ⟨0x40C90FDB⟩ cutoff) c.sr
    let cw := c.cos w0
    let al := div (c.sin w0) (mul ⟨0x40000000⟩ q)
    let a0 := add ⟨0x3F800000⟩ al
    let a1 := div (mul ⟨0x40000000⟩ cw).neg a0
    let a2 := div (sub ⟨0x3F800000⟩ al) a0
    let low := sub ⟨0x3F800000⟩ cw
    let high := add ⟨0x3F800000⟩ cw
    advance c p f = (if ge (add p inc) ⟨0x40C90FDB⟩ then sub (add p inc) ⟨0x40C90FDB⟩ else add p inc) ∧
    wave c .sine p = c.sin p ∧
    wave c .square p = (if ge (c.sin p) ⟨0x00000000⟩ then ⟨0x3F800000⟩ else ⟨0xBF800000⟩) ∧
    wave c .triangle p = mul ⟨0x3F22F983⟩ (c.asin (c.sin p)) ∧
    wave c .saw p = sub (mul ⟨0x40000000⟩ (div p ⟨0x40C90FDB⟩)) ⟨0x3F800000⟩ ∧
    design c .lowPass cutoff q =
      ⟨div (div low ⟨0x40000000⟩) a0, div low a0, div (div low ⟨0x40000000⟩) a0, a1, a2⟩ ∧
    design c .highPass cutoff q =
      ⟨div (div high ⟨0x40000000⟩) a0, div high.neg a0, div (div high ⟨0x40000000⟩) a0, a1, a2⟩ ∧
    design c .bandPass cutoff q = ⟨div al a0, div ⟨0x00000000⟩ a0, div al.neg a0, a1, a2⟩ ∧
    design c .notch cutoff q = ⟨div ⟨0x3F800000⟩ a0, div (mul ⟨0x40000000⟩ cw).neg a0, div ⟨0x3F800000⟩ a0, a1, a2⟩ ∧
    k.output x =
      sub (sub (add (add (mul k.coeffs.b0 x) (mul k.coeffs.b1 k.x1)) (mul k.coeffs.b2 k.x2)) (mul k.coeffs.a1 k.y1))
        (mul k.coeffs.a2 k.y2) ∧
    k.shifted x = { k with x2 := k.x1, x1 := x, y2 := k.y1, y1 := k.output x } ∧
    normalise .divideByCount mix n = (if n = 0 then mix else div mix (ofNat n)) ∧
    normalise (.fixedGain g) mix n = mul mix g

/-- One plain voice, no filter and DivideByCount: the sample is the voice's waveform at its new phase, normalisation leaving it alone, with
only a negative zero becoming positive (R126, R262, R264, R268). -/
def Obligations.SingleVoiceSampleIsItsWaveform : Prop :=
  ∀ (κ : Shape) (c : Config) (s : State κ) (i : Fin κ.voices), c.normPolicy = .divideByCount → s.fm.enabled = false →
    s.fcount.val = 0 →
    (∀ v, (s.voice v).active = decide (v = i)) →
    (wave c (s.voice i).waveform (advance c (s.voice i).phase (s.voice i).frequency)).isFinite = true →
    (sampleStep c s).2 =
      (let y := wave c (s.voice i).waveform (advance c (s.voice i).phase (s.voice i).frequency)
       if y = ⟨0x80000000⟩ then ⟨0x00000000⟩ else y)

/-- The sample of the active voice with `r` active voices before it (R126, R186, R187): the modulator has then advanced
`r + 1` times. -/
def voiceSample {κ : Shape} (c : Config) (s : State κ) (r : Nat) (v : Fin κ.voices) : F32 :=
  let p := advance c (s.voice v).phase (s.voice v).frequency
  if s.fm.enabled then
    wave c (s.voice v).waveform
      (add p (mul s.fm.beta (wave c s.fm.wave ((fun q => advance c q s.fm.mfreq)^[r + 1] s.fm.mphase))))
  else wave c (s.voice v).waveform p

/-- The mix accumulates the active voices in slot order from `+0.0`; each active voice's phase advances exactly once, an
inactive one's not at all, and the modulator advances once per active voice when it is engaged (R158, R187, R262, R263). -/
def Obligations.MixSumsActiveVoicesInSlotOrder : Prop :=
  ∀ (κ : Shape) (c : Config) (s : State κ),
    (∀ v, v ∈ s.activeVoices ↔ (s.voice v).active = true) ∧ s.activeVoices.Pairwise (· < ·) ∧
    (mixVoices c s).2 = (s.activeVoices.mapIdx (voiceSample c s)).foldl add ⟨0x00000000⟩ ∧
    (∀ v, ((mixVoices c s).1.voice v).phase =
      if (s.voice v).active then advance c (s.voice v).phase (s.voice v).frequency else (s.voice v).phase) ∧
    (mixVoices c s).1.fm.mphase =
      if s.fm.enabled then (fun q => advance c q s.fm.mfreq)^[s.activeVoices.length] s.fm.mphase else s.fm.mphase

/-- The input of filter `k` for chain input `x`: the output of the filter before it (R232). -/
def chainInput {κ : Shape} (s : State κ) (x : F32) : Nat → F32
  | 0 => x
  | k + 1 => if h : k < κ.filters then (s.filter ⟨k, h⟩).output (chainInput s x k) else chainInput s x k

/-- The chain runs every filter that exists once, in index order, each on the output of the one before it; with no filter the
sample passes unchanged (R230, R232). -/
def Obligations.ChainThreadsFiltersInOrder : Prop :=
  ∀ (κ : Shape) (x : F32) (s : State κ),
    (chain x s).2 = chainInput s x s.fcount.val ∧
    (∀ k, k.val < s.fcount.val → (chain x s).1.filter k =
      { s.filter k with
        x1 := chainInput s x k.val, x2 := (s.filter k).x1, y1 := chainInput s x (k.val + 1), y2 := (s.filter k).y1 }) ∧
    (∀ k, s.fcount.val ≤ k.val → (chain x s).1.filter k = s.filter k) ∧
    { (chain x s).1 with filt := s.filt } = s

/-- With index `+0.0` a modulated voice sounds as a plain one, though the modulator still advances (R189). -/
def Obligations.ZeroIndexModulationIsPlain : Prop :=
  ∀ (κ : Shape) (c : Config) (s : State κ) (v : Fin κ.voices), s.fm.beta = ⟨0x00000000⟩ →
    PhaseLegal (advance c (s.voice v).phase (s.voice v).frequency) → ((s.fm.advanced c).value c).isFinite = true →
    (renderModulated c v s).2 = (renderVoice c v s).2 ∧
    (renderModulated c v s).1.fm.mphase = advance c s.fm.mphase s.fm.mfreq

/-- The oscillator step keeps the phase invariant (R123), for a sample rate at which `TWO_PI * FREQ_MAX` does not overflow: that
premise is the model's (DEDUCED, log entry 3). -/
def Obligations.AdvanceKeepsThePhaseRange : Prop :=
  ∀ (c : Config) (p f : F32), c.valid = true → c.stepFinite = true → PhaseInRange p → FreqLegal c f →
    PhaseLegal (advance c p f)

/-- Every waveform stays in `[-1.0, 1.0]` on a phase in range, and all but Saw on every finite phase, under the named properties
of SIN and ASIN (R125, R188). -/
def Obligations.WaveformsStayInUnitRange : Prop :=
  ∀ (c : Config) (w : Waveform) (p : F32), c.TrigLaws → (PhaseInRange p ∨ (p.isFinite = true ∧ w ≠ .saw)) →
    le negOne (wave c w p) = true ∧ le (wave c w p) one = true

/-- For any stored parameters the leading coefficient is finite and at least 1.0, so that normalised it is exactly 1.0 (R218);
for this hardware's `Q_MIN` and cutoff bounds, and a sample rate at which `TWO_PI * FREQ_MAX` does not overflow (DEDUCED, log
entry 3). -/
def Obligations.LeadingCoefficientIsAtLeastOne : Prop :=
  ∀ (c : Config) (cutoff q : F32), c = c.withHardwareValues → c.valid = true → c.stepFinite = true → c.TrigLaws →
    le one (designA0 c (clampCutoff c cutoff) (clampResonance c q)) = true ∧
    (designA0 c (clampCutoff c cutoff) (clampResonance c q)).isFinite = true ∧
    div (designA0 c (clampCutoff c cutoff) (clampResonance c q)) (designA0 c (clampCutoff c cutoff) (clampResonance c q)) = one

/-- Coefficients that are equal bit for bit (R233): `b0 = b2` of LowPass and HighPass, `b1 = a1` of Notch. -/
def Obligations.DesignHasEqualCoefficients : Prop :=
  ∀ (c : Config) (cutoff q : F32),
    (design c .lowPass cutoff q).b0 = (design c .lowPass cutoff q).b2 ∧
    (design c .highPass cutoff q).b0 = (design c .highPass cutoff q).b2 ∧
    (design c .notch cutoff q).b1 = (design c .notch cutoff q).a1

/-- Under DivideByCount and with the FM operator off, the normalised mix lies in `[-1.0, 1.0]` (R264), for a sample rate at which
`TWO_PI * FREQ_MAX` does not overflow (DEDUCED, log entry 3). -/
def Obligations.PlainMixStaysInUnitRange : Prop :=
  ∀ (κ : Shape) (c : Config) (s : State κ), c.valid = true → c.stepFinite = true → c.TrigLaws →
    PhasesLegal c s → s.fm.enabled = false →
    le negOne (normalise .divideByCount (mixVoices c s).2 s.activeVoices.length) = true ∧
    le (normalise .divideByCount (mixVoices c s).2 s.activeVoices.length) one = true

/-- Arithmetic rounds once, to nearest with ties to even (R12): a finite result of finite operands is a value nearest to the
exact one, in units of the least subnormal, and where another value is as near, its last bit is 0. -/
def Obligations.ArithmeticRoundsToNearestEven : Prop :=
  ∀ x y z : F32, x.isFinite = true → y.isFinite = true → z.isFinite = true →
    ((add x y).isFinite = true →
      ((add x y).val - (x.val + y.val)).natAbs ≤ (z.val - (x.val + y.val)).natAbs ∧
      ((z.val - (x.val + y.val)).natAbs = ((add x y).val - (x.val + y.val)).natAbs →
        z.val = (add x y).val ∨ (add x y).magBits % 2 = 0)) ∧
    ((sub x y).isFinite = true →
      ((sub x y).val - (x.val - y.val)).natAbs ≤ (z.val - (x.val - y.val)).natAbs ∧
      ((z.val - (x.val - y.val)).natAbs = ((sub x y).val - (x.val - y.val)).natAbs →
        z.val = (sub x y).val ∨ (sub x y).magBits % 2 = 0)) ∧
    ((mul x y).isFinite = true →
      ((mul x y).val * 2 ^ 149 - x.val * y.val).natAbs ≤ (z.val * 2 ^ 149 - x.val * y.val).natAbs ∧
      ((z.val * 2 ^ 149 - x.val * y.val).natAbs = ((mul x y).val * 2 ^ 149 - x.val * y.val).natAbs →
        z.val = (mul x y).val ∨ (mul x y).magBits % 2 = 0)) ∧
    ((div x y).isFinite = true → y.isZero = false →
      ((div x y).val * y.val - x.val * 2 ^ 149).natAbs ≤ (z.val * y.val - x.val * 2 ^ 149).natAbs ∧
      ((z.val * y.val - x.val * 2 ^ 149).natAbs = ((div x y).val * y.val - x.val * 2 ^ 149).natAbs →
        z.val = (div x y).val ∨ (div x y).magBits % 2 = 0))

/-! ### Invariants -/

/-- Every step keeps the uniqueness of keys among active slots (R29, R156). -/
def Obligations.StepKeepsKeysUnique : Prop := ∀ s t : State, KeysUnique s → step s = .next t → KeysUnique t

/-- Every step keeps every stored parameter within its clamps (R29, R32, R36).  The ratio may also be the reset value 1.0 where
RATIO_MIN is above it (DEDUCED, log entry 4). -/
def Obligations.StepKeepsParametersClamped : Prop :=
  ∀ s t : State, ParamsLegal Config.hw s → step s = .next t → ParamsLegal Config.hw t

/-- Every step keeps every frequency in range, and every phase in `[+0.0, TWO_PI)` where `TWO_PI * FREQ_MAX` does not overflow
(R29, R32, R123; the overflow is DEDUCED, log entry 3). -/
def Obligations.StepKeepsPhasesInRange : Prop :=
  ∀ s t : State, PhasesLegal Config.hw s → step s = .next t → PhasesLegal Config.hw t

/-- Every step keeps every filter's coefficients the design of its parameters (R36, R217). -/
def Obligations.StepKeepsFiltersDesigned : Prop :=
  ∀ s t : State, FiltersDesigned Config.hw s → step s = .next t → FiltersDesigned Config.hw t

/-- Every step keeps the decoder short of a whole command and the refusal mark true to its record (R45, R47).  The record
is the model's (log entry 18). -/
def Obligations.StepKeepsDecoderWaitingAndMarkRecorded : Prop :=
  ∀ s t : State, DecoderWaits s → MarkRecorded s → step s = .next t → DecoderWaits t ∧ MarkRecorded t

/-- The power-on state meets every invariant (R48; for the ratio see log entry 4, for the phases log entry 3). -/
def Obligations.PowerOnStateMeetsEveryInvariant : Prop :=
  KeysUnique State.reset ∧ ParamsLegal Config.hw State.reset ∧ PhasesLegal Config.hw State.reset ∧
  FiltersDesigned Config.hw State.reset ∧ DecoderWaits State.reset ∧ MarkRecorded State.reset

/-! ### One sample as a whole, and the parameters -/

/-- One sample (R262): the mix of the active voices, normalised by the policy and the number of active voices (R264), is put
through the chain (R232), and the result is the sample and is what the ring gets at the cursor, which moves on (R266). -/
def Obligations.SampleStepMixesNormalisesFiltersAndStores : Prop :=
  ∀ (κ : Shape) (c : Config) (s : State κ),
    let n := (List.finRange κ.voices).countP fun v => (s.voice v).active
    let mix := (mixVoices c s).2
    let x := match c.normPolicy with
      | .divideByCount => if n = 0 then mix else div mix (ofNat n)
      | .fixedGain g => mul mix g
    let y := chainInput s x s.fcount.val
    let t := (sampleStep c s).1
    (sampleStep c s).2 = y ∧
    (∀ j, t.vis.get j = if j = s.vcur then y else s.vis.get j) ∧
    t.vcur.val = (s.vcur.val + 1) % κ.vis ∧
    t.voices = (mixVoices c s).1.voices ∧ t.fm = (mixVoices c s).1.fm ∧
    (∀ k, k.val < s.fcount.val → t.filter k =
      { s.filter k with
        x1 := chainInput s x k.val, x2 := (s.filter k).x1, y1 := chainInput s x (k.val + 1), y2 := (s.filter k).y1 }) ∧
    (∀ k, s.fcount.val ≤ k.val → t.filter k = s.filter k) ∧
    { t with voices := s.voices, fm := s.fm, filt := s.filt, vis := s.vis, vcur := s.vcur } = s

/-- The block's parameters (R9): the values of this hardware, the two bounds that follow from `SR`, and OPEN numbers that meet
the constraints of R10. -/
def Obligations.ParametersAreThoseOfTheHardware : Prop :=
  Shape.hw.voices = 8 ∧ Shape.hw.filters = 5 ∧ Shape.hw.vis = 1024 ∧ Shape.hw.keyWidth = 16 ∧
  Config.hw.cutoffMin = ⟨0x41A00000⟩ ∧ Config.hw.qMin = ⟨0x3D4CCCCD⟩ ∧ Config.hw.betaMin = ⟨0x00000000⟩ ∧
  Config.hw.betaMax = ⟨0x3F800000⟩ ∧ Config.hw.filterDefaultType = .lowPass ∧ Config.hw.normPolicy = .divideByCount ∧
  Config.hw.freqMax = div Config.hw.sr ⟨0x40000000⟩ ∧
  Config.hw.cutoffMax = sub (div Config.hw.sr ⟨0x40000000⟩) ⟨0x42C80000⟩ ∧
  Config.hw.sr.isFinite = true ∧ le ⟨0x43700000⟩ Config.hw.sr = true ∧ lt ⟨0x00000000⟩ Config.hw.freqMin = true ∧
  le Config.hw.freqMin Config.hw.freqMax = true ∧ lt ⟨0x00000000⟩ Config.hw.ratioMin = true
end

