-- ==== Sys2Proof/Laws/Float.lean ====
section
/-! SUPPORT. The theory of the binary32 operations: the fields of a pattern, the order, and what rounding does.  Rounding is
monotone and gives a representable value back, which is all that the range arguments of the rules rest on. -/

namespace Sys2Proof.F32

/-! ### The fields of a pattern -/

theorem ext_bits {x y : F32} (h : x.bits = y.bits) : x = y := by
  cases x; cases y; simpa using h

theorem magBits_eq (x : F32) : x.magBits = x.bits.toNat % 2 ^ 31 := by
  simp [magBits, BitVec.extractLsb'_toNat]

theorem magBits_lt (x : F32) : x.magBits < 2 ^ 31 := by
  rw [magBits_eq]; exact Nat.mod_lt _ (by decide)

theorem sign_eq (x : F32) : x.sign = decide (2 ^ 31 ≤ x.bits.toNat) := by
  simp [sign, BitVec.msb_eq_decide]

theorem expField_eq (x : F32) : x.expField = x.magBits / 2 ^ 23 := by
  rw [magBits_eq, expField, BitVec.extractLsb'_toNat, Nat.shiftRight_eq_div_pow]
  omega

theorem fracField_eq (x : F32) : x.fracField = x.magBits % 2 ^ 23 := by
  rw [magBits_eq, fracField, BitVec.extractLsb'_toNat, Nat.shiftRight_eq_div_pow]
  omega

/-- A pattern is its sign and its magnitude bits. -/
theorem ext_sign_magBits {x y : F32} (hs : x.sign = y.sign) (hm : x.magBits = y.magBits) : x = y := by
  apply ext_bits
  apply BitVec.eq_of_toNat_eq
  rw [sign_eq, sign_eq, decide_eq_decide] at hs
  rw [magBits_eq, magBits_eq] at hm
  have := x.bits.isLt
  have := y.bits.isLt
  omega

theorem ofParts_magBits (s : Bool) (m : Nat) (h : m < 2 ^ 31) : (ofParts s m).magBits = m := by
  rw [magBits_eq]
  cases s <;> simp [ofParts] <;> omega

theorem ofParts_sign (s : Bool) (m : Nat) (h : m < 2 ^ 31) : (ofParts s m).sign = s := by
  rw [sign_eq]
  cases s <;> simp [ofParts] <;> omega

theorem ofParts_sign_magBits (x : F32) : ofParts x.sign x.magBits = x :=
  ext_sign_magBits (ofParts_sign _ _ x.magBits_lt) (ofParts_magBits _ _ x.magBits_lt)

theorem neg_magBits (x : F32) : x.neg.magBits = x.magBits := by
  simp only [magBits, neg]
  congr 1
  apply BitVec.eq_of_getLsbD_eq
  intro i hi
  have : (0x80000000#32).getLsbD i = false := by
    rcases Nat.lt_or_ge i 31 with h | h
    · interval_cases i <;> rfl
    · omega
  simp [hi, this]

theorem neg_sign (x : F32) : x.neg.sign = !x.sign := by
  have : (0x80000000#32).msb = true := by decide
  simp only [sign, neg, BitVec.msb_xor, this, Bool.xor_true]

theorem neg_neg (x : F32) : x.neg.neg = x :=
  ext_sign_magBits (by simp [neg_sign]) (by simp [neg_magBits])

/-! ### The magnitude in units of the least subnormal -/

/-- The magnitude that magnitude bits stand for, in units of 2^-149. -/
def magOf (b : Nat) : Nat := (b - (b / 2 ^ 23 - 1) * 2 ^ 23) * 2 ^ (b / 2 ^ 23 - 1)

theorem mag_eq_magOf (x : F32) : x.mag = magOf x.magBits := by
  unfold mag magOf
  rw [expField_eq, fracField_eq]
  generalize x.magBits = b
  by_cases h : b / 2 ^ 23 = 0
  · simp only [h, if_true]
    have : b < 2 ^ 23 := by omega
    rw [Nat.mod_eq_of_lt this]
    omega
  · simp only [h, if_false]
    congr 1
    have h1 := Nat.div_add_mod b (2 ^ 23)
    obtain ⟨e, he⟩ := Nat.exists_eq_succ_of_ne_zero h
    rw [he] at h1 ⊢
    rw [Nat.succ_eq_add_one, Nat.mul_add] at h1
    rw [Nat.succ_eq_add_one, Nat.add_sub_cancel]
    omega

/-! ### Rounding -/

theorem div_le_div_of_cross {n₁ d₁ n₂ d₂ : Nat} (h₂ : 0 < d₂) (h : n₁ * d₂ ≤ n₂ * d₁) : n₁ / d₁ ≤ n₂ / d₂ := by
  rcases Nat.eq_zero_or_pos d₁ with rfl | h₁
  · simp
  rw [Nat.le_div_iff_mul_le h₂]
  by_contra hc
  have hc : n₂ < n₁ / d₁ * d₂ := by omega
  have h3 : n₁ / d₁ * d₁ ≤ n₁ := Nat.div_mul_le_self _ _
  have h4 : n₂ * d₁ < n₁ / d₁ * d₂ * d₁ := Nat.mul_lt_mul_of_pos_right hc h₁
  have h5 : n₁ / d₁ * d₁ * d₂ ≤ n₁ * d₂ := Nat.mul_le_mul_right _ h3
  have h6 : n₁ / d₁ * d₂ * d₁ = n₁ / d₁ * d₁ * d₂ := by ring
  omega

theorem roundNE_lower (n d : Nat) : n / d ≤ roundNE n d := by unfold roundNE; split <;> omega

theorem roundNE_upper (n d : Nat) : roundNE n d ≤ n / d + 1 := by unfold roundNE; split <;> omega

/-- Rounding to a whole number is monotone in the quotient. -/
theorem roundNE_mono {n₁ d₁ n₂ d₂ : Nat} (h₁ : 0 < d₁) (h₂ : 0 < d₂) (h : n₁ * d₂ ≤ n₂ * d₁) :
    roundNE n₁ d₁ ≤ roundNE n₂ d₂ := by
  rcases Nat.lt_or_eq_of_le (div_le_div_of_cross h₂ h) with hlt | heq
  · exact (roundNE_upper n₁ d₁).trans (Nat.le_trans hlt (roundNE_lower n₂ d₂))
  -- the same whole part: compare the fractions
  have e1 := Nat.div_add_mod n₁ d₁
  have e2 := Nat.div_add_mod n₂ d₂
  have hr : n₁ % d₁ * d₂ ≤ n₂ % d₂ * d₁ := by
    have a1 : n₁ * d₂ = d₁ * d₂ * (n₁ / d₁) + n₁ % d₁ * d₂ := by
      conv_lhs => rw [← e1]
      ring
    have a2 : n₂ * d₁ = d₁ * d₂ * (n₁ / d₁) + n₂ % d₂ * d₁ := by
      conv_lhs => rw [← e2, ← heq]
      ring
    omega
  have key : ∀ a : Nat, d₁ ≤ 2 * (n₁ % d₁) → d₂ ≤ 2 * (n₂ % d₂) := fun _ hd => by
    have b1 : d₁ * d₂ ≤ 2 * (n₁ % d₁) * d₂ := Nat.mul_le_mul_right _ hd
    have b2 : 2 * (n₁ % d₁) * d₂ ≤ 2 * (n₂ % d₂) * d₁ := by
      calc 2 * (n₁ % d₁) * d₂ = 2 * (n₁ % d₁ * d₂) := by ring
        _ ≤ 2 * (n₂ % d₂ * d₁) := Nat.mul_le_mul_left _ hr
        _ = 2 * (n₂ % d₂) * d₁ := by ring
    have b3 : d₂ * d₁ ≤ 2 * (n₂ % d₂) * d₁ := by rw [Nat.mul_comm d₂ d₁]; exact b1.trans b2
    exact Nat.le_of_mul_le_mul_right b3 h₁
  have keyLt : d₁ < 2 * (n₁ % d₁) → d₂ < 2 * (n₂ % d₂) := fun hd => by
    have b1 : d₁ * d₂ < 2 * (n₁ % d₁) * d₂ := Nat.mul_lt_mul_of_pos_right hd h₂
    have b2 : 2 * (n₁ % d₁) * d₂ ≤ 2 * (n₂ % d₂) * d₁ := by
      calc 2 * (n₁ % d₁) * d₂ = 2 * (n₁ % d₁ * d₂) := by ring
        _ ≤ 2 * (n₂ % d₂ * d₁) := Nat.mul_le_mul_left _ hr
        _ = 2 * (n₂ % d₂) * d₁ := by ring
    have b3 : d₂ * d₁ < 2 * (n₂ % d₂) * d₁ := by rw [Nat.mul_comm d₂ d₁]; exact b1.trans_le b2
    exact Nat.lt_of_mul_lt_mul_right b3
  have hk := key 0
  unfold roundNE
  rw [heq]
  split_ifs <;> omega

theorem roundNE_mul_self (m d : Nat) (hd : 0 < d) : roundNE (m * d) d = m := by
  simp [roundNE, Nat.mul_div_cancel _ hd, hd.ne]

/-- Below 2^24 nothing is shifted out; above, the shifted quotient has exactly 24 bits. -/
theorem roundShift_spec (n d : Nat) :
    n / (d * 2 ^ roundShift n d) < 2 ^ 24 ∧ (0 < roundShift n d → 2 ^ 23 ≤ n / (d * 2 ^ roundShift n d)) := by
  rw [← Nat.div_div_eq_div_mul]
  unfold roundShift
  generalize n / d = q
  have hq : q < 2 ^ (q.log2 + 1) := Nat.lt_log2_self
  constructor
  · rw [Nat.div_lt_iff_lt_mul (Nat.two_pow_pos _), ← Nat.pow_add]
    exact hq.trans_le (Nat.pow_le_pow_right (by decide) (by omega))
  · intro hs
    have hne : q ≠ 0 := by
      rintro rfl
      simp at hs
    rw [Nat.le_div_iff_mul_le (Nat.two_pow_pos _), ← Nat.pow_add]
    exact (Nat.pow_le_pow_right (by decide) (by omega)).trans (Nat.log2_self_le hne)

theorem roundShift_mono {n₁ d₁ n₂ d₂ : Nat} (h₂ : 0 < d₂) (h : n₁ * d₂ ≤ n₂ * d₁) :
    roundShift n₁ d₁ ≤ roundShift n₂ d₂ := by
  have hq := div_le_div_of_cross h₂ h
  unfold roundShift
  have : (n₁ / d₁).log2 ≤ (n₂ / d₂).log2 := by
    rcases Nat.eq_zero_or_pos (n₁ / d₁) with h0 | hp
    · simp [h0]
    · exact (Nat.le_log2 (by omega)).2 ((Nat.log2_self_le (by omega)).trans hq)
  omega

/-- Rounding is monotone in the exact result. -/
theorem roundMag_mono {n₁ d₁ n₂ d₂ : Nat} (h₁ : 0 < d₁) (h₂ : 0 < d₂) (h : n₁ * d₂ ≤ n₂ * d₁) :
    roundMag n₁ d₁ ≤ roundMag n₂ d₂ := by
  unfold roundMag
  have hs := roundShift_mono h₂ h
  have s1 := roundShift_spec n₁ d₁
  have s2 := roundShift_spec n₂ d₂
  refine min_le_min_right _ ?_
  rcases Nat.lt_or_eq_of_le hs with hlt | heq
  · have u := roundNE_upper n₁ (d₁ * 2 ^ roundShift n₁ d₁)
    have l := roundNE_lower n₂ (d₂ * 2 ^ roundShift n₂ d₂)
    have := s2.2 (by omega)
    have := s1.1
    omega
  · rw [heq]
    have : n₁ * (d₂ * 2 ^ roundShift n₂ d₂) ≤ n₂ * (d₁ * 2 ^ roundShift n₂ d₂) := by
      rw [← Nat.mul_assoc, ← Nat.mul_assoc]
      exact Nat.mul_le_mul_right _ h
    have := roundNE_mono (Nat.mul_pos h₁ (Nat.two_pow_pos _)) (Nat.mul_pos h₂ (Nat.two_pow_pos _)) this
    omega

theorem roundMag_le (n d : Nat) : roundMag n d ≤ infBits := Nat.min_le_right _ _

theorem roundMag_lt (n d : Nat) : roundMag n d < 2 ^ 31 := (roundMag_le n d).trans_lt (by norm_num [infBits])

theorem hidden_bits_le (b : Nat) : (b / 2 ^ 23 - 1) * 2 ^ 23 ≤ b := by omega

/-- A representable magnitude rounds to itself. -/
theorem roundMag_magOf (b t : Nat) (ht : 0 < t) (hb : b ≤ infBits) : roundMag (magOf b * t) t = b := by
  have hq : magOf b * t / t = magOf b := Nat.mul_div_cancel _ ht
  have hshift : roundShift (magOf b * t) t = b / 2 ^ 23 - 1 := by
    unfold roundShift
    rw [hq]
    unfold magOf
    generalize hk : b / 2 ^ 23 - 1 = k
    have hm : b - k * 2 ^ 23 < 2 ^ 24 := by omega
    rcases Nat.eq_zero_or_pos k with rfl | hk0
    · simp only [Nat.zero_mul, Nat.sub_zero, Nat.pow_zero, Nat.mul_one] at hm ⊢
      rcases Nat.eq_zero_or_pos b with rfl | hb0
      · simp
      · have := (Nat.log2_lt (by omega)).2 hm
        omega
    · have hm' : 2 ^ 23 ≤ b - k * 2 ^ 23 := by omega
      have : ((b - k * 2 ^ 23) * 2 ^ k).log2 = 23 + k := by
        rw [Nat.log2_eq_iff (Nat.mul_pos (by omega) (Nat.two_pow_pos _)).ne']
        constructor
        · rw [Nat.pow_add]
          exact Nat.mul_le_mul_right _ hm'
        · rw [show 23 + k + 1 = 24 + k by omega, Nat.pow_add]
          exact Nat.mul_lt_mul_of_pos_right hm (Nat.two_pow_pos _)
      omega
  unfold roundMag
  rw [hshift]
  have : magOf b * t = (b - (b / 2 ^ 23 - 1) * 2 ^ 23) * (t * 2 ^ (b / 2 ^ 23 - 1)) := by
    unfold magOf
    ring
  rw [this, roundNE_mul_self _ _ (Nat.mul_pos ht (Nat.two_pow_pos _))]
  rw [Nat.add_sub_cancel' (hidden_bits_le b), Nat.min_eq_left hb]

theorem magOf_mono {a b : Nat} (h : a ≤ b) (hb : b ≤ infBits) : magOf a ≤ magOf b := by
  by_contra hc
  have h1 := roundMag_mono (n₁ := magOf b * 1) (d₁ := 1) (n₂ := magOf a * 1) (d₂ := 1) (by decide) (by decide) (by omega)
  rw [roundMag_magOf _ _ (by decide) hb, roundMag_magOf _ _ (by decide) (h.trans hb)] at h1
  obtain rfl : a = b := Nat.le_antisymm h h1
  exact hc le_rfl

theorem magOf_lt_iff {a b : Nat} (ha : a ≤ infBits) (hb : b ≤ infBits) : magOf a < magOf b ↔ a < b := by
  constructor
  · intro h
    by_contra hc
    exact absurd (magOf_mono (Nat.le_of_not_lt hc) ha) (by omega)
  · intro h
    by_contra hc
    have h1 := roundMag_mono (n₁ := magOf b * 1) (d₁ := 1) (n₂ := magOf a * 1) (d₂ := 1) (by decide) (by decide) (by omega)
    rw [roundMag_magOf _ _ (by decide) hb, roundMag_magOf _ _ (by decide) ha] at h1
    omega

/-! ### The order -/

theorem le_iff {x y : F32} : le x y = true ↔ x.isNaN = false ∧ y.isNaN = false ∧ x.rank ≤ y.rank := by
  simp [le, and_assoc]

theorem lt_iff {x y : F32} : lt x y = true ↔ x.isNaN = false ∧ y.isNaN = false ∧ x.rank < y.rank := by
  simp [lt, and_assoc]

theorem ge_iff {x y : F32} : ge x y = true ↔ x.isNaN = false ∧ y.isNaN = false ∧ y.rank ≤ x.rank := by
  rw [ge, le_iff]; tauto

theorem le_refl {x : F32} (h : x.isNaN = false) : le x x = true := le_iff.2 ⟨h, h, Int.le_refl _⟩

theorem le_trans {x y z : F32} (h₁ : le x y = true) (h₂ : le y z = true) : le x z = true := by
  rw [le_iff] at *
  exact ⟨h₁.1, h₂.2.1, h₁.2.2.trans h₂.2.2⟩

theorem le_of_lt {x y : F32} (h : lt x y = true) : le x y = true := by
  rw [lt_iff] at h
  exact le_iff.2 ⟨h.1, h.2.1, h.2.2.le⟩

theorem not_isNaN_of_le_left {x y : F32} (h : le x y = true) : x.isNaN = false := (le_iff.1 h).1

theorem not_isNaN_of_le_right {x y : F32} (h : le x y = true) : y.isNaN = false := (le_iff.1 h).2.1

theorem neg_isNaN (x : F32) : x.neg.isNaN = x.isNaN := by simp [isNaN, neg_magBits]

theorem neg_rank (x : F32) : x.neg.rank = -x.rank := by
  unfold rank
  rw [neg_magBits, neg_sign]
  cases x.sign <;> simp

theorem not_isNaN_of_isFinite {x : F32} (h : x.isFinite = true) : x.isNaN = false := by
  simp only [isFinite, isNaN, decide_eq_true_eq, decide_eq_false_iff_not] at *
  omega

/-- For finite values the order of the patterns is the order of the values. -/
theorem rank_le_iff_val {x y : F32} (hx : x.isFinite = true) (hy : y.isFinite = true) :
    x.rank ≤ y.rank ↔ x.val ≤ y.val := by
  simp only [isFinite, decide_eq_true_eq] at hx hy
  have h1 := magOf_lt_iff hx.le hy.le
  have h2 := magOf_lt_iff hy.le hx.le
  have h0 : ∀ z : F32, z.magBits < infBits → (magOf z.magBits = 0 ↔ z.magBits = 0) := fun z hz => by
    have := magOf_lt_iff (a := 0) (b := z.magBits) (Nat.zero_le _) hz.le
    have e : magOf 0 = 0 := rfl
    omega
  have hx0 := h0 x hx
  have hy0 := h0 y hy
  simp only [rank, val, mag_eq_magOf]
  cases x.sign <;> cases y.sign <;> simp only [Bool.false_eq_true, if_true, if_false] <;> omega

theorem le_iff_val {x y : F32} (hx : x.isFinite = true) (hy : y.isFinite = true) : le x y = true ↔ x.val ≤ y.val := by
  rw [le_iff, rank_le_iff_val hx hy]
  simp [not_isNaN_of_isFinite hx, not_isNaN_of_isFinite hy]

/-- Between two finite values there are only finite ones. -/
theorem isFinite_of_between {x lo hi : F32} (h₁ : le lo x = true) (h₂ : le x hi = true) (hlo : lo.isFinite = true)
    (hhi : hi.isFinite = true) : x.isFinite = true := by
  rw [le_iff] at h₁ h₂
  simp only [isFinite, decide_eq_true_eq] at *
  have a := h₁.2.2
  have b := h₂.2.2
  unfold rank at a b
  revert a b
  cases x.sign <;> cases lo.sign <;> cases hi.sign <;> simp only [Bool.false_eq_true, if_true, if_false] <;> omega

end Sys2Proof.F32
end

