-- ==== Sys2Proof/Laws/Arith.lean ====
section
/-! SUPPORT. What each binary32 operation gives on finite operands, as a rank, and that each is monotone: the one lemma per
operation that range arguments cite instead of unfolding it. -/

namespace Sys2Proof.F32

/-! ### Classes -/

theorem isInf_eq_false {x : F32} (h : x.isFinite = true) : x.isInf = false := by
  simp only [isFinite, isInf, decide_eq_true_eq, decide_eq_false_iff_not] at *
  exact h.ne

theorem ofParts_isNaN (s : Bool) (m : Nat) (h : m ≤ infBits) : (ofParts s m).isNaN = false := by
  have : m < 2 ^ 31 := h.trans_lt (by norm_num [infBits])
  simp only [isNaN, ofParts_magBits s m this, decide_eq_false_iff_not]
  exact Nat.not_lt.2 h

theorem ofParts_rank (s : Bool) (m : Nat) (h : m < 2 ^ 31) :
    (ofParts s m).rank = if s = true then -(m : Int) else (m : Int) := by
  rw [rank, ofParts_sign s m h, ofParts_magBits s m h]

/-- The rank that rounding gives an exact whole number of units. -/
def roundRank (v : Int) : Int := if v < 0 then -(roundMag v.natAbs 1 : Int) else (roundMag v.natAbs 1 : Int)

theorem roundMag_zero (d : Nat) (hd : 0 < d) : roundMag 0 d = 0 := by
  have := roundMag_magOf 0 d hd (Nat.zero_le _)
  rwa [show magOf 0 * d = 0 by simp [magOf]] at this

theorem roundRank_mono {v w : Int} (h : v ≤ w) : roundRank v ≤ roundRank w := by
  have hm : ∀ a b : Nat, a ≤ b → roundMag a 1 ≤ roundMag b 1 := fun a b hab =>
    roundMag_mono (by decide) (by decide) (by omega)
  unfold roundRank
  split_ifs with h1 h2 h2
  · have := hm w.natAbs v.natAbs (by omega)
    omega
  · omega
  · omega
  · have := hm v.natAbs w.natAbs (by omega)
    omega

/-- A finite value rounds to itself. -/
theorem roundRank_val {x : F32} (h : x.isFinite = true) : roundRank x.val = x.rank := by
  simp only [isFinite, decide_eq_true_eq] at h
  have e := roundMag_magOf x.magBits 1 (by decide) h.le
  rw [Nat.mul_one] at e
  unfold roundRank val rank
  rw [mag_eq_magOf]
  cases x.sign
  · simp [e]
  · simp only [if_true, Int.natAbs_neg, Int.natAbs_natCast, e]
    split_ifs with hneg
    · rfl
    · have h0 : magOf x.magBits = 0 := by omega
      rw [h0, roundMag_zero 1 (by decide)] at e
      rw [← e]
      rfl

/-! ### Sum and difference -/

/-- A sum of finite values is no NaN, and its rank is the rounded exact sum. -/
theorem add_rank {x y : F32} (hx : x.isFinite = true) (hy : y.isFinite = true) :
    (add x y).isNaN = false ∧ (add x y).rank = roundRank (x.val + y.val) := by
  have e : add x y = addNum x y := by
    simp [add, not_isNaN_of_isFinite hx, not_isNaN_of_isFinite hy, isInf_eq_false hx]
  rw [e]
  unfold addNum
  simp only [isInf_eq_false hx, isInf_eq_false hy, Bool.false_eq_true, if_false]
  split_ifs with h0
  · refine ⟨ofParts_isNaN _ _ (Nat.zero_le _), ?_⟩
    rw [ofParts_rank _ _ (by decide), h0]
    simp [roundRank, roundMag_zero]
  · refine ⟨ofParts_isNaN _ _ (roundMag_le _ _), ?_⟩
    rw [ofParts_rank _ _ (roundMag_lt _ _)]
    simp [roundRank]

theorem neg_isFinite (x : F32) : x.neg.isFinite = x.isFinite := by simp [isFinite, neg_magBits]

theorem neg_val (x : F32) : x.neg.val = -x.val := by
  unfold val
  rw [mag_eq_magOf, mag_eq_magOf, neg_magBits, neg_sign]
  cases x.sign <;> simp

/-- On finite operands a difference is the sum with the negated operand. -/
theorem sub_eq_add_neg {x y : F32} (hx : x.isFinite = true) (hy : y.isFinite = true) : sub x y = add x y.neg := by
  have hn : y.neg.isFinite = true := by rw [neg_isFinite]; exact hy
  simp [sub, add, not_isNaN_of_isFinite hx, not_isNaN_of_isFinite hy, not_isNaN_of_isFinite hn, isInf_eq_false hx]

theorem sub_rank {x y : F32} (hx : x.isFinite = true) (hy : y.isFinite = true) :
    (sub x y).isNaN = false ∧ (sub x y).rank = roundRank (x.val - y.val) := by
  rw [sub_eq_add_neg hx hy]
  have := add_rank hx (y := y.neg) (by rw [neg_isFinite]; exact hy)
  rwa [neg_val, ← Int.sub_eq_add_neg] at this

theorem add_mono {x x' y y' : F32} (hx : x.isFinite = true) (hx' : x'.isFinite = true) (hy : y.isFinite = true)
    (hy' : y'.isFinite = true) (h₁ : le x x' = true) (h₂ : le y y' = true) : le (add x y) (add x' y') = true := by
  rw [le_iff_val hx hx'] at h₁
  rw [le_iff_val hy hy'] at h₂
  have a := add_rank hx hy
  have b := add_rank hx' hy'
  rw [le_iff, a.2, b.2]
  exact ⟨a.1, b.1, roundRank_mono (by omega)⟩

theorem sub_mono {x x' y y' : F32} (hx : x.isFinite = true) (hx' : x'.isFinite = true) (hy : y.isFinite = true)
    (hy' : y'.isFinite = true) (h₁ : le x x' = true) (h₂ : le y' y = true) : le (sub x y) (sub x' y') = true := by
  rw [le_iff_val hx hx'] at h₁
  rw [le_iff_val hy' hy] at h₂
  have a := sub_rank hx hy
  have b := sub_rank hx' hy'
  rw [le_iff, a.2, b.2]
  exact ⟨a.1, b.1, roundRank_mono (by omega)⟩

/-! ### Product and quotient -/

/-- A product of finite values: no NaN, the sign by the signs, the magnitude rounded. -/
theorem mul_parts {x y : F32} (hx : x.isFinite = true) (hy : y.isFinite = true) :
    mul x y = ofParts (x.sign != y.sign) (roundMag (x.mag * y.mag) (2 ^ 149)) := by
  unfold mul
  rw [not_isNaN_of_isFinite hx, not_isNaN_of_isFinite hy, isInf_eq_false hx, isInf_eq_false hy]
  simp

/-- A quotient of finite values with a nonzero divisor. -/
theorem div_parts {x y : F32} (hx : x.isFinite = true) (hy : y.isFinite = true) (h0 : y.isZero = false) :
    div x y = ofParts (x.sign != y.sign) (roundMag (x.mag * 2 ^ 149) y.mag) := by
  unfold div
  rw [not_isNaN_of_isFinite hx, not_isNaN_of_isFinite hy, isInf_eq_false hx, isInf_eq_false hy, h0]
  simp

theorem mag_pos {y : F32} (hy : y.isFinite = true) (h0 : y.isZero = false) : 0 < y.mag := by
  simp only [isFinite, isZero, decide_eq_true_eq, decide_eq_false_iff_not] at hy h0
  have := (magOf_lt_iff (a := 0) (Nat.zero_le _) hy.le).2 (Nat.pos_of_ne_zero h0)
  rw [mag_eq_magOf]
  omega

theorem mag_mono {x y : F32} (hy : y.isFinite = true) (h : x.magBits ≤ y.magBits) : x.mag ≤ y.mag := by
  simp only [isFinite, decide_eq_true_eq] at hy
  rw [mag_eq_magOf, mag_eq_magOf]
  exact magOf_mono h hy.le

/-- The magnitude of a product of finite values is monotone in the magnitudes. -/
theorem mul_magBits_mono {x x' y y' : F32} (hx : x.isFinite = true) (hy : y.isFinite = true) (hx' : x'.isFinite = true)
    (hy' : y'.isFinite = true) (h₁ : x.magBits ≤ x'.magBits) (h₂ : y.magBits ≤ y'.magBits) :
    (mul x y).magBits ≤ (mul x' y').magBits := by
  rw [mul_parts hx hy, mul_parts hx' hy', ofParts_magBits _ _ (roundMag_lt _ _), ofParts_magBits _ _ (roundMag_lt _ _)]
  exact roundMag_mono (Nat.two_pow_pos _) (Nat.two_pow_pos _)
    (Nat.mul_le_mul_right _ (Nat.mul_le_mul (mag_mono hx' h₁) (mag_mono hy' h₂)))

/-- The magnitude of a quotient grows with the dividend and falls with the divisor. -/
theorem div_magBits_mono {x x' y y' : F32} (hx : x.isFinite = true) (hy : y.isFinite = true) (hx' : x'.isFinite = true)
    (hy' : y'.isFinite = true) (h0 : y.isZero = false) (h0' : y'.isZero = false) (h₁ : x.magBits ≤ x'.magBits)
    (h₂ : y'.magBits ≤ y.magBits) : (div x y).magBits ≤ (div x' y').magBits := by
  rw [div_parts hx hy h0, div_parts hx' hy' h0', ofParts_magBits _ _ (roundMag_lt _ _),
    ofParts_magBits _ _ (roundMag_lt _ _)]
  exact roundMag_mono (mag_pos hy h0) (mag_pos hy' h0')
    (Nat.mul_le_mul (Nat.mul_le_mul_right _ (mag_mono hx' h₁)) (mag_mono hy h₂))

theorem mul_isNaN {x y : F32} (hx : x.isFinite = true) (hy : y.isFinite = true) : (mul x y).isNaN = false := by
  rw [mul_parts hx hy]
  exact ofParts_isNaN _ _ (roundMag_le _ _)

theorem mul_sign {x y : F32} (hx : x.isFinite = true) (hy : y.isFinite = true) :
    (mul x y).sign = (x.sign != y.sign) := by
  rw [mul_parts hx hy, ofParts_sign _ _ (roundMag_lt _ _)]

theorem div_isNaN {x y : F32} (hx : x.isFinite = true) (hy : y.isFinite = true) (h0 : y.isZero = false) :
    (div x y).isNaN = false := by
  rw [div_parts hx hy h0]
  exact ofParts_isNaN _ _ (roundMag_le _ _)

theorem div_sign {x y : F32} (hx : x.isFinite = true) (hy : y.isFinite = true) (h0 : y.isZero = false) :
    (div x y).sign = (x.sign != y.sign) := by
  rw [div_parts hx hy h0, ofParts_sign _ _ (roundMag_lt _ _)]

/-- A NaN result is a quiet NaN, whatever the free choice is. -/
theorem nan_isNaN (op : FloatOp) (x y : F32) : (nan op x y).isNaN = true := by
  have h : (nan op x y).bits.toNat = ((Config.nanChoice op x y).extractLsb' 22 1).toNat * 2 ^ 31
      + (511 * 2 ^ 22 + ((Config.nanChoice op x y).extractLsb' 0 22).toNat) := by
    unfold nan
    rw [toNat_append, toNat_append]
    rfl
  have := ((Config.nanChoice op x y).extractLsb' 0 22).isLt
  simp only [isNaN, magBits_eq, decide_eq_true_eq, infBits, h]
  omega

end Sys2Proof.F32
end

