-- ==== Sys2Proof/Laws/Decode.lean ====
section
/-! SUPPORT. The fields of a header word that the encoder made, the codes both ways, and the decoder on a stream that
begins with a whole command. -/

namespace Sys2Proof

/-! ### Codes -/

@[simp] theorem Waveform.ofCode_code (w : Waveform) : Waveform.ofCode w.code = w := by cases w <;> rfl

@[simp] theorem Waveform.code_ofCode (c : BitVec 2) : (Waveform.ofCode c).code = c := by revert c; decide

@[simp] theorem FilterType.ofCode_code (t : FilterType) : FilterType.ofCode t.code = t := by cases t <;> rfl

@[simp] theorem FilterType.code_ofCode (c : BitVec 2) : (FilterType.ofCode c).code = c := by revert c; decide

@[simp] theorem FmMode.ofCode_code (m : FmMode) : FmMode.ofCode m.code = m := by cases m <;> rfl

@[simp] theorem FmMode.code_ofCode (c : BitVec 1) : (FmMode.ofCode c).code = c := by revert c; decide

/-! ### Fields of a header -/

section Fields
variable (op : BitVec 8) (a b : BitVec 4) (imm : BitVec 16)

theorem header_toNat : (header op a b imm).toNat = op.toNat * 2 ^ 24 + (a.toNat * 2 ^ 20 + (b.toNat * 2 ^ 16 + imm.toNat)) := by
  unfold header
  rw [toNat_append, toNat_append, toNat_append]

/-- A field is read off the header's number. -/
theorem header_field {len : Nat} (lo : Nat) (v : BitVec len)
    (h : (header op a b imm).toNat / 2 ^ lo % 2 ^ len = v.toNat) : (header op a b imm).extractLsb' lo len = v := by
  apply BitVec.eq_of_toNat_eq
  rw [toNat_extract, h]

@[simp] theorem opField_header : opField (header op a b imm) = op :=
  header_field op a b imm 24 op (by have := op.isLt; have := a.isLt; have := b.isLt; have := imm.isLt; rw [header_toNat]; omega)

@[simp] theorem aField_header : aField (header op a b imm) = a :=
  header_field op a b imm 20 a (by have := op.isLt; have := a.isLt; have := b.isLt; have := imm.isLt; rw [header_toNat]; omega)

@[simp] theorem bField_header : bField (header op a b imm) = b :=
  header_field op a b imm 16 b (by have := op.isLt; have := a.isLt; have := b.isLt; have := imm.isLt; rw [header_toNat]; omega)

@[simp] theorem immField_header : immField (header op a b imm) = imm :=
  header_field op a b imm 0 imm (by have := op.isLt; have := a.isLt; have := b.isLt; have := imm.isLt; rw [header_toNat]; omega)

/-- The subfields of `A` and `B` are fields of those fields. -/
theorem aReserved_eq (h : Word) : aReserved h = (aField h).extractLsb' 2 2 := by
  apply BitVec.eq_of_toNat_eq
  simp only [aReserved, aField, toNat_extract]
  omega

theorem codeField_eq (h : Word) : codeField h = (aField h).extractLsb' 0 2 := by
  apply BitVec.eq_of_toNat_eq
  simp only [codeField, aField, toNat_extract]
  omega

theorem gReserved_eq (h : Word) : gReserved h = (bField h).extractLsb' 1 3 := by
  apply BitVec.eq_of_toNat_eq
  simp only [gReserved, bField, toNat_extract]
  omega

theorem emReserved_eq (h : Word) : emReserved h = (bField h).extractLsb' 2 2 := by
  apply BitVec.eq_of_toNat_eq
  simp only [emReserved, bField, toNat_extract]
  omega

theorem geBit_eq (h : Word) : geBit h = (bField h).extractLsb' 0 1 := by
  apply BitVec.eq_of_toNat_eq
  simp only [geBit, bField, toNat_extract]
  omega

theorem mBit_eq (h : Word) : mBit h = (bField h).extractLsb' 1 1 := by
  apply BitVec.eq_of_toNat_eq
  simp only [mBit, bField, toNat_extract]
  omega

/-- A header word is its four fields. -/
theorem header_fields (h : Word) : header (opField h) (aField h) (bField h) (immField h) = h := by
  apply BitVec.eq_of_toNat_eq
  rw [header_toNat]
  simp only [opField, aField, bField, immField, toNat_extract]
  have := h.isLt
  omega

/-- Masking a header masks each field. -/
theorem header_and (m : BitVec 8) (n p : BitVec 4) (q : BitVec 16) :
    header op a b imm &&& header m n p q = header (op &&& m) (a &&& n) (b &&& p) (imm &&& q) := by
  unfold header
  exact (BitVec.and_append (x₁ := op) (x₂ := m) (y₁ := a ++ (b ++ imm)) (y₂ := n ++ (p ++ q))).trans
    (congrArg (fun z => (op &&& m) ++ z) ((BitVec.and_append (x₁ := a) (x₂ := n) (y₁ := b ++ imm) (y₂ := p ++ q)).trans
      (congrArg (fun z => (a &&& n) ++ z) BitVec.and_append)))

theorem header_inj {op' : BitVec 8} {a' b' : BitVec 4} {imm' : BitVec 16} :
    header op a b imm = header op' a' b' imm' ↔ op = op' ∧ a = a' ∧ b = b' ∧ imm = imm' := by
  constructor
  · intro h
    have h1 := congrArg opField h
    have h2 := congrArg aField h
    have h3 := congrArg bField h
    have h4 := congrArg immField h
    simp only [opField_header, aField_header, bField_header, immField_header] at h1 h2 h3 h4
    exact ⟨h1, h2, h3, h4⟩
  · rintro ⟨rfl, rfl, rfl, rfl⟩
    rfl

/-- A mask and a match, written field by field, select a word by its fields (R88). -/
theorem masked_iff (h : Word) (m : BitVec 8) (n p : BitVec 4) (q : BitVec 16) :
    h &&& header m n p q = header op a b imm ↔
      opField h &&& m = op ∧ aField h &&& n = a ∧ bField h &&& p = b ∧ immField h &&& q = imm := by
  rw [← header_inj, ← header_and, header_fields]

end Fields

@[simp] theorem operandValue_zero (v : F32) (ws : List Word) : operandValue (v.bits :: ws) 0 = v := rfl

@[simp] theorem operandValue_one (w : Word) (v : F32) (ws : List Word) : operandValue (w :: v.bits :: ws) 1 = v := rfl

/-! ### The masks of the opcode map, as conditions on fields (R83 to R86) -/

section Masks
variable (h : Word) (op : BitVec 8)

/-- Every bit covered. -/
theorem select_all : h &&& 0xFFFFFFFF = header op 0 0 0 ↔ opField h = op ∧ aField h = 0 ∧ bField h = 0 ∧ immField h = 0 := by
  have e : (0xFFFFFFFF : Word) = header 0xFF 0xF 0xF 0xFFFF := by decide
  rw [e, masked_iff]
  have h8 : ∀ x : BitVec 8, x &&& 0xFF = x := fun x => BitVec.and_allOnes
  have h4 : ∀ x : BitVec 4, x &&& 0xF = x := fun x => BitVec.and_allOnes
  have h16 : ∀ x : BitVec 16, x &&& 0xFFFF = x := fun x => BitVec.and_allOnes
  rw [h8, h4, h4, h16]

/-- All but `IMM` covered. -/
theorem select_imm : h &&& 0xFFFF0000 = header op 0 0 0 ↔ opField h = op ∧ aField h = 0 ∧ bField h = 0 := by
  have e : (0xFFFF0000 : Word) = header 0xFF 0xF 0xF 0 := by decide
  rw [e, masked_iff]
  have h8 : ∀ x : BitVec 8, x &&& 0xFF = x := fun x => BitVec.and_allOnes
  have h4 : ∀ x : BitVec 4, x &&& 0xF = x := fun x => BitVec.and_allOnes
  have h16 : ∀ x : BitVec 16, x &&& 0 = 0 := fun x => BitVec.and_zero
  rw [h8, h4, h4, h16]
  simp only [and_true]

/-- All but a code and `IMM` covered. -/
theorem select_code_imm :
    h &&& 0xFFCF0000 = header op 0 0 0 ↔ opField h = op ∧ aReserved h = 0 ∧ bField h = 0 := by
  have e : (0xFFCF0000 : Word) = header 0xFF 0xC 0xF 0 := by decide
  rw [e, masked_iff, aReserved_eq]
  have h8 : ∀ x : BitVec 8, x &&& 0xFF = x := fun x => BitVec.and_allOnes
  have h4 : ∀ x : BitVec 4, x &&& 0xF = x := fun x => BitVec.and_allOnes
  have hc : ∀ x : BitVec 4, x &&& 0xC = 0 ↔ x.extractLsb' 2 2 = 0 := by decide
  have h16 : ∀ x : BitVec 16, x &&& 0 = 0 := fun x => BitVec.and_zero
  rw [h8, h4, h16, hc]
  simp only [and_true]

/-- All but a code covered, with `G` set. -/
theorem select_code_global : h &&& 0xFFCFFFFF = header op 0 1 0 ↔
    opField h = op ∧ aReserved h = 0 ∧ gReserved h = 0 ∧ geBit h = 1 ∧ immField h = 0 := by
  have e : (0xFFCFFFFF : Word) = header 0xFF 0xC 0xF 0xFFFF := by decide
  rw [e, masked_iff, aReserved_eq, gReserved_eq, geBit_eq]
  have h8 : ∀ x : BitVec 8, x &&& 0xFF = x := fun x => BitVec.and_allOnes
  have hb : ∀ x : BitVec 4, x &&& 0xF = 1 ↔ x.extractLsb' 1 3 = 0 ∧ x.extractLsb' 0 1 = 1 := by decide
  have hc : ∀ x : BitVec 4, x &&& 0xC = 0 ↔ x.extractLsb' 2 2 = 0 := by decide
  have h16 : ∀ x : BitVec 16, x &&& 0xFFFF = x := fun x => BitVec.and_allOnes
  rw [h8, h16, hc, hb]
  simp only [and_assoc]

/-- All but a code and two flags covered. -/
theorem select_code_flags :
    h &&& 0xFFCCFFFF = header op 0 0 0 ↔ opField h = op ∧ aReserved h = 0 ∧ emReserved h = 0 ∧ immField h = 0 := by
  have e : (0xFFCCFFFF : Word) = header 0xFF 0xC 0xC 0xFFFF := by decide
  rw [e, masked_iff, aReserved_eq, emReserved_eq]
  have h8 : ∀ x : BitVec 8, x &&& 0xFF = x := fun x => BitVec.and_allOnes
  have hc : ∀ x : BitVec 4, x &&& 0xC = 0 ↔ x.extractLsb' 2 2 = 0 := by decide
  have h16 : ∀ x : BitVec 16, x &&& 0xFFFF = x := fun x => BitVec.and_allOnes
  rw [h8, h16, hc, hc]

/-- `B` is zero exactly when its reserved part and its flag are. -/
theorem bField_zero_iff : bField h = 0 ↔ gReserved h = 0 ∧ geBit h = 0 := by
  rw [gReserved_eq, geBit_eq]
  have : ∀ x : BitVec 4, x = 0 ↔ x.extractLsb' 1 3 = 0 ∧ x.extractLsb' 0 1 = 0 := by decide
  exact this _

end Masks

/-! ### Legal headers -/

theorem geBit_cases (h : Word) : geBit h = 0 ∨ geBit h = 1 := by
  have : ∀ x : BitVec 1, x = 0 ∨ x = 1 := by decide
  exact this _

/-- A header is legal exactly when the reserved bits of its opcode are zero (R83 to R86, R90). -/
theorem legalHeader_iff (h : Word) : legalHeader h = true ↔
   (opField h = 0 ∧ aField h = 0 ∧ bField h = 0 ∧ immField h = 0) ∨
   (opField h = 1 ∧ aField h = 0 ∧ bField h = 0) ∨ (opField h = 2 ∧ aField h = 0 ∧ bField h = 0) ∨
   (opField h = 3 ∧ aReserved h = 0 ∧ bField h = 0) ∨
   (opField h = 3 ∧ aReserved h = 0 ∧ gReserved h = 0 ∧ geBit h = 1 ∧ immField h = 0) ∨
   (opField h = 4 ∧ aReserved h = 0 ∧ emReserved h = 0 ∧ immField h = 0) ∨
   (opField h = 5 ∧ aField h = 0 ∧ bField h = 0 ∧ immField h = 0) ∨
   (opField h = 6 ∧ aField h = 0 ∧ bField h = 0) ∨
   (opField h = 7 ∧ aReserved h = 0 ∧ bField h = 0) ∨
   (opField h = 8 ∧ aField h = 0 ∧ bField h = 0) ∨
   (opField h = 9 ∧ aField h = 0 ∧ bField h = 0 ∧ immField h = 0) := by
  simp only [legalHeader, opcodeMap, List.any_cons, List.any_nil, OpcodeRow.selects, Bool.or_eq_true, beq_iff_eq, Bool.or_false]
  exact or_congr (select_all h 0) (or_congr (select_imm h 1) (or_congr (select_imm h 2) (or_congr (select_code_imm h 3)
    (or_congr (select_code_global h 3) (or_congr (select_code_flags h 4) (or_congr (select_all h 5) (or_congr (select_imm h 6)
    (or_congr (select_code_imm h 7) (or_congr (select_imm h 8) (select_all h 9))))))))))

/-- The fields spell a command exactly when the header selects a row of the opcode map (R88, R90). -/
theorem decodeCommand_isSome (h : Word) (ops : List Word) : (decodeCommand h ops).isSome = legalHeader h := by
  rw [Bool.eq_iff_iff, legalHeader_iff]
  have is : ∀ (p : Prop) [Decidable p] (i : Instr), (if p then some i else none).isSome = true ↔ p := by
    intro p _ i; split_ifs with hp <;> simp [hp]
  by_cases o3 : opField h = 3
  · simp only [decodeCommand, o3, bField_zero_iff]
    rcases geBit_cases h with g | g
    · simp [g]
      split_ifs <;> simp_all
    · simp [g, is]
  by_cases o0 : opField h = 0
  · simp [decodeCommand, o0, is]
  by_cases o1 : opField h = 1
  · simp [decodeCommand, o1, is]
  by_cases o2 : opField h = 2
  · simp [decodeCommand, o2, is]
  by_cases o4 : opField h = 4
  · simp [decodeCommand, o4, is]
  by_cases o5 : opField h = 5
  · simp [decodeCommand, o5, is]
  by_cases o6 : opField h = 6
  · simp [decodeCommand, o6, is]
  by_cases o7 : opField h = 7
  · simp [decodeCommand, o7, is]
  by_cases o8 : opField h = 8
  · simp [decodeCommand, o8, is]
  by_cases o9 : opField h = 9
  · simp [decodeCommand, o9, is]
  simp only [decodeCommand, o0, o1, o2, o3, o4, o5, o6, o7, o8, o9, if_false]
  simp

/-! ### Length and stream -/

theorem commandLength_pos (h : Word) : 0 < commandLength h := by
  unfold commandLength; split_ifs <;> decide

theorem commandLength_le (h : Word) : commandLength h ≤ 3 := by
  unfold commandLength; split_ifs <;> decide

/-- The decoder on a stream whose first command is whole. -/
theorem decode_whole (h : Word) (operands rest : List Word) (hl : operands.length + 1 = commandLength h) :
    decode (h :: (operands ++ rest)) =
      match decodeCommand h operands with
      | some i => .instr i rest
      | none => .illegal h rest := by
  have e : commandLength h - 1 = operands.length := by omega
  have hn : ¬ (operands ++ rest).length + 1 < commandLength h := by rw [List.length_append]; omega
  cases hd : decodeCommand h operands <;> simp only [decode, hn, if_false, e, List.take_left, List.drop_left, hd]

end Sys2Proof
end

