-- ==== Sys2Proof/Laws/State.lean ====
section
/-! SUPPORT. One lemma per field per named update of the state, and the read-after-write laws of the register files. -/

namespace Sys2Proof.Machine

variable {κ : Shape}

section Voices
variable (s : State κ) (i j : Fin κ.voices) (v : Voice κ)

theorem State.setVoice_voices : (s.setVoice i v).voices = s.voices.set i v := rfl
@[simp] theorem State.setVoice_filter (k : Fin κ.filters) : (s.setVoice i v).filter k = s.filter k := rfl
@[simp] theorem State.setVoice_fm : (s.setVoice i v).fm = s.fm := rfl
@[simp] theorem State.setVoice_filt : (s.setVoice i v).filt = s.filt := rfl
@[simp] theorem State.setVoice_fcount : (s.setVoice i v).fcount = s.fcount := rfl
@[simp] theorem State.setVoice_vis : (s.setVoice i v).vis = s.vis := rfl
@[simp] theorem State.setVoice_vcur : (s.setVoice i v).vcur = s.vcur := rfl
@[simp] theorem State.setVoice_decoder : (s.setVoice i v).decoder = s.decoder := rfl
@[simp] theorem State.setVoice_responses : (s.setVoice i v).responses = s.responses := rfl
@[simp] theorem State.setVoice_refusalMark : (s.setVoice i v).refusalMark = s.refusalMark := rfl
@[simp] theorem State.setVoice_refusals : (s.setVoice i v).refusals = s.refusals := rfl
@[simp] theorem State.setVoice_port : (s.setVoice i v).port = s.port := rfl
@[simp] theorem State.setVoice_freeCount : (s.setVoice i v).freeCount = s.freeCount := rfl

/-- Reading a slot after writing one. -/
theorem State.setVoice_voice : (s.setVoice i v).voice j = if i = j then v else s.voice j := by
  simp only [State.voice, State.setVoice_voices, Fin.getElem_fin, Vector.getElem_set, Fin.ext_iff]

@[simp] theorem State.setVoice_same : (s.setVoice i v).voice i = v := by simp [State.setVoice_voice]

theorem State.setVoice_other (h : i ≠ j) : (s.setVoice i v).voice j = s.voice j := by
  simp [State.setVoice_voice, h]

end Voices

section FmRegisters
variable (s : State κ) (fm : Fm) (i : Fin κ.voices) (k : Fin κ.filters)

@[simp] theorem State.withFm_fm : (s.withFm fm).fm = fm := rfl
@[simp] theorem State.withFm_voices : (s.withFm fm).voices = s.voices := rfl
@[simp] theorem State.withFm_voice : (s.withFm fm).voice i = s.voice i := rfl
@[simp] theorem State.withFm_filt : (s.withFm fm).filt = s.filt := rfl
@[simp] theorem State.withFm_filter : (s.withFm fm).filter k = s.filter k := rfl
@[simp] theorem State.withFm_fcount : (s.withFm fm).fcount = s.fcount := rfl
@[simp] theorem State.withFm_vis : (s.withFm fm).vis = s.vis := rfl
@[simp] theorem State.withFm_vcur : (s.withFm fm).vcur = s.vcur := rfl
@[simp] theorem State.withFm_decoder : (s.withFm fm).decoder = s.decoder := rfl
@[simp] theorem State.withFm_responses : (s.withFm fm).responses = s.responses := rfl
@[simp] theorem State.withFm_refusalMark : (s.withFm fm).refusalMark = s.refusalMark := rfl
@[simp] theorem State.withFm_refusals : (s.withFm fm).refusals = s.refusals := rfl
@[simp] theorem State.withFm_port : (s.withFm fm).port = s.port := rfl
@[simp] theorem State.withFm_freeCount : (s.withFm fm).freeCount = s.freeCount := rfl

end FmRegisters

section Filters
variable (s : State κ) (k m : Fin κ.filters) (f : Filter)

theorem State.setFilter_filt : (s.setFilter k f).filt = s.filt.set k f := rfl
@[simp] theorem State.setFilter_voices : (s.setFilter k f).voices = s.voices := rfl
@[simp] theorem State.setFilter_voice (i : Fin κ.voices) : (s.setFilter k f).voice i = s.voice i := rfl
@[simp] theorem State.setFilter_fm : (s.setFilter k f).fm = s.fm := rfl
@[simp] theorem State.setFilter_fcount : (s.setFilter k f).fcount = s.fcount := rfl
@[simp] theorem State.setFilter_vis : (s.setFilter k f).vis = s.vis := rfl
@[simp] theorem State.setFilter_vcur : (s.setFilter k f).vcur = s.vcur := rfl
@[simp] theorem State.setFilter_decoder : (s.setFilter k f).decoder = s.decoder := rfl
@[simp] theorem State.setFilter_responses : (s.setFilter k f).responses = s.responses := rfl
@[simp] theorem State.setFilter_refusalMark : (s.setFilter k f).refusalMark = s.refusalMark := rfl
@[simp] theorem State.setFilter_refusals : (s.setFilter k f).refusals = s.refusals := rfl
@[simp] theorem State.setFilter_port : (s.setFilter k f).port = s.port := rfl
@[simp] theorem State.setFilter_freeCount : (s.setFilter k f).freeCount = s.freeCount := rfl

/-- Reading an entry after writing one. -/
theorem State.setFilter_filter : (s.setFilter k f).filter m = if k = m then f else s.filter m := by
  simp only [State.filter, State.setFilter_filt, Fin.getElem_fin, Vector.getElem_set, Fin.ext_iff]

@[simp] theorem State.setFilter_same : (s.setFilter k f).filter k = f := by simp [State.setFilter_filter]

theorem State.setFilter_other (h : k ≠ m) : (s.setFilter k f).filter m = s.filter m := by
  simp [State.setFilter_filter, h]

end Filters

section RingCells
variable (r : Ring κ) (i j : Fin κ.vis) (y : F32)

theorem Ring.ext_get {r t : Ring κ} (h : ∀ j, r.get j = t.get j) : r = t := by
  obtain ⟨a, ha⟩ := r
  obtain ⟨b, hb⟩ := t
  have : a = b := List.ext_getElem (ha.trans hb.symm) fun n hn _ => h ⟨n, ha ▸ hn⟩
  subst this
  rfl

/-- Reading a cell after writing one. -/
theorem Ring.get_set : (r.set i y).get j = if i = j then y else r.get j := by
  simp only [Ring.get, Ring.set, List.getElem_set, Fin.ext_iff]

@[simp] theorem Ring.get_set_same : (r.set i y).get i = y := by simp [Ring.get_set]

@[simp] theorem Ring.get_initial : Ring.initial.get j = F32.zero := by simp [Ring.get, Ring.initial]

end RingCells

section PushVis
variable (s : State κ) (y : F32)

@[simp] theorem State.pushVis_voice (i : Fin κ.voices) : (s.pushVis y).voice i = s.voice i := rfl
@[simp] theorem State.pushVis_filter (k : Fin κ.filters) : (s.pushVis y).filter k = s.filter k := rfl
@[simp] theorem State.pushVis_voices : (s.pushVis y).voices = s.voices := rfl
@[simp] theorem State.pushVis_fm : (s.pushVis y).fm = s.fm := rfl
@[simp] theorem State.pushVis_filt : (s.pushVis y).filt = s.filt := rfl
@[simp] theorem State.pushVis_fcount : (s.pushVis y).fcount = s.fcount := rfl
@[simp] theorem State.pushVis_vis : (s.pushVis y).vis = s.vis.set s.vcur y := rfl
@[simp] theorem State.pushVis_vcur : (s.pushVis y).vcur = s.ringAt 1 := rfl
@[simp] theorem State.ringAt_val (j : Nat) : (s.ringAt j).val = (s.vcur.val + j) % κ.vis := rfl
@[simp] theorem State.pushVis_decoder : (s.pushVis y).decoder = s.decoder := rfl
@[simp] theorem State.pushVis_responses : (s.pushVis y).responses = s.responses := rfl
@[simp] theorem State.pushVis_refusalMark : (s.pushVis y).refusalMark = s.refusalMark := rfl
@[simp] theorem State.pushVis_refusals : (s.pushVis y).refusals = s.refusals := rfl
@[simp] theorem State.pushVis_port : (s.pushVis y).port = s.port := rfl
@[simp] theorem State.pushVis_freeCount : (s.pushVis y).freeCount = s.freeCount := rfl

end PushVis

section Emit
variable (s : State κ) (ws : List Word)

@[simp] theorem State.emit_voice (i : Fin κ.voices) : (s.emit ws).voice i = s.voice i := rfl
@[simp] theorem State.emit_filter (k : Fin κ.filters) : (s.emit ws).filter k = s.filter k := rfl
@[simp] theorem State.emit_voices : (s.emit ws).voices = s.voices := rfl
@[simp] theorem State.emit_fm : (s.emit ws).fm = s.fm := rfl
@[simp] theorem State.emit_filt : (s.emit ws).filt = s.filt := rfl
@[simp] theorem State.emit_fcount : (s.emit ws).fcount = s.fcount := rfl
@[simp] theorem State.emit_vis : (s.emit ws).vis = s.vis := rfl
@[simp] theorem State.emit_vcur : (s.emit ws).vcur = s.vcur := rfl
@[simp] theorem State.emit_decoder : (s.emit ws).decoder = s.decoder := rfl
@[simp] theorem State.emit_responses : (s.emit ws).responses = s.responses ++ ws := rfl
@[simp] theorem State.emit_refusalMark : (s.emit ws).refusalMark = s.refusalMark := rfl
@[simp] theorem State.emit_refusals : (s.emit ws).refusals = s.refusals := rfl
@[simp] theorem State.emit_port : (s.emit ws).port = s.port := rfl
@[simp] theorem State.emit_freeCount : (s.emit ws).freeCount = s.freeCount := rfl

end Emit

section Refuse
variable (s : State κ) (r : Refusal)

@[simp] theorem State.refuse_voice (i : Fin κ.voices) : (s.refuse r).voice i = s.voice i := rfl
@[simp] theorem State.refuse_filter (k : Fin κ.filters) : (s.refuse r).filter k = s.filter k := rfl
@[simp] theorem State.refuse_voices : (s.refuse r).voices = s.voices := rfl
@[simp] theorem State.refuse_fm : (s.refuse r).fm = s.fm := rfl
@[simp] theorem State.refuse_filt : (s.refuse r).filt = s.filt := rfl
@[simp] theorem State.refuse_fcount : (s.refuse r).fcount = s.fcount := rfl
@[simp] theorem State.refuse_vis : (s.refuse r).vis = s.vis := rfl
@[simp] theorem State.refuse_vcur : (s.refuse r).vcur = s.vcur := rfl
@[simp] theorem State.refuse_decoder : (s.refuse r).decoder = s.decoder := rfl
@[simp] theorem State.refuse_responses : (s.refuse r).responses = s.responses := rfl
@[simp] theorem State.refuse_refusalMark : (s.refuse r).refusalMark = true := rfl
@[simp] theorem State.refuse_refusals : (s.refuse r).refusals = s.refusals ++ [r] := rfl
@[simp] theorem State.refuse_port : (s.refuse r).port = s.port := rfl
@[simp] theorem State.refuse_freeCount : (s.refuse r).freeCount = s.freeCount := rfl

end Refuse

section TakeReset
variable (s : State)

@[simp] theorem State.takeReset_voice (i : Fin Shape.hw.voices) : s.takeReset.voice i = State.reset.voice i := rfl
@[simp] theorem State.takeReset_filter (k : Fin Shape.hw.filters) : s.takeReset.filter k = State.reset.filter k := rfl
@[simp] theorem State.takeReset_voices : s.takeReset.voices = State.reset.voices := rfl
@[simp] theorem State.takeReset_fm : s.takeReset.fm = Fm.initial Config.hw := rfl
@[simp] theorem State.takeReset_filt : s.takeReset.filt = State.reset.filt := rfl
@[simp] theorem State.takeReset_fcount : s.takeReset.fcount = 0 := rfl
@[simp] theorem State.takeReset_vis : s.takeReset.vis = Ring.initial := rfl
@[simp] theorem State.takeReset_vcur : s.takeReset.vcur = 0 := rfl
@[simp] theorem State.takeReset_decoder : s.takeReset.decoder = .idle := rfl
@[simp] theorem State.takeReset_responses : s.takeReset.responses = s.responses := rfl
@[simp] theorem State.takeReset_refusalMark : s.takeReset.refusalMark = s.refusalMark := rfl
@[simp] theorem State.takeReset_refusals : s.takeReset.refusals = s.refusals := rfl
@[simp] theorem State.takeReset_port : s.takeReset.port = s.port := rfl
@[simp] theorem State.takeReset_freeCount : s.takeReset.freeCount = s.freeCount := rfl

end TakeReset

section AfterFetch
variable (s : State) (rest : List PortEvent)

@[simp] theorem State.afterFetch_voice (i : Fin Shape.hw.voices) : (s.afterFetch rest).voice i = s.voice i := rfl
@[simp] theorem State.afterFetch_filter (k : Fin Shape.hw.filters) : (s.afterFetch rest).filter k = s.filter k := rfl
@[simp] theorem State.afterFetch_voices : (s.afterFetch rest).voices = s.voices := rfl
@[simp] theorem State.afterFetch_fm : (s.afterFetch rest).fm = s.fm := rfl
@[simp] theorem State.afterFetch_filt : (s.afterFetch rest).filt = s.filt := rfl
@[simp] theorem State.afterFetch_fcount : (s.afterFetch rest).fcount = s.fcount := rfl
@[simp] theorem State.afterFetch_vis : (s.afterFetch rest).vis = s.vis := rfl
@[simp] theorem State.afterFetch_vcur : (s.afterFetch rest).vcur = s.vcur := rfl
@[simp] theorem State.afterFetch_decoder : (s.afterFetch rest).decoder = .idle := rfl
@[simp] theorem State.afterFetch_responses : (s.afterFetch rest).responses = s.responses := rfl
@[simp] theorem State.afterFetch_refusalMark : (s.afterFetch rest).refusalMark = s.refusalMark := rfl
@[simp] theorem State.afterFetch_refusals : (s.afterFetch rest).refusals = s.refusals := rfl
@[simp] theorem State.afterFetch_port : (s.afterFetch rest).port = rest := rfl
@[simp] theorem State.afterFetch_freeCount : (s.afterFetch rest).freeCount = s.freeCount := rfl

end AfterFetch

section Initial
variable (c : Config)

@[simp] theorem State.initial_voice (i : Fin κ.voices) : (State.initial c).voice i = Voice.initial c := by
  simp [State.voice, State.initial]
@[simp] theorem State.initial_filter (k : Fin κ.filters) : (State.initial c).filter k = Filter.initial := by
  simp [State.filter, State.initial]

end Initial

section Reset
variable (i : Fin Shape.hw.voices) (k : Fin Shape.hw.filters)

@[simp] theorem State.reset_voice : State.reset.voice i = Voice.initial Config.hw := by simp [State.reset]
@[simp] theorem State.reset_filter : State.reset.filter k = Filter.initial := by simp [State.reset]
@[simp] theorem State.reset_fm : State.reset.fm = Fm.initial Config.hw := rfl
@[simp] theorem State.reset_fcount : State.reset.fcount = 0 := rfl
@[simp] theorem State.reset_vis : State.reset.vis = Ring.initial := rfl
@[simp] theorem State.reset_vcur : State.reset.vcur = 0 := rfl
@[simp] theorem State.reset_decoder : State.reset.decoder = .idle := rfl
@[simp] theorem State.reset_responses : State.reset.responses = [] := rfl
@[simp] theorem State.reset_refusalMark : State.reset.refusalMark = false := rfl
@[simp] theorem State.reset_refusals : State.reset.refusals = [] := rfl
@[simp] theorem State.reset_port : State.reset.port = [] := rfl
@[simp] theorem State.reset_freeCount : State.reset.freeCount = 0 := rfl

end Reset

@[simp] theorem Decoder.words_ofWords (ws : List Word) : (Decoder.ofWords ws).words = ws := by cases ws <;> rfl

@[simp] theorem Decoder.ofWords_words (d : Decoder) : Decoder.ofWords d.words = d := by cases d <;> rfl

end Sys2Proof.Machine
end

