-- ==== Sys2Proof/Laws/FilterChain.lean ====
section
/-! SUPPORT. What the filter array holds after each change of the chain, entry by entry. -/

namespace Sys2Proof.Machine

variable {κ : Shape}

/-- The entry of an array that was shifted down (R222). -/
theorem shiftDown_getElem (filt : Vector Filter κ.filters) (index count : Nat) (k : Fin κ.filters) :
    (shiftDown filt index count)[k] =
      if h : index ≤ k.val ∧ k.val + 1 < count ∧ k.val + 1 < κ.filters then filt[k.val + 1]'h.2.2 else filt[k] := by
  simp [shiftDown]

/-- An entry that exists after a removal: those before the index stay, those above it come from one place up (R222). -/
theorem removeFilter_filter {index : Nat} {s : State κ} (h : index < s.fcount.val) (k : Fin κ.filters)
    (hk : k.val + 1 < s.fcount.val) :
    (removeFilter index s).filter k =
      if k.val < index then s.filter k
      else s.filter ⟨k.val + 1, Nat.lt_of_lt_of_le hk (Nat.le_of_lt_succ s.fcount.isLt)⟩ := by
  have e : (removeFilter index s).filter k = (shiftDown s.filt index s.fcount)[k] := by
    simp [removeFilter, h, State.filter]
  have h5 : k.val + 1 < κ.filters := Nat.lt_of_lt_of_le hk (Nat.le_of_lt_succ s.fcount.isLt)
  rw [e, shiftDown_getElem]
  by_cases hi : k.val < index
  · rw [dif_neg (by omega), if_pos hi]
    rfl
  · rw [dif_pos ⟨by omega, hk, h5⟩, if_neg hi]
    rfl

theorem removeFilter_fcount {index : Nat} {s : State κ} (h : index < s.fcount.val) :
    (removeFilter index s).fcount.val = s.fcount.val - 1 := by simp [removeFilter, h]

theorem addFilter_fcount (c : Config) {s : State κ} (h : s.fcount.val < κ.filters) :
    (addFilter c s).fcount.val = s.fcount.val + 1 := by simp [addFilter, h]

theorem addFilter_filter (c : Config) {s : State κ} (h : s.fcount.val < κ.filters) (k : Fin κ.filters) :
    (addFilter c s).filter k = if k.val = s.fcount.val then (s.filter k).fresh c else s.filter k := by
  have e : (addFilter c s).filter k = (s.setFilter ⟨s.fcount, h⟩ ((s.filter ⟨s.fcount, h⟩).fresh c)).filter k := by
    simp [addFilter, h, State.filter]
  rw [e, State.setFilter_filter]
  by_cases hk : k.val = s.fcount.val
  · have : (⟨s.fcount, h⟩ : Fin κ.filters) = k := Fin.ext hk.symm
    simp [hk, this]
  · have : (⟨s.fcount, h⟩ : Fin κ.filters) ≠ k := fun hc => hk (by rw [← hc])
    simp [hk, this]

theorem setFilter_filter (c : Config) {index : Nat} (t : FilterType) (v0 v1 : F32) {s : State κ} (h : index < s.fcount.val)
    (k : Fin κ.filters) :
    (setFilter c index t v0 v1 s).filter k =
      if k.val = index then (s.filter k).withParameters c t v0 v1 else s.filter k := by
  simp only [setFilter, h, dif_pos, State.setFilter_filter, Fin.ext_iff]
  by_cases hk : k.val = index
  · subst hk
    simp
  · rw [if_neg (fun hc => hk hc.symm), if_neg hk]

/-- The indices below `m + 1` are those below `m` and then `m`: how a chain grows by one filter. -/
theorem filter_finRange_succ {n m : Nat} (h : m < n) :
    ((List.finRange n).filter fun k => decide (k.val < m + 1)) =
      ((List.finRange n).filter fun k => decide (k.val < m)) ++ [⟨m, h⟩] := by
  apply List.map_injective_iff.2 Fin.val_injective
  have e : ∀ b, ((List.finRange n).filter fun k => decide (k.val < b)).map Fin.val = (List.range n).filter fun k => decide (k < b) := by
    intro b
    rw [← List.map_coe_finRange_eq_range, List.filter_map]
    rfl
  have r : ∀ b, b ≤ n → ((List.range n).filter fun k => decide (k < b)) = List.range b := by
    intro b hb
    obtain ⟨d, rfl⟩ := Nat.exists_eq_add_of_le hb
    rw [List.range_add, List.filter_append, List.filter_eq_self.2 (by simp), List.filter_eq_nil_iff.2 (by simp), List.append_nil]
  rw [List.map_append, e, e, r _ h, r _ h.le, List.range_succ]
  rfl

theorem mem_chainIndices {s : State κ} {k : Fin κ.filters} : k ∈ s.chainIndices ↔ k.val < s.fcount.val := by
  simp [State.chainIndices]

end Sys2Proof.Machine
end

