-- ==== Sys2Proof/Laws/Operands.lean ====
section
/-! SUPPORT. What the clamps guarantee, and what every valid configuration, the block's own among them, guarantees of its
bounds. -/

namespace Sys2Proof

open F32

/-! ### The clamps -/

/-- Of two values that are no NaN one is at most the other. -/
theorem le_of_not_le {x y : F32} (hx : x.isNaN = false) (hy : y.isNaN = false) (h : le x y = false) : le y x = true := by
  rw [le_iff]
  refine ⟨hy, hx, ?_⟩
  by_contra hc
  rw [le_iff.2 ⟨hx, hy, by omega⟩] at h
  exact absurd h (by decide)

/-- A clamped value lies between the bounds, whatever the operand. -/
theorem clamp_between (x : F32) {lo hi : F32} (h : le lo hi = true) :
    le lo (clamp x lo hi) = true ∧ le (clamp x lo hi) hi = true := by
  have hlo := not_isNaN_of_le_left h
  have hhi := not_isNaN_of_le_right h
  unfold clamp
  split_ifs with h1 h2
  · exact ⟨le_refl hlo, h⟩
  · exact ⟨h, le_refl hhi⟩
  · simp only [Bool.or_eq_true, not_or, Bool.not_eq_true] at h1 h2
    exact ⟨le_of_not_le h1.1 hlo h1.2, le_of_not_le hhi h1.1 h2⟩

theorem clampMin_ge (x : F32) {lo : F32} (h : lo.isNaN = false) : le lo (clampMin x lo) = true := by
  unfold clampMin
  split_ifs with h1
  · exact le_refl h
  · simp only [Bool.or_eq_true, not_or, Bool.not_eq_true] at h1
    exact le_of_not_le h1.1 h h1.2

/-- A value inside the range is its own clamp, but for the sign of a zero at the lower bound. -/
theorem clamp_of_inside {x lo hi : F32} (h₁ : lt lo x = true) (h₂ : lt x hi = true) : clamp x lo hi = x := by
  rw [lt_iff] at h₁ h₂
  have a : le x lo = false := by
    rw [Bool.eq_false_iff]
    intro hc
    have := (le_iff.1 hc).2.2
    omega
  have b : ge x hi = false := by
    rw [Bool.eq_false_iff]
    intro hc
    have := (ge_iff.1 hc).2.2
    omega
  simp [clamp, h₁.2.1, a, b]

/-! ### Valid configurations -/

theorem Config.withReferenceNumbers_valid (c : Config) : c.withReferenceNumbers.valid = true := by
  show ((⟨0x472C4400⟩ : F32).isFinite && ge ⟨0x472C4400⟩ twoHundredForty && lt zero ⟨0x3F800000⟩
    && le ⟨0x3F800000⟩ (div ⟨0x472C4400⟩ two) && lt zero ⟨0x3A800000⟩) = true
  decide

section HardwareValues
variable (c : Config)

@[simp] theorem Config.withHardwareValues_valid : c.withHardwareValues.valid = c.valid := rfl
@[simp] theorem Config.withHardwareValues_stepFinite : c.withHardwareValues.stepFinite = c.stepFinite := rfl
@[simp] theorem Config.withHardwareValues_cutoffMin : c.withHardwareValues.cutoffMin = ⟨0x41A00000⟩ := rfl
@[simp] theorem Config.withHardwareValues_qMin : c.withHardwareValues.qMin = ⟨0x3D4CCCCD⟩ := rfl
@[simp] theorem Config.withHardwareValues_betaMin : c.withHardwareValues.betaMin = ⟨0x00000000⟩ := rfl
@[simp] theorem Config.withHardwareValues_betaMax : c.withHardwareValues.betaMax = ⟨0x3F800000⟩ := rfl
@[simp] theorem Config.withHardwareValues_filterDefaultType : c.withHardwareValues.filterDefaultType = .lowPass := rfl
@[simp] theorem Config.withHardwareValues_normPolicy : c.withHardwareValues.normPolicy = .divideByCount := rfl
@[simp] theorem Config.withHardwareValues_twice : c.withHardwareValues.withHardwareValues = c.withHardwareValues := rfl

end HardwareValues

section Hw

@[simp] theorem Config.hw_cutoffMin : Config.hw.cutoffMin = ⟨0x41A00000⟩ := rfl
@[simp] theorem Config.hw_qMin : Config.hw.qMin = ⟨0x3D4CCCCD⟩ := rfl
@[simp] theorem Config.hw_betaMin : Config.hw.betaMin = ⟨0x00000000⟩ := rfl
@[simp] theorem Config.hw_betaMax : Config.hw.betaMax = ⟨0x3F800000⟩ := rfl
@[simp] theorem Config.hw_filterDefaultType : Config.hw.filterDefaultType = .lowPass := rfl
@[simp] theorem Config.hw_normPolicy : Config.hw.normPolicy = .divideByCount := rfl

end Hw

/-- The block's configuration is one with this hardware's values (R9). -/
theorem Config.hw_eq_withHardwareValues : Config.hw = Config.hw.withHardwareValues := rfl

/-- The block's configuration meets the constraints (R10). -/
theorem Config.hw_valid : Config.hw.valid = true := by
  unfold Config.hw
  rw [Config.withHardwareValues_valid]
  split_ifs with h
  · exact h
  · exact Config.chosen.withReferenceNumbers_valid

/-- The constraints of R10, one by one. -/
theorem Config.valid_parts {c : Config} (h : c.valid = true) : c.sr.isFinite = true ∧ ge c.sr twoHundredForty = true
    ∧ lt zero c.freqMin = true ∧ le c.freqMin c.freqMax = true ∧ lt zero c.ratioMin = true := by
  simpa [Config.valid, and_assoc] using h

section Valid
variable {c : Config} (h : c.valid = true)
include h

theorem Config.freq_bounds : le c.freqMin c.freqMax = true := (Config.valid_parts h).2.2.2.1

theorem Config.ratioMin_not_isNaN : c.ratioMin.isNaN = false := (lt_iff.1 (Config.valid_parts h).2.2.2.2).2.1

/-- Half the sample rate is finite and at least 120.0. -/
theorem Config.freqMax_ge : le ⟨0x42F00000⟩ c.freqMax = true ∧ c.freqMax.isFinite = true := by
  obtain ⟨hf, hge, -⟩ := Config.valid_parts h
  have hle : le twoHundredForty c.sr = true := hge
  have hr := (le_iff.1 hle).2.2
  have h240 : twoHundredForty.rank = twoHundredForty.magBits := by decide +kernel
  have hpos : c.sr.sign = false := by
    by_contra hc
    simp only [Bool.not_eq_false] at hc
    unfold rank at hr
    rw [hc] at hr
    have : twoHundredForty.sign = false := by decide
    rw [this] at hr
    have : twoHundredForty.magBits = 0x43700000 := by decide +kernel
    simp only [Bool.false_eq_true, if_false, if_true] at hr
    omega
  have hm : twoHundredForty.magBits ≤ c.sr.magBits := by
    rw [h240] at hr
    unfold rank at hr
    rw [hpos] at hr
    simpa using hr
  have e : c.freqMax = div c.sr two := rfl
  have f2 : two.isFinite = true := by decide
  have z2 : two.isZero = false := by decide
  have f240 : twoHundredForty.isFinite = true := by decide
  have hdiv := div_magBits_mono f240 f2 hf f2 z2 z2 hm (Nat.le_refl _)
  have h120 : div twoHundredForty two = ⟨0x42F00000⟩ := by decide +kernel
  rw [h120] at hdiv
  have hs : c.freqMax.sign = false := by
    rw [e, div_sign hf f2 z2, hpos]
    decide
  constructor
  · rw [le_iff]
    refine ⟨by decide, ?_, ?_⟩
    · rw [e]; exact div_isNaN hf f2 z2
    · rw [rank, rank, hs, show (⟨0x42F00000⟩ : F32).sign = false by decide]
      simpa [e] using hdiv
  · have hx := div_magBits_mono hf f2 hf (y := two) (y' := one) (by decide) z2 (by decide) (Nat.le_refl _) (by decide +kernel)
    have h1 : (div c.sr one).magBits = c.sr.magBits := by
      rw [div_parts hf (by decide) (by decide), ofParts_magBits _ _ (roundMag_lt _ _)]
      have : one.mag = 2 ^ 149 := by decide
      rw [this, mag_eq_magOf]
      simp only [isFinite, decide_eq_true_eq] at hf
      exact roundMag_magOf _ _ (Nat.two_pow_pos _) hf.le
    rw [h1] at hx
    simp only [isFinite, decide_eq_true_eq] at hf ⊢
    rw [e]
    exact lt_of_le_of_lt hx hf

/-- With this hardware's `CUTOFF_MIN` the cutoff range is not empty: `CUTOFF_MIN <= CUTOFF_MAX` (R10). -/
theorem Config.cutoff_bounds : le ⟨0x41A00000⟩ c.cutoffMax = true := by
  obtain ⟨h1, h2⟩ := Config.freqMax_ge h
  have := sub_mono (x := ⟨0x42F00000⟩) (x' := c.freqMax) (y := hundred) (y' := hundred) (by decide) h2 (by decide)
    (by decide) h1 (by decide)
  have e : sub ⟨0x42F00000⟩ hundred = ⟨0x41A00000⟩ := by decide +kernel
  rw [e] at this
  exact this

end Valid

end Sys2Proof
end

