-- ==== Sys2Proof/Laws/PerInstr.lean ====
section
/-! SUPPORT. The law of the encoder that holds of every command, one lemma per constructor: an encoding is as long as the
length rule takes from its header (spec/30_encoding.md R81). -/

namespace Sys2Proof.Laws.EncodeLength

/-- The encoding begins with a header whose length rule counts its words. -/
def Statement (i : Instr) : Prop := ∃ h operands, encode i = h :: operands ∧ operands.length + 1 = commandLength h

theorem nop : Statement .nop := ⟨_, _, rfl, by simp [commandLength]⟩

theorem noteon (key : Key) (v0 : F32) : Statement (.noteon key v0) := ⟨_, _, rfl, by simp [commandLength]⟩

theorem noteoff (key : Key) : Statement (.noteoff key) := ⟨_, _, rfl, by simp [commandLength]⟩

theorem setwv (slot : Nat) (wave : Waveform) : Statement (.setwv slot wave) := ⟨_, _, rfl, by simp [commandLength]⟩

theorem setwva (wave : Waveform) : Statement (.setwva wave) := ⟨_, _, rfl, by simp [commandLength]⟩

theorem setfm (enabled : Bool) (wave : Waveform) (mode : FmMode) (v0 v1 : F32) :
    Statement (.setfm enabled wave mode v0 v1) := ⟨_, _, rfl, by simp [commandLength]⟩

theorem addflt : Statement .addflt := ⟨_, _, rfl, by simp [commandLength]⟩

theorem rmflt (index : Nat) : Statement (.rmflt index) := ⟨_, _, rfl, by simp [commandLength]⟩

theorem setflt (index : Nat) (ftype : FilterType) (v0 v1 : F32) : Statement (.setflt index ftype v0 v1) :=
  ⟨_, _, rfl, by simp [commandLength]⟩

theorem render (n : Nat) : Statement (.render n) := ⟨_, _, rfl, by simp [commandLength]⟩

theorem rdvis : Statement .rdvis := ⟨_, _, rfl, by simp [commandLength]⟩

end Sys2Proof.Laws.EncodeLength
end

