-- ==== Sys2Proof/Laws/Port.lean ====
section
/-! SUPPORT. How the port collects words: what `fetch` answers on words that are not whole yet, and on the word or the reset
that ends the collecting. -/

namespace Sys2Proof.Machine

/-- Whether words are whole is decided by the header and the count. -/
theorem wholeCommand_cons (h : Word) (ws : List Word) : wholeCommand (h :: ws) = decide (commandLength h ≤ ws.length + 1) := rfl

/-- No beginning of a sequence that is not whole is whole. -/
theorem wholeCommand_prefix {ws more : List Word} (h : wholeCommand (ws ++ more) = false) : wholeCommand ws = false := by
  cases ws with
  | nil => rfl
  | cons w ws =>
    simp only [List.cons_append, wholeCommand_cons, decide_eq_false_iff_not, List.length_append] at h ⊢
    omega

/-- Words that do not complete a command are collected, and the fetch goes on after them. -/
theorem fetch_collect (held ws : List Word) (rest : List PortEvent) (h : wholeCommand (held ++ ws) = false) :
    fetch held (ws.map PortEvent.word ++ rest) = fetch (held ++ ws) rest := by
  induction ws generalizing held with
  | nil => simp
  | cons w ws ih =>
    have e : held ++ w :: ws = held ++ [w] ++ ws := by simp
    rw [e] at h
    have hw := wholeCommand_prefix h
    simp only [List.map_cons, List.cons_append, fetch, hw, Bool.false_eq_true, if_false]
    rw [ih _ h, e]

/-- The word that completes a command ends the fetch. -/
theorem fetch_command (held ws : List Word) (w : Word) (rest : List PortEvent) (h : wholeCommand (held ++ ws) = false)
    (hw : wholeCommand (held ++ ws ++ [w]) = true) :
    fetch held (ws.map PortEvent.word ++ .word w :: rest) = .command (held ++ ws ++ [w]) rest := by
  rw [fetch_collect held ws _ h]
  simp only [fetch, hw, if_true]

/-- A word during whose command reset is asserted ends the fetch. -/
theorem fetch_interrupted (held ws : List Word) (w : Word) (rest : List PortEvent) (h : wholeCommand (held ++ ws) = false) :
    fetch held (ws.map PortEvent.word ++ .interrupted w :: rest)
      = if wholeCommand (held ++ ws ++ [w]) then .interrupted (held ++ ws ++ [w]) rest else .reset rest := by
  rw [fetch_collect held ws _ h]
  simp [fetch]

/-- Reset before a command is whole ends the fetch. -/
theorem fetch_reset (held ws : List Word) (rest : List PortEvent) (h : wholeCommand (held ++ ws) = false) :
    fetch held (ws.map PortEvent.word ++ .reset :: rest) = .reset rest := by
  rw [fetch_collect held ws _ h]
  rfl

/-- Where nothing completes a command the fetch waits. -/
theorem fetch_waiting (held ws : List Word) (h : wholeCommand (held ++ ws) = false) :
    fetch held (ws.map PortEvent.word) = .waiting (held ++ ws) := by
  have := fetch_collect held ws [] h
  rw [List.append_nil] at this
  rw [this]
  rfl

/-- What is left waiting is never a whole command. -/
theorem fetch_waiting_not_whole {held : List Word} {events : List PortEvent} {got : List Word}
    (h : wholeCommand held = false) (hf : fetch held events = .waiting got) : wholeCommand got = false := by
  induction events generalizing held with
  | nil =>
    simp only [fetch, Fetched.waiting.injEq] at hf
    exact hf ▸ h
  | cons e rest ih =>
    cases e with
    | reset => simp [fetch] at hf
    | word w =>
      simp only [fetch] at hf
      split_ifs at hf with hw
      exact ih (by simpa using hw) hf
    | interrupted w =>
      simp only [fetch] at hf
      split_ifs at hf

/-- What a fetch hands over as a command is whole. -/
theorem fetch_command_whole {held : List Word} {events rest : List PortEvent} {words : List Word}
    (hf : fetch held events = .command words rest ∨ fetch held events = .interrupted words rest) :
    wholeCommand words = true := by
  induction events generalizing held with
  | nil => simp [fetch] at hf
  | cons e more ih =>
    cases e with
    | reset => simp [fetch] at hf
    | word w =>
      simp only [fetch] at hf
      split_ifs at hf with hw
      · simp only [Fetched.command.injEq, or_false] at hf
        exact hf.1 ▸ hw
      · exact ih hf
    | interrupted w =>
      simp only [fetch] at hf
      split_ifs at hf with hw
      · simp only [Fetched.interrupted.injEq, false_or] at hf
        exact hf.1 ▸ hw
      · simp at hf

/-- The decoder never answers "incomplete" on a whole command. -/
theorem decode_whole_ne_incomplete {words : List Word} (h : wholeCommand words = true) : decode words ≠ .incomplete := by
  cases words with
  | nil => simp [wholeCommand] at h
  | cons w ws =>
    simp only [wholeCommand_cons, decide_eq_true_eq] at h
    simp only [decode, Nat.not_lt.2 h, if_false]
    cases decodeCommand w (ws.take (commandLength w - 1)) <;> simp

end Sys2Proof.Machine
end

