-- ==== Sys2Proof/Laws/VoicePool.lean ====
section
/-! SUPPORT. The searches over the voice file: what it means that one finds a slot, and that it finds none. -/

namespace Sys2Proof.Machine

variable {κ : Shape}

/-- A search over the slots in slot order finds the least one that meets the test. -/
theorem find_slot_eq_some {n : Nat} {p : Fin n → Bool} {i : Fin n} :
    (List.finRange n).find? p = some i ↔ p i = true ∧ ∀ j < i, p j = false := by
  rw [List.find?_eq_some_iff_getElem]
  constructor
  · rintro ⟨hp, k, hk, hki, hlt⟩
    simp only [List.getElem_finRange] at hki hlt
    refine ⟨hp, fun j hj => ?_⟩
    have hjk : j.val < k := by
      have : i.val = k := by rw [← hki]; rfl
      omega
    have := hlt j.val hjk
    simpa using this
  · rintro ⟨hp, hlt⟩
    refine ⟨hp, i.val, by simp, by simp, fun j hj => ?_⟩
    simp only [List.getElem_finRange]
    have := hlt ⟨j, by omega⟩ (Fin.lt_def.2 hj)
    simpa using this

theorem find_slot_eq_none {n : Nat} {p : Fin n → Bool} : (List.finRange n).find? p = none ↔ ∀ i, p i = false := by
  simp [List.find?_eq_none]

theorem Voice.holds_iff (v : Voice κ) (key : BitVec κ.keyWidth) : v.holds key = true ↔ v.active = true ∧ v.key = key := by
  simp [Voice.holds]

section
variable {s : State κ} {key : BitVec κ.keyWidth} {i : Fin κ.voices}

theorem State.findKey_eq_some :
    s.findKey key = some i ↔ (s.voice i).holds key = true ∧ ∀ j < i, (s.voice j).holds key = false := find_slot_eq_some

theorem State.findKey_eq_none : s.findKey key = none ↔ ∀ i, (s.voice i).holds key = false := find_slot_eq_none

theorem State.findInactive_eq_some :
    s.findInactive = some i ↔ (s.voice i).active = false ∧ ∀ j < i, (s.voice j).active = true := by
  unfold State.findInactive
  rw [find_slot_eq_some]
  simp

theorem State.findInactive_eq_none : s.findInactive = none ↔ ∀ i, (s.voice i).active = true := by
  unfold State.findInactive
  rw [find_slot_eq_none]
  simp

theorem State.mem_activeVoices : i ∈ s.activeVoices ↔ (s.voice i).active = true := by simp [State.activeVoices]

end

/-- A command that only writes voice slots leaves the rest of the state. -/
theorem State.eq_of_voices {s t : State κ} (h : ∀ i, t.voice i = s.voice i) (hr : { t with voices := s.voices } = s) : t = s := by
  have : t.voices = s.voices := by
    apply Vector.ext
    intro i hi
    exact h ⟨i, hi⟩
  rw [← hr, ← this]

end Sys2Proof.Machine
end

