-- ==== Sys2Proof/Laws/Render.lean ====
section
/-! SUPPORT. What rendering can do: one frame lemma per operation of the render loop, and what `RENDER n` emits. -/

namespace Sys2Proof.Machine

variable {κ : Shape}

/-! ### The frame is an order -/

theorem RenderFrame.refl (s : State κ) : RenderFrame s s := by constructor <;> intros <;> rfl

theorem RenderFrame.trans {s t u : State κ} (h : RenderFrame s t) (g : RenderFrame t u) : RenderFrame s u where
  voice i := by
    rw [g.voice i, h.voice i]
  frozen i hi := by
    have hv := h.frozen i hi
    rw [g.frozen i (by rw [hv]; exact hi), hv]
  fm := by rw [g.fm, h.fm]
  filter k := by
    rw [g.filter k, h.filter k]
  absent k hk := by
    rw [g.absent k (by rw [h.fcount]; exact hk), h.absent k hk]
  fcount := g.fcount.trans h.fcount
  decoder := g.decoder.trans h.decoder
  responses := g.responses.trans h.responses
  refusalMark := g.refusalMark.trans h.refusalMark
  refusals := g.refusals.trans h.refusals
  port := g.port.trans h.port
  freeCount := g.freeCount.trans h.freeCount

/-! ### The parts of one sample -/

theorem renderVoice_frame (c : Config) (v : Fin κ.voices) (s : State κ) (hv : (s.voice v).active = true) :
    RenderFrame s (renderVoice c v s).1 where
  voice i := by
    simp only [renderVoice, State.setVoice_voice]
    split_ifs with h
    · subst h; rfl
    · rfl
  frozen i hi := by
    have : v ≠ i := by
      rintro rfl
      simp [hv] at hi
    simp [renderVoice, State.setVoice_voice, this]
  fm := rfl
  filter _ := rfl
  absent _ _ := rfl
  fcount := rfl
  decoder := rfl
  responses := rfl
  refusalMark := rfl
  refusals := rfl
  port := rfl
  freeCount := rfl

theorem renderModulated_frame (c : Config) (v : Fin κ.voices) (s : State κ) (hv : (s.voice v).active = true) :
    RenderFrame s (renderModulated c v s).1 where
  voice i := by
    simp only [renderModulated, State.setVoice_voice, State.withFm_voice]
    split_ifs with h
    · subst h; rfl
    · rfl
  frozen i hi := by
    have : v ≠ i := by
      rintro rfl
      simp [hv] at hi
    simp [renderModulated, State.setVoice_voice, this]
  fm := rfl
  filter _ := rfl
  absent _ _ := rfl
  fcount := rfl
  decoder := rfl
  responses := rfl
  refusalMark := rfl
  refusals := rfl
  port := rfl
  freeCount := rfl

theorem mixVoice_frame (c : Config) (acc : State κ × F32) (v : Fin κ.voices) (hv : (acc.1.voice v).active = true) :
    RenderFrame acc.1 (mixVoice c acc v).1 := by
  simp only [mixVoice]
  split_ifs
  · exact renderModulated_frame c v acc.1 hv
  · exact renderVoice_frame c v acc.1 hv

/-- A frame keeps which slots are active. -/
theorem RenderFrame.active {s t : State κ} (h : RenderFrame s t) (i : Fin κ.voices) :
    (t.voice i).active = (s.voice i).active := by rw [h.voice i]

theorem RenderFrame.activeVoices {s t : State κ} (h : RenderFrame s t) : t.activeVoices = s.activeVoices := by
  simp only [State.activeVoices, h.active]

theorem foldl_mixVoice_frame (c : Config) (vs : List (Fin κ.voices)) (acc : State κ × F32)
    (hv : ∀ v ∈ vs, (acc.1.voice v).active = true) : RenderFrame acc.1 (vs.foldl (mixVoice c) acc).1 := by
  induction vs generalizing acc with
  | nil => exact RenderFrame.refl _
  | cons v vs ih =>
    have h1 := mixVoice_frame c acc v (hv v (by simp))
    refine h1.trans (ih (mixVoice c acc v) fun w hw => ?_)
    rw [h1.active]
    exact hv w (by simp [hw])

theorem mixVoices_frame (c : Config) (s : State κ) : RenderFrame s (mixVoices c s).1 :=
  foldl_mixVoice_frame c _ (s, _) fun _ hv => State.mem_activeVoices.1 hv

theorem process_frame (acc : State κ × F32) (k : Fin κ.filters) (hk : k.val < acc.1.fcount.val) :
    RenderFrame acc.1 (process acc k).1 where
  voice _ := rfl
  frozen _ _ := rfl
  fm := rfl
  filter m := by
    simp only [process, State.setFilter_filter]
    split_ifs with h
    · subst h; rfl
    · rfl
  absent m hm := by
    have : k ≠ m := by
      rintro rfl
      omega
    simp [process, State.setFilter_filter, this]
  fcount := rfl
  decoder := rfl
  responses := rfl
  refusalMark := rfl
  refusals := rfl
  port := rfl
  freeCount := rfl

theorem foldl_process_frame (ks : List (Fin κ.filters)) (acc : State κ × F32)
    (hk : ∀ k ∈ ks, k.val < acc.1.fcount.val) : RenderFrame acc.1 (ks.foldl process acc).1 := by
  induction ks generalizing acc with
  | nil => exact RenderFrame.refl _
  | cons k ks ih =>
    have h1 := process_frame acc k (hk k (by simp))
    refine h1.trans (ih (process acc k) fun m hm => ?_)
    rw [h1.fcount]
    exact hk m (by simp [hm])

theorem chain_frame (x : F32) (s : State κ) : RenderFrame s (chain x s).1 :=
  foldl_process_frame _ (s, x) fun k hk => by simpa [State.chainIndices] using hk

theorem pushVis_frame (s : State κ) (y : F32) : RenderFrame s (s.pushVis y) := by constructor <;> intros <;> rfl

theorem sampleStep_frame (c : Config) (s : State κ) : RenderFrame s (sampleStep c s).1 :=
  ((mixVoices_frame c s).trans (chain_frame _ _)).trans (pushVis_frame _ _)

theorem renderSamples_frame (c : Config) (n : Nat) (s : State κ) : RenderFrame s (renderSamples c n s).1 := by
  induction n generalizing s with
  | zero => exact RenderFrame.refl s
  | succ n ih => exact (sampleStep_frame c s).trans (ih _)

/-! ### The ring and the samples -/

/-- Only the append at the end of a sample touches the ring. -/
theorem foldl_ring {α : Type} (f : State κ × F32 → α → State κ × F32) (hf : ∀ acc a, (f acc a).1.vis = acc.1.vis ∧
    (f acc a).1.vcur = acc.1.vcur) (l : List α) (acc : State κ × F32) :
    (l.foldl f acc).1.vis = acc.1.vis ∧ (l.foldl f acc).1.vcur = acc.1.vcur := by
  induction l generalizing acc with
  | nil => exact ⟨rfl, rfl⟩
  | cons a l ih =>
    have h := ih (f acc a)
    exact ⟨h.1.trans (hf acc a).1, h.2.trans (hf acc a).2⟩

theorem mixVoices_ring (c : Config) (s : State κ) : (mixVoices c s).1.vis = s.vis ∧ (mixVoices c s).1.vcur = s.vcur :=
  foldl_ring (mixVoice c) (fun acc v => by simp only [mixVoice]; split_ifs <;> exact ⟨rfl, rfl⟩) _ _

/-- The mix reads and writes voices and the modulator only: the filter array stays. -/
theorem mixVoices_filt (c : Config) (s : State κ) : (mixVoices c s).1.filt = s.filt := by
  suffices h : ∀ (l : List (Fin κ.voices)) (acc : State κ × F32), (l.foldl (mixVoice c) acc).1.filt = acc.1.filt from h _ _
  intro l
  induction l with
  | nil => intro _; rfl
  | cons v l ih =>
    intro acc
    rw [List.foldl_cons, ih]
    simp only [mixVoice]
    split_ifs <;> rfl

theorem mixVoices_fcount (c : Config) (s : State κ) : (mixVoices c s).1.fcount = s.fcount := (mixVoices_frame c s).fcount

theorem chain_ring (x : F32) (s : State κ) : (chain x s).1.vis = s.vis ∧ (chain x s).1.vcur = s.vcur :=
  foldl_ring process (fun _ _ => ⟨rfl, rfl⟩) _ _

theorem sampleStep_ring (c : Config) (s : State κ) :
    (sampleStep c s).1.vis = s.vis.set s.vcur (sampleStep c s).2 ∧ (sampleStep c s).1.vcur = s.ringAt 1 := by
  have h1 := mixVoices_ring c s
  have h2 := chain_ring (normalise c.normPolicy (mixVoices c s).2 s.activeVoices.length) (mixVoices c s).1
  simp only [sampleStep, State.pushVis_vis, State.pushVis_vcur, State.ringAt, h2.1, h2.2, h1.1, h1.2, and_self]

theorem renderSamples_length (c : Config) (n : Nat) (s : State κ) : (renderSamples c n s).2.length = n := by
  induction n generalizing s with
  | zero => rfl
  | succ n ih => simp [renderSamples, ih]

/-- `m + n` sample steps are `m` and then `n`. -/
theorem renderSamples_add (c : Config) (m n : Nat) (s : State κ) :
    renderSamples c (m + n) s =
      ((renderSamples c n (renderSamples c m s).1).1,
        (renderSamples c m s).2 ++ (renderSamples c n (renderSamples c m s).1).2) := by
  induction m generalizing s with
  | zero => simp [renderSamples]
  | succ m ih =>
    rw [Nat.add_right_comm]
    simp [renderSamples, ih]

@[simp] theorem visWindow_length (s : State κ) : (visWindow s).length = κ.vis := by simp [visWindow]

/-- The window is the ring read from the cursor on (R38, R270). -/
theorem visWindow_eq_rotate (s : State κ) : visWindow s = s.vis.cells.rotate s.vcur := by
  have hs := s.vis.size
  apply List.ext_getElem
  · rw [visWindow_length, List.length_rotate, hs]
  · intro j h1 h2
    rw [List.getElem_rotate]
    simp only [visWindow, List.getElem_map, List.getElem_range, Ring.get, State.ringAt_val, hs, Nat.add_comm]

/-- Overwriting the oldest cell and moving the start past it drops the first element and appends the new one. -/
theorem rotate_push {α : Type} (l : List α) (v : Nat) (hv : v < l.length) (y : α) :
    (l.set v y).rotate ((v + 1) % l.length) = (l.rotate v).drop 1 ++ [y] := by
  have h1 : (l.set v y).rotate ((v + 1) % l.length) = (l.set v y).rotate (v + 1) := by
    have := List.rotate_mod (l.set v y) (v + 1)
    rwa [List.length_set] at this
  rw [h1, List.rotate_eq_drop_append_take (by simp; omega), List.rotate_eq_drop_append_take hv.le]
  rw [List.drop_append_of_le_length (by simp; omega), List.drop_drop, List.drop_set_of_lt (by omega)]
  rw [List.append_assoc]
  congr 1
  rw [List.take_succ_eq_append_getElem (by simpa using hv)]
  simp [List.take_set_of_le]

/-- An append moves the window by one sample (R266). -/
theorem visWindow_pushVis (s : State κ) (y : F32) : visWindow (s.pushVis y) = (visWindow s).drop 1 ++ [y] := by
  rw [visWindow_eq_rotate, visWindow_eq_rotate]
  have hs := s.vis.size
  have := rotate_push s.vis.cells s.vcur (by rw [hs]; exact s.vcur.isLt) y
  rw [← this, hs]
  rfl

theorem visWindow_sampleStep (c : Config) (s : State κ) : visWindow (sampleStep c s).1 = (visWindow s).drop 1 ++ [(sampleStep c s).2] := by
  have h1 := mixVoices_ring c s
  have h2 := chain_ring (normalise c.normPolicy (mixVoices c s).2 s.activeVoices.length) (mixVoices c s).1
  rw [← visWindow_pushVis]
  rw [visWindow_eq_rotate, visWindow_eq_rotate]
  simp only [sampleStep, State.pushVis_vis, State.pushVis_vcur, State.ringAt, h2.1, h2.2, h1.1, h1.2]

end Sys2Proof.Machine
end

