-- ==== Sys2Proof/Machine/Assembler.lean ====
section
/-! DEFINITION. The assembly syntax of spec/30_encoding.md R97: a line of text to a command, a program to the words that the
host sends.  It is the host's tool and no part of the block; the worked encodings of R99 are written in it.  The lexical
details R97 does not give are a DESIGN CHOICE (log entry 12). -/

namespace Sys2Proof.Assembler

open Sys2Proof

/-- A space, a tab or a carriage return. -/
def isBlank (c : Char) : Bool := c == ' ' || c == '\t' || c == '\r'

/-- The text without blanks at either end. -/
def trim (cs : List Char) : List Char := ((cs.dropWhile isBlank).reverse.dropWhile isBlank).reverse

/-- What stands before a comment (R97: comments start with `;`). -/
def dropComment (cs : List Char) : List Char := cs.takeWhile (· != ';')

/-- The value of a digit in a base up to 16. -/
def digit (base : Nat) (c : Char) : Option Nat :=
  let v :=
    if '0' ≤ c ∧ c ≤ '9' then c.toNat - '0'.toNat
    else if 'a' ≤ c ∧ c ≤ 'f' then c.toNat - 'a'.toNat + 10
    else if 'A' ≤ c ∧ c ≤ 'F' then c.toNat - 'A'.toNat + 10
    else 16
  if v < base then some v else none

/-- Digits, one or more, most significant first, continued from `acc`. -/
def digitsFrom (base acc : Nat) : List Char → Option Nat
  | [] => some acc
  | c :: cs => (digit base c).bind fun v => digitsFrom base (acc * base + v) cs

def digits (base : Nat) (cs : List Char) : Option Nat := if cs.isEmpty then none else digitsFrom base 0 cs

/-- `<key>`, `<slot>`, `<index>`, `<N>`: an unsigned integer, decimal or `0x` hexadecimal, at most 0xFFFF (R97). -/
def imm (cs : List Char) : Option Nat :=
  let n := match cs with
    | '0' :: 'x' :: ds => digits 16 ds
    | ds => digits 10 ds
  n.bind fun v => if fitsImm v then some v else none

/-- `<wave>` (R97). -/
def waveform (cs : List Char) : Option Waveform :=
  if cs = "sine".toList then some .sine
  else if cs = "square".toList then some .square
  else if cs = "triangle".toList then some .triangle
  else if cs = "saw".toList then some .saw
  else none

/-- `<ftype>` (R97). -/
def filterType (cs : List Char) : Option FilterType :=
  if cs = "lowpass".toList then some .lowPass
  else if cs = "highpass".toList then some .highPass
  else if cs = "bandpass".toList then some .bandPass
  else if cs = "notch".toList then some .notch
  else none

/-- `<en>` (R97). -/
def enabled (cs : List Char) : Option Bool :=
  if cs = "on".toList then some true else if cs = "off".toList then some false else none

/-- `<mode>` (R97). -/
def mode (cs : List Char) : Option FmMode :=
  if cs = "harmonic".toList then some .harmonic
  else if cs = "inharmonic".toList then some .inharmonic
  else none

/-- The binary32 value nearest to `±n * 10^up / 10^down`, ties to even (R97). -/
def nearest (negative : Bool) (n up down : Nat) : F32 :=
  F32.ofParts negative (F32.roundMag (n * 10 ^ up * 2 ^ 149) (10 ^ down))

/-- The exponent part of a decimal literal: what it multiplies and what it divides by, as powers of ten. -/
def exponent (cs : List Char) : Option (Nat × Nat) :=
  match cs with
  | [] => some (0, 0)
  | _ :: '-' :: ds => (digits 10 ds).map fun e => (0, e)
  | _ :: '+' :: ds => (digits 10 ds).map fun e => (e, 0)
  | _ :: ds => (digits 10 ds).map fun e => (e, 0)

def isExponentMark (c : Char) : Bool := c == 'e' || c == 'E'

/-- A decimal literal without its sign: digits, optionally a point and digits, optionally an exponent. -/
def unsignedDecimal (negative : Bool) (cs : List Char) : Option F32 :=
  let mantissa := cs.takeWhile fun c => !isExponentMark c
  let whole := mantissa.takeWhile (· != '.')
  let fraction := mantissa.drop (whole.length + 1)
  if mantissa.length = whole.length + 1 then none
  else
    (digits 10 whole).bind fun _ =>
      (digits 10 (whole ++ fraction)).bind fun n =>
        (exponent (cs.drop mantissa.length)).map fun e => nearest negative n e.1 (fraction.length + e.2)

/-- `<freq>`, `<value>`, `<beta>`, `<cutoff>`, `<resonance>`: a decimal literal, or `f32:0xHHHHHHHH` (R97). -/
def real (cs : List Char) : Option F32 :=
  match cs with
  | 'f' :: '3' :: '2' :: ':' :: '0' :: 'x' :: ds =>
    if ds.length = 8 then (digits 16 ds).map fun n => ⟨BitVec.ofNat 32 n⟩ else none
  | '-' :: ds => unsignedDecimal true ds
  | ds => unsignedDecimal false ds

/-- The operands of a line: what stands between the commas, blanks dropped. -/
def splitOperands (cs : List Char) : List (List Char) :=
  if (trim cs).isEmpty then [] else ((trim cs).splitOn ',').map trim

/-- One command from its mnemonic and its operands (R97). -/
def command (mnemonic : List Char) (operands : List (List Char)) : Option Instr :=
  match operands with
  | [] =>
    if mnemonic = "NOP".toList then some .nop
    else if mnemonic = "ADDFLT".toList then some .addflt
    else if mnemonic = "RDVIS".toList then some .rdvis
    else none
  | [a] =>
    if mnemonic = "NOTEOFF".toList then (imm a).map fun k => .noteoff (BitVec.ofNat 16 k)
    else if mnemonic = "SETWVA".toList then (waveform a).map .setwva
    else if mnemonic = "RMFLT".toList then (imm a).map .rmflt
    else if mnemonic = "RENDER".toList then (imm a).map .render
    else none
  | [a, b] =>
    if mnemonic = "NOTEON".toList then
      (imm a).bind fun k => (real b).map fun f => .noteon (BitVec.ofNat 16 k) f
    else if mnemonic = "SETWV".toList then
      (imm a).bind fun slot => (waveform b).map fun w => .setwv slot w
    else none
  | [a, b, c, d] =>
    if mnemonic = "SETFLT".toList then
      (imm a).bind fun k => (filterType b).bind fun t => (real c).bind fun x => (real d).map fun q => .setflt k t x q
    else none
  | [a, b, c, d, e] =>
    if mnemonic = "SETFM".toList then
      (enabled a).bind fun en => (waveform b).bind fun w => (mode c).bind fun m =>
        (real d).bind fun v => (real e).map fun beta => .setfm en w m v beta
    else none
  | _ => none

/-- One line: no command where it is blank or only a comment, and nothing at all where it is no line of R97. -/
def assembleLine (line : List Char) : Option (List Instr) :=
  let text := trim (dropComment line)
  if text.isEmpty then some []
  else
    let mnemonic := text.takeWhile fun c => !isBlank c
    (command mnemonic (splitOperands (text.drop mnemonic.length))).map fun i => [i]

/-- The lines of a program, joined: none where one of them is no line. -/
def assembleLines : List (List Char) → Option (List Instr)
  | [] => some []
  | line :: lines => (assembleLine line).bind fun is => (assembleLines lines).map fun more => is ++ more

/-- A program's words in the order the host sends them. -/
def assemble (text : List Char) : Option (List Word) :=
  (assembleLines (text.splitOn '\n')).map fun is => is.flatMap encode

end Sys2Proof.Assembler
end

