-- ==== Sys2Proof/Tests/Slice0.lean ====
section
/-! SUPPORT. Tests.  Expected results come from the worked encodings (spec/30_encoding.md R99), the examples of the command
rules and the vectors of spec/95_test_vectors.md, named in each comment.  After them, one witness or more for each statement of
Obligations.lean that has hypotheses. -/

namespace Sys2Proof.Tests

open Sys2Proof Sys2Proof.Machine Sys2Proof.F32

-- One theorem at a time: elaborated side by side, these would need a thread, and its stack, each.
set_option Elab.async false

/-! ### WellFormed refuses what `IMM` cannot hold (R86) -/

theorem test_wf_setwv : (Instr.setwv 65536 .saw).wellFormed = false := by decide
theorem test_wf_rmflt : (Instr.rmflt 65536).wellFormed = false := by decide
theorem test_wf_setflt : (Instr.setflt 65536 .notch ⟨0⟩ ⟨0⟩).wellFormed = false := by decide
theorem test_wf_render : (Instr.render 65536).wellFormed = false := by decide
theorem test_wf_boundary : (Instr.render 65535).wellFormed = true := by decide

/-! ### Decoding, one word of each row written out bit by bit: OP, A, B, IMM (R80, R88) -/

/-- ENC1. -/
theorem test_decode_nop : decode [0b00000000000000000000000000000000] = .instr .nop [] := by decide

/-- ENC2: OP 00000001, A 0000, B 0000, IMM 4; V0 = 440.0. -/
theorem test_decode_noteon :
    decode [0b00000001000000000000000000000100, 0b01000011110111000000000000000000] = .instr (.noteon 4 ⟨0x43DC0000⟩) [] := by
  decide

/-- R157's example: OP 00000010, A 0000, B 0000, IMM 4. -/
theorem test_decode_noteoff : decode [0b00000010000000000000000000000100] = .instr (.noteoff 4) [] := by decide

/-- ENC3: OP 00000011, A 0011 (Saw), B 0000 (G = 0), IMM 2. -/
theorem test_decode_setwv : decode [0b00000011001100000000000000000010] = .instr (.setwv 2 .saw) [] := by decide

/-- ENC4: OP 00000011, A 0010 (Triangle), B 0001 (G = 1), IMM 0. -/
theorem test_decode_setwva : decode [0b00000011001000010000000000000000] = .instr (.setwva .triangle) [] := by decide

/-- R99: OP 00000100, A 0001 (Square), B 0010 (M = 1, E = 0), IMM 0; 100.0 and 1.0. -/
theorem test_decode_setfm :
    decode [0b00000100000100100000000000000000, 0b01000010110010000000000000000000, 0b00111111100000000000000000000000]
      = .instr (.setfm false .square .inharmonic ⟨0x42C80000⟩ ⟨0x3F800000⟩) [] := by decide

/-- R99: OP 00000101. -/
theorem test_decode_addflt : decode [0b00000101000000000000000000000000] = .instr .addflt [] := by decide

/-- R99: OP 00000110, IMM 1. -/
theorem test_decode_rmflt : decode [0b00000110000000000000000000000001] = .instr (.rmflt 1) [] := by decide

/-- ENC5: OP 00000111, A 0001 (HighPass), B 0000, IMM 1; 5000.0 and 2.0. -/
theorem test_decode_setflt :
    decode [0b00000111000100000000000000000001, 0b01000101100111000100000000000000, 0b01000000000000000000000000000000]
      = .instr (.setflt 1 .highPass ⟨0x459C4000⟩ ⟨0x40000000⟩) [] := by decide

/-- R99: OP 00001000, IMM 64. -/
theorem test_decode_render : decode [0b00001000000000000000000001000000] = .instr (.render 64) [] := by decide

/-- R99: OP 00001001. -/
theorem test_decode_rdvis : decode [0b00001001000000000000000000000000] = .instr .rdvis [] := by decide

/-- ENC6, ENC7: a reserved opcode is one word long, and the next word is a header. -/
theorem test_decode_reserved : decode [0xFF123456, 0x05000000] = .illegal 0xFF123456 [0x05000000]
    ∧ decode [0x0A000000] = .illegal 0x0A000000 [] := by decide

/-- ENC8, ENC9, ENC10, ENC14: reserved bits that are not zero. -/
theorem test_decode_reserved_bits : decode [0x02010004] = .illegal 0x02010004 [] ∧ decode [0x03C00000] = .illegal 0x03C00000 []
    ∧ decode [0x03010001] = .illegal 0x03010001 [] ∧ decode [0x09000001] = .illegal 0x09000001 [] := by decide

/-- ENC11, ENC12, ENC13: the operand words go with the illegal header. -/
theorem test_decode_illegal_length : decode [0x01100004, 0x43DC0000] = .illegal 0x01100004 []
    ∧ decode [0x04040000, 0x3F800000, 0x3F800000] = .illegal 0x04040000 []
    ∧ decode [0x07400000, 0x447A0000, 0x40000000] = .illegal 0x07400000 [] := by decide

/-- The bits of a row, numbered on from the first word's, and the operand words of zeros that a row leaves out. -/
theorem test_table_word : decodeTableWord 64 0x43DC000001000004 = some (.noteon 4 ⟨0x43DC0000⟩)
    ∧ decodeTableWord 32 0x07300000 = some (.setflt 0 .notch ⟨0⟩ ⟨0⟩) ∧ decodeTableWord 32 0x0A000000 = none := by decide

/-- A word sent as bytes (R62): least significant byte first. -/
theorem test_bytes : wordToBytes 0x01000004 = [0x04, 0x00, 0x00, 0x01]
    ∧ decodeBytes [0x02, 0x00, 0x30, 0x03] = .instr (.setwv 2 .saw) [] := by decide

/-! ### The assembler (R97, R99) -/

theorem test_assemble_noteon : Assembler.assemble "NOTEON 4, 440.0".toList = some [0x01000004, 0x43DC0000] := by decide +kernel

theorem test_assemble_setfm :
    Assembler.assemble "SETFM off, square, inharmonic, 100.0, 1.0".toList = some [0x04120000, 0x42C80000, 0x3F800000] := by
  decide +kernel

theorem test_assemble_setflt :
    Assembler.assemble "SETFLT 0, bandpass, 1000.0, f32:0x3F3504F3 ; R223".toList = some [0x07200000, 0x447A0000, 0x3F3504F3] := by
  decide +kernel

theorem test_assemble_program :
    Assembler.assemble "SETWV 0x2, saw\nSETWVA triangle\n\nRMFLT 1\nRENDER 64\n  ADDFLT\nRDVIS\nNOTEOFF 4\nNOP".toList
      = some [0x03300002, 0x03210000, 0x06000001, 0x08000040, 0x05000000, 0x09000000, 0x02000004, 0x00000000] := by
  decide +kernel

/-- The nearest value, not a truncated one: 1e-6 and 0.05 = `Q_MIN` (R9). -/
theorem test_assemble_nearest : Assembler.real "0.05".toList = some ⟨0x3D4CCCCD⟩ ∧ Assembler.real "1e-6".toList = some ⟨0x358637BD⟩
    ∧ Assembler.real "1.".toList = none ∧ Assembler.imm "65536".toList = none := by decide +kernel

/-! ### The reference configuration of spec/95_test_vectors.md, with the values of SIN, COS and ASIN that it states -/

/-- `SIN` at the arguments of the vectors used here, and a small positive value elsewhere. -/
def refSin (x : F32) : F32 :=
  if x.bits = 0x00000000 then ⟨0x00000000⟩       -- O8
  else if x.bits = 0x3E11E531 then ⟨0x3E1166F5⟩  -- F1
  else if x.bits = 0x40490FDB then ⟨0xB3BBBD2E⟩  -- O7
  else if x.bits = 0x3FC90FDB then ⟨0x3F800000⟩  -- O9
  else if x.bits = 0x4096CBE4 then ⟨0xBF800000⟩  -- O10
  else if x.bits = 0x3D80634A then ⟨0x3D804DC4⟩  -- P1
  else if x.bits = 0x3D805887 then ⟨0x3D804306⟩  -- M4
  else ⟨0x3A800000⟩

/-- The configuration of the vectors. -/
def ref : Config :=
  { (default : Config).withReferenceNumbers.withHardwareValues with
    sin := refSin
    cos := fun x => if x.bits = 0x3E11E531 then ⟨0x3F7D67F4⟩ else ⟨0x3F800000⟩
    asin := fun y => if y.bits = 0x3F800000 then ⟨0x3FC90FDB⟩ else if y.bits = 0xBF800000 then ⟨0xBFC90FDB⟩ else y }

/-- A voice slot as the reference configuration resets it (R48). -/
def slot : Voice := { active := false, key := 0, frequency := ⟨0x43DC0000⟩, phase := ⟨0⟩, waveform := .sine }

/-- The FM operator as the reference configuration resets it (R48). -/
def fm0 : Fm :=
  { enabled := false, wave := .sine, mode := .harmonic, ratio := ⟨0x3F800000⟩, mfreq := ⟨0x43DC0000⟩, mphase := ⟨0⟩, beta := ⟨0⟩ }

/-- The power-on state under the reference configuration. -/
def start : State := { State.reset with voices := Vector.replicate _ slot, fm := fm0 }

/-- Eight active voices, key `k + 1` and frequency 440.0 in slot `k`, sounding `w`. -/
def full (w : Waveform) : State :=
  { start with voices := Vector.ofFn fun k => { slot with active := true, key := BitVec.ofNat 16 (k.val + 1), waveform := w } }

theorem test_ref_valid : ref.valid = true := by decide +kernel

/-- O17 at the vectors' rate: `FREQ_MAX` and `CUTOFF_MAX`. -/
theorem test_ref_bounds : ref.freqMax = ⟨0x46AC4400⟩ ∧ ref.cutoffMax = ⟨0x46AB7C00⟩ := by decide +kernel

/-! ### Units -/

/-- O1, O2. -/
theorem test_advance : phaseInc ref ⟨0x43DC0000⟩ = ⟨0x3D80634A⟩
    ∧ (advance ref · ⟨0x43DC0000⟩)^[4] ⟨0⟩ = ⟨0x3E80634A⟩ := by decide +kernel

/-- O3, O4, O5: the wrap, at exactly `TWO_PI` too, and the largest increment. -/
theorem test_advance_wraps : advance ref ⟨0x40C8F5C3⟩ ⟨0x43DC0000⟩ = ⟨0x3D73BA80⟩
    ∧ advance ref ⟨0x40C70E4E⟩ ⟨0x43DC0000⟩ = ⟨0x00000000⟩
    ∧ (advance ref · ⟨0x46AC4400⟩)^[3] ⟨0⟩ = ⟨0x40490FDA⟩ := by decide +kernel

/-- O7. -/
theorem test_wave_at_pi : wave ref .sine piF = ⟨0xB3BBBD2E⟩ ∧ wave ref .square piF = ⟨0xBF800000⟩
    ∧ wave ref .triangle ⟨0x4096CBE4⟩ = ⟨0xBF800000⟩ ∧ wave ref .saw piF = ⟨0x00000000⟩ := by decide +kernel

/-- O9, O11 for Saw, O8. -/
theorem test_wave_corners : wave ref .triangle ⟨0x3FC90FDB⟩ = ⟨0x3F800000⟩ ∧ wave ref .saw ⟨0x40C90FDA⟩ = ⟨0x3F7FFFFE⟩
    ∧ wave ref .square zero = ⟨0x3F800000⟩ ∧ wave ref .saw zero = ⟨0xBF800000⟩ := by decide +kernel

/-- O12, O13: 0.0, -0.0, NaN, -inf; 1.0e6, +inf. -/
theorem test_clamp_freq : clampFreq ref ⟨0x00000000⟩ = ⟨0x3F800000⟩ ∧ clampFreq ref ⟨0x80000000⟩ = ⟨0x3F800000⟩
    ∧ clampFreq ref ⟨0x7FC00000⟩ = ⟨0x3F800000⟩ ∧ clampFreq ref ⟨0xFF800000⟩ = ⟨0x3F800000⟩
    ∧ clampFreq ref ⟨0x49742400⟩ = ⟨0x46AC4400⟩ ∧ clampFreq ref ⟨0x7F800000⟩ = ⟨0x46AC4400⟩ := by decide +kernel

/-- F9, F10, F11. -/
theorem test_clamp_filter : clampCutoff ref ⟨0x40A00000⟩ = ⟨0x41A00000⟩ ∧ clampCutoff ref ⟨0x46EA6000⟩ = ⟨0x46AB7C00⟩
    ∧ clampResonance ref ⟨0xBF800000⟩ = ⟨0x3D4CCCCD⟩ ∧ clampResonance ref ⟨0x7F800000⟩ = ⟨0x7F800000⟩ := by decide +kernel

/-- F1, F3: the coefficients of LowPass and BandPass at 1000.0 and 1/sqrt(2). -/
theorem test_design :
    design ref .lowPass ⟨0x447A0000⟩ ⟨0x3F3504F3⟩ = ⟨⟨0x3B96DD3B⟩, ⟨0x3C16DD3B⟩, ⟨0x3B96DD3B⟩, ⟨0xBFE648CB⟩, ⟨0x3F51487F⟩⟩
    ∧ design ref .bandPass ⟨0x447A0000⟩ ⟨0x3F3504F3⟩
      = ⟨⟨0x3DBADE07⟩, ⟨0x00000000⟩, ⟨0xBDBADE07⟩, ⟨0xBFE648CB⟩, ⟨0x3F51487F⟩⟩ := by decide +kernel

/-- F2, F4: HighPass and Notch. -/
theorem test_design_more :
    design ref .highPass ⟨0x447A0000⟩ ⟨0x3F3504F3⟩ = ⟨⟨0x3F677685⟩, ⟨0xBFE77685⟩, ⟨0x3F677685⟩, ⟨0xBFE648CB⟩, ⟨0x3F51487F⟩⟩
    ∧ design ref .notch ⟨0x447A0000⟩ ⟨0x3F3504F3⟩
      = ⟨⟨0x3F68A440⟩, ⟨0xBFE648CB⟩, ⟨0x3F68A440⟩, ⟨0xBFE648CB⟩, ⟨0x3F51487F⟩⟩ := by decide +kernel

/-- F7: the first three outputs of an impulse through F1's filter. -/
theorem test_impulse :
    let f := { Filter.initial with coeffs := ⟨⟨0x3B96DD3B⟩, ⟨0x3C16DD3B⟩, ⟨0x3B96DD3B⟩, ⟨0xBFE648CB⟩, ⟨0x3F51487F⟩⟩ }
    f.output one = ⟨0x3B96DD3B⟩ ∧ (f.shifted one).output zero = ⟨0x3C8F4972⟩
      ∧ ((f.shifted one).shifted zero).output zero = ⟨0x3D0455B7⟩ := by decide +kernel

/-- A sum of opposite infinities is some quiet NaN (R12, U4). -/
theorem test_nan : (add ⟨0x7F800000⟩ ⟨0xFF800000⟩).isNaN = true := by
  have h : add ⟨0x7F800000⟩ ⟨0xFF800000⟩ = nan .add ⟨0x7F800000⟩ ⟨0xFF800000⟩ := by
    have : ((⟨0x7F800000⟩ : F32).isNaN || (⟨0xFF800000⟩ : F32).isNaN || ((⟨0x7F800000⟩ : F32).isInf
      && (⟨0xFF800000⟩ : F32).isInf && (⟨0x7F800000⟩ : F32).sign != (⟨0xFF800000⟩ : F32).sign)) = true := by decide +kernel
    simp only [add, this, if_true]
  rw [h]
  exact nan_isNaN _ _ _

/-! ### The commands, one step each -/

theorem test_nop : exec .nop start = .next start := rfl

/-- V1. -/
theorem test_noteon_allocates : (noteOn ref 4 ⟨0x43DC0000⟩ start).voice 0 = { slot with active := true, key := 4 }
    ∧ (noteOn ref 4 ⟨0x43DC0000⟩ start).fm.mfreq = ⟨0x43DC0000⟩ := by decide +kernel

/-- V6, last command: slot 0 is stolen and slot 1 stays. -/
theorem test_noteon_steals : (noteOn ref 9 ⟨0x44610000⟩ (full .saw)).voice 0
      = { slot with active := true, key := 9, frequency := ⟨0x44610000⟩, waveform := .saw }
    ∧ ((noteOn ref 9 ⟨0x44610000⟩ (full .saw)).voice 1).key = 2 := by decide +kernel

/-- R157's example, and V4: a key that no active slot holds. -/
theorem test_noteoff : ((noteOff 3 (full .sine)).voice 2).active = false ∧ ((noteOff 3 (full .sine)).voice 2).key = 3
    ∧ ((noteOff 9 (full .sine)).voice 2).active = true := by decide +kernel

/-- R127's example, and O15. -/
theorem test_setwv : ((setWaveform 2 .saw start).voice 2).waveform = .saw ∧ ((setWaveform 2 .saw start).voice 1).waveform = .sine
    ∧ ((setWaveform 9 .square start).voice 1).waveform = .sine := by decide +kernel

/-- O16. -/
theorem test_setwva : ∀ i, (setAllWaveforms .triangle start).voice i = { slot with waveform := .triangle } := by decide +kernel

/-- R181's example. -/
theorem test_setfm_harmonic : (setFm ref true .sine .harmonic ⟨0x40000000⟩ ⟨0x3F000000⟩ start).fm
    = { fm0 with enabled := true, ratio := ⟨0x40000000⟩, beta := ⟨0x3F000000⟩ } := by decide +kernel

/-- M8, M9, M10: `-0.0` and `+inf` as index, NaN and 1e-6 as ratio. -/
theorem test_setfm_clamps :
    (setFm ref true .sine .harmonic ⟨0x7FC00000⟩ ⟨0x80000000⟩ start).fm.ratio = ⟨0x3A800000⟩
    ∧ (setFm ref true .sine .harmonic ⟨0x7FC00000⟩ ⟨0x80000000⟩ start).fm.beta = ⟨0x00000000⟩
    ∧ (setFm ref true .sine .harmonic ⟨0x358637BD⟩ ⟨0x00000000⟩ start).fm.ratio = ⟨0x3A800000⟩
    ∧ (setFm ref true .sine .inharmonic ⟨0x42C80000⟩ ⟨0x7F800000⟩ start).fm.beta = ⟨0x3F800000⟩
    ∧ (setFm ref true .sine .inharmonic ⟨0x42C80000⟩ ⟨0x7F800000⟩ start).fm.mfreq = ⟨0x42C80000⟩ := by decide +kernel

/-- A chain of `n` filters whose cutoff tells them apart. -/
def chainOf (n : Fin 6) : State :=
  { start with filt := Vector.ofFn fun k => { Filter.initial with cutoff := ⟨BitVec.ofNat 32 k.val⟩ }, fcount := n }

/-- F14: the fifth filter is the last. -/
theorem test_addflt : (addFilter ref (chainOf 4)).fcount = 5 ∧ (addFilter ref (chainOf 5)).fcount = 5
    ∧ ((addFilter ref (chainOf 4)).filter 4).cutoff = ⟨0x447A0000⟩ := by decide +kernel

/-- F8, F15. -/
theorem test_rmflt : (removeFilter 1 (chainOf 3)).fcount = 2 ∧ (removeFilter 1 (chainOf 3)).filter 0 = (chainOf 3).filter 0
    ∧ (removeFilter 1 (chainOf 3)).filter 1 = (chainOf 3).filter 2 ∧ (removeFilter 0 (chainOf 0)).fcount = 0 := by decide +kernel

/-- E4: BandPass, 1000.0, 2.0. -/
theorem test_setflt : ((setFilter ref 0 .bandPass ⟨0x447A0000⟩ ⟨0x40000000⟩ (chainOf 1)).filter 0).coeffs
    = ⟨⟨0x3D0C6AE4⟩, ⟨0x00000000⟩, ⟨0xBD0C6AE4⟩, ⟨0xBFF4B809⟩, ⟨0x3F6E72A3⟩⟩ := by decide +kernel

/-- P3: the pool of that program before its last command. -/
def program3 : State :=
  { start with
    voices := #v[{ slot with active := true, key := 9, frequency := ⟨0x44610000⟩, waveform := .saw },
      { slot with active := true, key := 2, frequency := ⟨0x43480000⟩, waveform := .saw },
      { slot with active := true, key := 10, frequency := ⟨0x447A0000⟩, waveform := .saw },
      { slot with active := true, key := 4, frequency := ⟨0x43C80000⟩, waveform := .saw },
      { slot with active := true, key := 5, frequency := ⟨0x44098000⟩, waveform := .saw },
      { slot with active := true, key := 6, frequency := ⟨0x44160000⟩, waveform := .saw },
      { slot with active := true, key := 7, frequency := ⟨0x442F0000⟩, waveform := .saw },
      { slot with active := true, key := 8, frequency := ⟨0x44480000⟩, waveform := .saw }] }

/-- P3, step 15: the mean of eight Saw samples, and the phase of slot 4 after it. -/
theorem test_render_mix : (sampleStep ref program3).2 = ⟨0xBF7886AE⟩
    ∧ ((sampleStep ref program3).1.voice 4).phase = ⟨0x3DA07C1C⟩ := by decide +kernel

/-- M4: the first modulated sample. -/
theorem test_render_modulated :
    let s := { start with
      voices := start.voices.set 0 { slot with active := true, frequency := ⟨0x435C0000⟩ }
      fm := { fm0 with enabled := true, ratio := ⟨0x40000000⟩, beta := ⟨0x3F000000⟩ } }
    (sampleStep ref s).2 = ⟨0x3D804306⟩ ∧ (sampleStep ref s).1.fm.mphase = ⟨0x3D80634A⟩
      ∧ ((sampleStep ref s).1.voice 0).phase = ⟨0x3D00634A⟩ := by decide +kernel

/-- R264's alternative and a smaller build (R9): P3's eight samples with a fixed gain of 0.5, which is four times their mean,
and a third key with two slots, which steals slot 0 (R153). -/
theorem test_other_parameters :
    (sampleStep { ref with normPolicy := .fixedGain ⟨0x3F000000⟩ } program3).2 = ⟨0xC07886AE⟩
    ∧ (let κ : Shape := { Shape.hw with voices := 2, voicesPos := by decide, voicesFit := by decide }
       let s : State κ := noteOn ref 3 ⟨0x44610000⟩ (noteOn ref 2 ⟨0x43DC0000⟩ (noteOn ref 1 ⟨0x43DC0000⟩ (State.initial ref)))
       (s.voice ⟨0, by decide⟩).key = 3 ∧ (s.voice ⟨1, by decide⟩).key = 2) := by decide +kernel

/-- RDVIS after one sample: the sample is the last word, and zeros come before it (R270). -/
theorem test_rdvis : (visWindow (start.pushVis one))[1023]? = some one ∧ (visWindow (start.pushVis one))[0]? = some zero := by
  decide +kernel

/-! ### The port -/

/-- The very next step runs the command that `withFetchWord` places. -/
theorem test_step_fetches : step (start.withFetchWord 32 0x03300002) = exec (.setwv 2 .saw) start
    ∧ step (start.withFetchWord 64 0x43DC000001000004) = exec (.noteon 4 ⟨0x43DC0000⟩) start := ⟨rfl, rfl⟩

/-- P5, step 4: an illegal SETFM takes its operand words with it and leaves the mark. -/
theorem test_step_illegal : step { start with port := [.word 0x04040000, .word 0x3F800000, .word 0x3F800000, .word 0x00000000] }
    = .next { start with
        port := [.word 0x00000000], refusalMark := true, refusals := [.illegalEncoding 0x04040000] } := rfl

/-- A header without its operand waits, and reset loses it (R45, R321). -/
theorem test_step_partial : step { start with port := [.word 0x01000004] }
      = .next { start with decoder := .collecting 0x01000004 [] }
    ∧ step { start with decoder := .collecting 0x01000004 [], port := [.reset, .word 0x43DC0000] }
      = .next { State.reset with port := [.word 0x43DC0000] } := ⟨rfl, rfl⟩

/-- A partial word of a byte transport is lost at reset (R63). -/
theorem test_bytes_reset : assembleBytes [] [.byte 0x01, .byte 0x02, .reset, .byte 0x02, .byte 0x00, .byte 0x30, .byte 0x03]
    = [.reset, .word 0x03300002] := by decide

/-! ### Witnesses: concrete inputs that meet the hypotheses of each statement -/

/-- DecodeOfEncodeGivesTheCommand, at the largest immediate. -/
theorem witness_DecodeOfEncode : (Instr.setflt 65535 .notch ⟨0⟩ ⟨0⟩).wellFormed = true := by decide

theorem witness_EveryLegalCommandIsItsEncoding : decode [0x05000000, 0x08000001] = .instr .addflt [0x08000001] := by decide

/-- EveryOpcodeMapRowDecodes: a header for each row, at the ends of its free bits. -/
theorem witness_EveryOpcodeMapRowDecodes :
    (0x00000000 &&& 0xFFFFFFFF : Word) = 0x00000000 ∧ (0x0100FFFF &&& 0xFFFF0000 : Word) = 0x01000000
    ∧ (0x0200FFFF &&& 0xFFFF0000 : Word) = 0x02000000 ∧ (0x0330FFFF &&& 0xFFCF0000 : Word) = 0x03000000
    ∧ (0x03310000 &&& 0xFFCFFFFF : Word) = 0x03010000 ∧ (0x04330000 &&& 0xFFCCFFFF : Word) = 0x04000000
    ∧ (0x05000000 &&& 0xFFFFFFFF : Word) = 0x05000000 ∧ (0x0600FFFF &&& 0xFFFF0000 : Word) = 0x06000000
    ∧ (0x0730FFFF &&& 0xFFCF0000 : Word) = 0x07000000 ∧ (0x0800FFFF &&& 0xFFFF0000 : Word) = 0x08000000
    ∧ (0x09000000 &&& 0xFFFFFFFF : Word) = 0x09000000 := by decide

theorem witness_EveryOpcodeMapRowDecodes_rows : ∃ r ∈ opcodeMap, r.selects 0x03310000 = true :=
  ⟨⟨"SETWVA", 1, 0x03010000, 0xFFCFFFFF⟩, by decide, by decide⟩

/-- HeadersOutsideTheMapAreIllegal: both ends of the reserved opcodes, and a header with a row's opcode. -/
theorem witness_HeadersOutsideTheMapAreIllegal :
    [0x3F800000, 0x3F800000].length + 1 = commandLength 0x04040000 ∧ 10 ≤ (opField 0x0A000000).toNat
    ∧ 10 ≤ (opField 0xFF123456).toNat ∧ ⟨"NOTEON", 2, 0x01000000, 0xFFFF0000⟩ ∈ opcodeMap
    ∧ opField 0x01100004 = opField 0x01000000 := by decide

/-- LengthDependsOnTheOpcodeAlone. -/
theorem witness_LengthDependsOnTheOpcodeAlone : opField 0x01100004 = opField 0x01000000
    ∧ ([0x3F800000] : List Word).length + 1 < commandLength 0x04000000
    ∧ ([0x3F800000] : List Word).length + 1 = commandLength 0x01000004 := by decide

theorem witness_ByteTransportIsLittleEndian : ([1, 2, 3] : List Byte).length < 4 := by decide

/-- StepRunsTheDecodedCommand: a command whose header is already held. -/
theorem witness_StepRunsTheDecodedCommand :
    let s := { start with decoder := .collecting 0x01000004 [], port := [.word 0x43DC0000, .word 0x00000000] }
    (Instr.noteon 4 ⟨0x43DC0000⟩).wellFormed = true ∧ s.decoder.words ++ [0x43DC0000] = encode (.noteon 4 ⟨0x43DC0000⟩)
      ∧ s.port = [0x43DC0000].map PortEvent.word ++ [.word 0x00000000] := ⟨rfl, by decide, rfl⟩

/-- PartialCommandChangesNothing: two words of three, and no word at all. -/
theorem witness_PartialCommandChangesNothing :
    wholeCommand (start.decoder.words ++ [0x04010000, 0x40000000]) = false ∧ wholeCommand (start.decoder.words ++ []) = false
    ∧ { start with port := [.word 0x04010000, .word 0x40000000] }.port = [0x04010000, 0x40000000].map PortEvent.word :=
  ⟨by decide, by decide, rfl⟩

/-- IllegalCommandIsDiscarded: its header held already, its operand word arriving. -/
theorem witness_IllegalCommandIsDiscarded :
    let s := { start with decoder := .collecting 0x01100004 [], port := [.word 0x43DC0000] }
    legalHeader 0x01100004 = false ∧ ([0x43DC0000] : List Word).length + 1 = commandLength 0x01100004
      ∧ s.decoder.words ++ [0x43DC0000] = [0x01100004, 0x43DC0000] ∧ s.port = [0x43DC0000].map PortEvent.word ++ [] :=
  ⟨by decide, by decide, rfl, rfl⟩

/-- ResetLeavesThePowerOnState: with a partial command held and more of it arriving, and on a word that completes none. -/
theorem witness_ResetLeavesThePowerOnState :
    let s := { full .saw with decoder := .collecting 0x04010000 [], port := [.word 0x40000000, .reset, .word 0x09000000] }
    let s' := { full .saw with decoder := .collecting 0x04010000 [], port := [.interrupted 0x40000000] }
    wholeCommand (s.decoder.words ++ [0x40000000]) = false
      ∧ s.port = [0x40000000].map PortEvent.word ++ .reset :: [.word 0x09000000]
      ∧ wholeCommand (s'.decoder.words ++ [] ++ [0x40000000]) = false
      ∧ s'.port = ([] : List Word).map PortEvent.word ++ .interrupted 0x40000000 :: [] := ⟨by decide, rfl, by decide, rfl⟩

/-- ResetDuringACommandLeavesAPrefix: a RENDER, which emits, and an illegal header. -/
theorem witness_ResetDuringACommandLeavesAPrefix :
    let s := { start with port := [.interrupted 0x08000004, .word 0x09000000] }
    (Instr.render 4).wellFormed = true ∧ s.decoder.words ++ [] ++ [0x08000004] = encode (.render 4)
      ∧ s.port = ([] : List Word).map PortEvent.word ++ .interrupted 0x08000004 :: [.word 0x09000000]
      ∧ legalHeader 0x0A000000 = false ∧ ([] : List Word).length + 1 = commandLength 0x0A000000 :=
  ⟨rfl, by decide, rfl, by decide, by decide⟩

/-- RefusalMarkIsStickyAndUnread. -/
theorem witness_RefusalMarkIsStickyAndUnread :
    step { start with refusalMark := true } = .next { start with refusalMark := true }
    ∧ exec .nop start = .next start := ⟨rfl, rfl⟩

/-- ResponsesOnlyGrow: a reset, with a word in the response sequence. -/
theorem witness_ResponsesOnlyGrow : step { start with responses := [0x3D804DC4], port := [.reset] }
    = .next { State.reset with responses := [0x3D804DC4] } := rfl

theorem witness_CommandsLeaveThePortAlone : exec (.setwva .saw) start = .next (setAllWaveforms .saw start) := rfl

theorem witness_OnlyRenderMovesPhasesAndRing : (∀ n, Instr.addflt ≠ .render n)
    ∧ exec .addflt start = .next (addFilter Config.hw start) := ⟨fun _ => by simp, rfl⟩

theorem witness_NopChangesNothing : opField 0x00000001 = 0x00 ∧ (0x00000001 : Word) ≠ 0x00000000 := by decide

/-- SetwvWritesOneSlotsWaveform has no hypothesis; the last slot and the first index past it. -/
theorem witness_SetwvWritesOneSlotsWaveform : (∃ v : Fin Shape.hw.voices, v.val = 7)
    ∧ ¬ ∃ v : Fin Shape.hw.voices, v.val = 8 := by decide

theorem witness_NoteonOfAnActiveKeyRetunes : ((full .saw).voice 7).active = true ∧ ((full .saw).voice 7).key = 8
    ∧ ∀ j < (7 : Fin Shape.hw.voices), ¬ (((full .saw).voice j).active = true ∧ ((full .saw).voice j).key = 8) := by decide +kernel

/-- NoteonAllocatesTheLeastInactiveSlot: from reset, and where slot 2 of eight was released; its key 3 is stale (R160). -/
theorem witness_NoteonAllocatesTheLeastInactiveSlot :
    ((∀ j, ¬ ((start.voice j).active = true ∧ (start.voice j).key = 4)) ∧ (start.voice 0).active = false)
    ∧ (∀ j, ¬ (((noteOff 3 (full .saw)).voice j).active = true ∧ ((noteOff 3 (full .saw)).voice j).key = 3))
    ∧ ((noteOff 3 (full .saw)).voice 2).active = false
    ∧ ∀ j < (2 : Fin Shape.hw.voices), ((noteOff 3 (full .saw)).voice j).active = true := by decide +kernel

theorem witness_NoteonStealsSlotZeroWhenFull : (∀ j, ((full .saw).voice j).active = true) ∧ ∀ j, ((full .saw).voice j).key ≠ 9 := by
  decide +kernel

/-- HarmonicRecomputeOnNewVoicesOnly: a held key, Inharmonic mode, and a new key in Harmonic mode. -/
theorem witness_HarmonicRecomputeOnNewVoicesOnly :
    (∃ j, ((full .saw).voice j).active = true ∧ ((full .saw).voice j).key = 8)
    ∧ { fm0 with mode := .inharmonic }.mode = .inharmonic
    ∧ (∀ j, ¬ (((full .saw).voice j).active = true ∧ ((full .saw).voice j).key = 9)) ∧ (full .saw).fm.mode = .harmonic := by
  decide +kernel

/-- NoteoffReleasesTheHoldingSlot: the slot that holds the key, and one that does not. -/
theorem witness_NoteoffReleasesTheHoldingSlot :
    (((full .saw).voice 0).active = true ∧ ((full .saw).voice 0).key = 1
      ∧ ∀ j < (0 : Fin Shape.hw.voices), ¬ (((full .saw).voice j).active = true ∧ ((full .saw).voice j).key = 1))
    ∧ ¬ (((full .saw).voice 1).active = true ∧ ((full .saw).voice 1).key = 1) := by decide +kernel

/-- A finite value is below infinity. -/
theorem lt_infinity {x : F32} (hx : x.isFinite = true) : lt x ⟨0x7F800000⟩ = true := by
  rw [lt_iff]
  refine ⟨not_isNaN_of_isFinite hx, by decide, ?_⟩
  have hi : (⟨0x7F800000⟩ : F32).rank = infBits := by decide +kernel
  simp only [isFinite, decide_eq_true_eq] at hx
  rw [hi, rank]
  split <;> omega

/-- OperandsOutsideTheirRangeBecomeTheBound: NaN, the bound itself and what lies beyond it, for every clamp, and a value between
two bounds. -/
theorem witness_OperandsOutsideTheirRangeBecomeTheBound : (⟨0x7FC00000⟩ : F32).isNaN = true
    ∧ (⟨0x80000000⟩ : F32).sign = true ∧ (⟨0x00000000⟩ : F32).isZero = true
    ∧ le Config.hw.freqMin Config.hw.freqMin = true ∧ le Config.hw.freqMax Config.hw.freqMax = true
    ∧ lt Config.hw.freqMax ⟨0x7F800000⟩ = true ∧ le Config.hw.ratioMin Config.hw.ratioMin = true
    ∧ le ⟨0x3F800000⟩ ⟨0x3F800000⟩ = true ∧ le ⟨0x41A00000⟩ ⟨0x41A00000⟩ = true ∧ le ⟨0x3D4CCCCD⟩ ⟨0x3D4CCCCD⟩ = true
    ∧ le Config.hw.cutoffMax Config.hw.cutoffMax = true ∧ le Config.hw.cutoffMax ⟨0x7F800000⟩ = true
    ∧ lt zero one = true ∧ lt one two = true := by
  have hb := Config.freq_bounds Config.hw_valid
  have hf := (Config.freqMax_ge Config.hw_valid).2
  have hc := not_isNaN_of_le_right (Config.cutoff_bounds Config.hw_valid)
  have hi : ∀ x : F32, x.isNaN = false → le x ⟨0x7F800000⟩ = true := by
    intro x hx
    have hr : (⟨0x7F800000⟩ : F32).rank = infBits := by decide +kernel
    have hm : x.magBits ≤ infBits := by simpa [isNaN] using hx
    refine le_iff.2 ⟨hx, by decide, ?_⟩
    rw [hr, rank]
    split <;> omega
  exact ⟨by decide, by decide, by decide, le_refl (not_isNaN_of_le_left hb), le_refl (not_isNaN_of_isFinite hf), lt_infinity hf,
    le_refl (Config.ratioMin_not_isNaN Config.hw_valid), by decide, by decide, by decide, le_refl hc, hi _ hc, by decide, by decide⟩

/-- SampleStepMixesNormalisesFiltersAndStores has no hypothesis; its two kinds of entry. -/
theorem witness_SampleStep : (2 : Fin Shape.hw.filters).val < (chainOf 3).fcount.val
    ∧ (chainOf 3).fcount.val ≤ (3 : Fin Shape.hw.filters).val := by decide

/-- AddfltAppendsADefaultFilter: the full chain, the chain with one place left, and the entry that place is. -/
theorem witness_AddfltAppendsADefaultFilter : (chainOf 5).fcount.val = Shape.hw.filters
    ∧ (chainOf 4).fcount.val < Shape.hw.filters ∧ (4 : Fin Shape.hw.filters).val = (chainOf 4).fcount.val
    ∧ (3 : Fin Shape.hw.filters).val ≠ (chainOf 4).fcount.val := by decide

/-- RmfltShiftsTheLaterFiltersDown: the first index past the chain, and in a full chain an entry below, at and above the
index. -/
theorem witness_RmfltShiftsTheLaterFiltersDown : (chainOf 5).fcount.val ≤ 5 ∧ 1 < (chainOf 5).fcount.val
    ∧ (0 : Fin Shape.hw.filters).val < 1 ∧ 1 ≤ (3 : Fin Shape.hw.filters).val
    ∧ (3 : Fin Shape.hw.filters).val < (removeFilter 1 (chainOf 5)).fcount.val
    ∧ (4 : Fin Shape.hw.filters).val = (3 : Fin Shape.hw.filters).val + 1 := by decide +kernel

/-- SetfltSetsOneFiltersParameters: the last entry that exists, and the first that does not. -/
theorem witness_SetfltSetsOneFiltersParameters : (2 : Fin Shape.hw.filters).val = 2
    ∧ (2 : Fin Shape.hw.filters).val < (chainOf 3).fcount.val
    ∧ ¬ (3 : Fin Shape.hw.filters).val < (chainOf 3).fcount.val := by decide

theorem witness_WindowHoldsTheLastSamples : exec (.render 3) start = .next (renderBuffer Config.hw 3 start) := rfl

theorem witness_SilentRenderEmitsZeros : (∀ v, (start.voice v).active = false) ∧ start.fcount = 0 := by decide +kernel

/-- No two slots of the full pool hold one key. -/
theorem full_keys_unique (w : Waveform) : KeysUnique (full w) := by
  have h : ∀ i : Fin Shape.hw.voices, ((full w).voice i).key = BitVec.ofNat 16 (i.val + 1) := fun i => by
    simp [full, State.voice]
  have inj : ∀ i j : Fin Shape.hw.voices, BitVec.ofNat 16 (i.val + 1) = BitVec.ofNat 16 (j.val + 1) → i = j := by decide
  intro i j _ _ hk
  rw [h, h] at hk
  exact inj i j hk

theorem witness_ParameterCommandsAreIdempotent : KeysUnique (full .saw)
    ∧ exec (.noteoff 3) (full .saw) = .next (noteOff 3 (full .saw)) := ⟨full_keys_unique _, rfl⟩

/-- ChainThreadsFiltersInOrder: an entry that exists and one that does not. -/
theorem witness_ChainThreadsFiltersInOrder : (2 : Fin Shape.hw.filters).val < (chainOf 3).fcount.val
    ∧ (chainOf 3).fcount.val ≤ (3 : Fin Shape.hw.filters).val := by decide

/-- SingleVoiceSampleIsItsWaveform: P1 before its RENDER. -/
theorem witness_SingleVoiceSampleIsItsWaveform :
    let s := noteOn ref 4 ⟨0x43DC0000⟩ start
    ref.normPolicy = .divideByCount ∧ s.fm.enabled = false ∧ s.fcount.val = 0 ∧ (∀ v, (s.voice v).active = decide (v = 0))
      ∧ (wave ref (s.voice 0).waveform (advance ref (s.voice 0).phase (s.voice 0).frequency)).isFinite = true := by
  decide +kernel

/-- A function with the properties that R14 names for `SIN` and for `ASIN`: the sign, as ±1.0, of a value that is no zero. -/
def signum (x : F32) : F32 := if x.isZero then x else if x.sign then negOne else one

/-- A configuration that is valid and has the five named properties (R10, R14). -/
def lawful : Config := { (default : Config).withReferenceNumbers.withHardwareValues with sin := signum, cos := fun _ => one, asin := signum }

theorem signum_bounds (x : F32) : le negOne (signum x) = true ∧ le (signum x) one = true := by
  unfold signum
  split_ifs with h0 hs
  · have hm : x.magBits = 0 := by simpa [isZero] using h0
    have hn : x.isNaN = false := by simp [isNaN, hm]
    have hr : x.rank = 0 := by simp [rank, hm]
    have h1 : one.rank = 0x3F800000 := by decide +kernel
    have h2 : negOne.rank = -0x3F800000 := by decide +kernel
    rw [le_iff, le_iff, hr, h1, h2]
    exact ⟨⟨by decide, hn, by decide⟩, ⟨hn, by decide, by decide⟩⟩
  · decide
  · decide

theorem signum_odd (x : F32) : signum x.neg = (signum x).neg := by
  have hz : x.neg.isZero = x.isZero := by simp [isZero, neg_magBits]
  have h1 : negOne.neg = one := by decide
  have h2 : one.neg = negOne := by decide
  unfold signum
  rw [hz, neg_sign]
  cases x.isZero
  · cases x.sign <;> simp [h1, h2]
  · simp

theorem lawful_valid : lawful.valid = true := by decide +kernel

theorem lawful_trig : lawful.TrigLaws where
  sinRange x _ := signum_bounds x
  cosRange _ _ := ⟨(by decide : le negOne one = true), (by decide : le one one = true)⟩
  asinRange := ⟨fun y _ _ => by
    have e : (signum one).neg = negOne := by decide
    have e' : signum one = one := by decide
    have := signum_bounds y
    show le (signum one).neg (signum y) = true ∧ le (signum y) (signum one) = true
    rw [e, e']
    exact this, by decide +kernel⟩
  odd := ⟨signum_odd, signum_odd⟩
  sinPosDesign w0 h _ := by
    have e : le ⟨0x30000000⟩ (div (mul twoPi lawful.cutoffMin) lawful.sr) = true := by decide +kernel
    have h := le_iff.1 (le_trans e h)
    have hr : (⟨0x30000000⟩ : F32).rank = 0x30000000 := by decide +kernel
    rw [hr] at h
    have hs : w0.sign = false := by
      by_contra hc
      simp only [Bool.not_eq_false] at hc
      have := h.2.2
      simp only [rank, hc, if_true] at this
      omega
    have hz : w0.isZero = false := by
      have := h.2.2
      simp only [rank, hs, Bool.false_eq_true, if_false] at this
      simp only [isZero, decide_eq_false_iff_not]
      omega
    show lt zero (signum w0) = true
    simp only [signum, hz, hs, Bool.false_eq_true, if_false]
    decide

/-- ZeroIndexModulationIsPlain. -/
theorem witness_ZeroIndexModulationIsPlain : start.fm.beta = ⟨0x00000000⟩
    ∧ PhaseLegal (advance ref (start.voice 0).phase (start.voice 0).frequency)
    ∧ ((start.fm.advanced ref).value ref).isFinite = true := by
  refine ⟨rfl, ?_, by decide +kernel⟩
  have e : advance ref (start.voice 0).phase (start.voice 0).frequency = ⟨0x3D80634A⟩ := by decide +kernel
  rw [e]
  exact ⟨⟨by decide, by decide⟩, by decide⟩

/-- AdvanceKeepsThePhaseRange: the largest phase below `TWO_PI`, at both ends of the frequency range. -/
theorem witness_AdvanceKeepsThePhaseRange : ref.valid = true ∧ ref.stepFinite = true ∧ PhaseInRange ⟨0x40C90FDA⟩ ∧ FreqLegal ref ⟨0x46AC4400⟩
    ∧ FreqLegal ref ⟨0x3F800000⟩ :=
  ⟨by decide +kernel, by decide +kernel, ⟨by decide, by decide⟩, ⟨by decide +kernel, by decide +kernel⟩,
    ⟨by decide +kernel, by decide +kernel⟩⟩

/-- WaveformsStayInUnitRange: the largest phase in range, and a finite one outside it. -/
theorem witness_WaveformsStayInUnitRange : lawful.TrigLaws ∧ PhaseInRange ⟨0x40C90FDA⟩
    ∧ (⟨0x40E90FDB⟩ : F32).isFinite = true ∧ Waveform.sine ≠ .saw :=
  ⟨lawful_trig, ⟨by decide, by decide⟩, by decide, by decide⟩

theorem lawful_stepFinite : lawful.stepFinite = true := by decide +kernel

theorem witness_LeadingCoefficientIsAtLeastOne : lawful = lawful.withHardwareValues ∧ lawful.valid = true
    ∧ lawful.stepFinite = true ∧ lawful.TrigLaws := ⟨rfl, lawful_valid, lawful_stepFinite, lawful_trig⟩

/-- `+0.0` is a legal phase, and 440.0 a legal frequency. -/
theorem zero_phase_legal : PhaseLegal zero := ⟨⟨by decide, by decide⟩, by decide⟩

theorem a440_legal : FreqLegal lawful ⟨0x43DC0000⟩ := ⟨by decide +kernel, by decide +kernel⟩

/-- The phases and frequencies of the full pool are in range. -/
theorem full_phases_legal (w : Waveform) : PhasesLegal lawful (full w) where
  freqs i := by
    have e : ((full w).voice i).frequency = ⟨0x43DC0000⟩ := by simp [full, State.voice, slot]
    rw [e]
    exact a440_legal
  mfreq := a440_legal
  phases _ i := by
    have e : ((full w).voice i).phase = zero := by simp [full, State.voice, slot]; rfl
    rw [e]
    exact zero_phase_legal
  mphase _ := zero_phase_legal

theorem witness_PlainMixStaysInUnitRange : lawful.valid = true ∧ lawful.stepFinite = true ∧ lawful.TrigLaws
    ∧ PhasesLegal lawful (full .saw) ∧ (full .saw).fm.enabled = false :=
  ⟨lawful_valid, lawful_stepFinite, lawful_trig, full_phases_legal _, rfl⟩

/-- ArithmeticRoundsToNearestEven: a tie, `1.0 + 2^-24`, and a finite difference, quotient and product. -/
theorem witness_ArithmeticRoundsToNearestEven : one.isFinite = true ∧ (⟨0x33800000⟩ : F32).isFinite = true
    ∧ (⟨0x3F800001⟩ : F32).isFinite = true ∧ (add one ⟨0x33800000⟩).isFinite = true
    ∧ (sub one ⟨0x33800000⟩).isFinite = true ∧ (mul one ⟨0x33800000⟩).isFinite = true
    ∧ (div one ⟨0x33800000⟩).isFinite = true ∧ (⟨0x33800000⟩ : F32).isZero = false := by decide +kernel

/-- The power-on state is in range under the block's own configuration, whichever that is. -/
theorem reset_phases_legal : PhasesLegal Config.hw State.reset where
  freqs i := by rw [State.reset_voice]; exact clamp_between _ (Config.freq_bounds Config.hw_valid)
  mfreq := clamp_between _ (Config.freq_bounds Config.hw_valid)
  phases _ i := by rw [State.reset_voice]; exact zero_phase_legal
  mphase _ := zero_phase_legal

/-- The reset ratio is legal, whatever RATIO_MIN is (log entry 4). -/
theorem reset_ratio_legal : RatioLegal Config.hw one := by
  unfold RatioLegal
  cases le Config.hw.ratioMin one <;> simp

theorem reset_params_legal : ParamsLegal Config.hw State.reset where
  voices := reset_phases_legal.freqs
  fm := ⟨reset_phases_legal.mfreq, reset_ratio_legal, by decide, by decide, by decide⟩
  filters k hk := absurd hk (Nat.not_lt_zero _)

theorem witness_StepKeepsKeysUnique : KeysUnique (full .saw)
    ∧ step { full .saw with port := [.word 0x02000003] } = .next (noteOff 3 (full .saw)) := ⟨full_keys_unique _, rfl⟩

theorem witness_StepKeepsParametersClamped : ParamsLegal Config.hw State.reset
    ∧ step { State.reset with port := [.word 0x05000000] } = .next (addFilter Config.hw State.reset) := ⟨reset_params_legal, rfl⟩

theorem witness_StepKeepsPhasesInRange : PhasesLegal Config.hw State.reset
    ∧ step { State.reset with port := [.word 0x08000003] } = .next (renderBuffer Config.hw 3 State.reset) :=
  ⟨reset_phases_legal, rfl⟩

theorem witness_StepKeepsFiltersDesigned : FiltersDesigned Config.hw State.reset
    ∧ step { State.reset with port := [.word 0x05000000] } = .next (addFilter Config.hw State.reset) :=
  ⟨fun _ hk => absurd hk (Nat.not_lt_zero _), rfl⟩

theorem witness_StepKeepsDecoderWaitingAndMarkRecorded : DecoderWaits { start with port := [.word 0x0A000000] }
    ∧ MarkRecorded { start with port := [.word 0x0A000000] }
    ∧ step { start with port := [.word 0x0A000000] }
      = .next { start with refusalMark := true, refusals := [.illegalEncoding 0x0A000000] } := ⟨rfl, rfl, rfl⟩

end Sys2Proof.Tests
end

section
/-! Rounding is to nearest, ties to even: on whole numbers, on magnitudes, on signed exact results, and from there for the
four operations (spec/00_scope.md R12). -/

namespace Sys2Proof.F32

/-! ### Nearest whole number and nearest magnitude -/

/-- No whole number is nearer to `n / d` than `roundNE n d`, and a tie leaves it even. -/
theorem roundNE_nearest (n M : Nat) {d : Nat} (hd : 0 < d) :
    ((roundNE n d * d : Nat) - (n : Int)).natAbs ≤ ((M * d : Nat) - (n : Int)).natAbs ∧
    (((M * d : Nat) - (n : Int)).natAbs = ((roundNE n d * d : Nat) - (n : Int)).natAbs →
      M = roundNE n d ∨ roundNE n d % 2 = 0) := by
  have hn := Nat.div_add_mod' n d
  have hr := Nat.mod_lt n hd
  have hstep : (n / d + 1) * d = n / d * d + d := Nat.succ_mul _ _
  unfold roundNE
  rcases Nat.lt_trichotomy M (n / d) with hM | rfl | hM
  · have : (M + 1) * d ≤ n / d * d := Nat.mul_le_mul_right _ hM
    rw [Nat.succ_mul] at this
    split_ifs <;> omega
  · split_ifs <;> omega
  · obtain rfl | hM := Nat.eq_or_lt_of_le (show n / d + 1 ≤ M from hM)
    · split_ifs <;> omega
    · have : (n / d + 1 + 1) * d ≤ M * d := Nat.mul_le_mul_right _ hM
      rw [Nat.succ_mul] at this
      split_ifs <;> omega

/-- The magnitude of a shift and a significand; a significand of 2^24 is carried into the exponent. -/
theorem magOf_shift {k m : Nat} (hm : m ≤ 2 ^ 24) (hk : 0 < k → 2 ^ 23 ≤ m) : magOf (k * 2 ^ 23 + m) = m * 2 ^ k := by
  unfold magOf
  rcases Nat.lt_or_eq_of_le hm with hlt | rfl
  · have e : (k * 2 ^ 23 + m) / 2 ^ 23 - 1 = k := by omega
    rw [e, Nat.add_sub_cancel_left]
  · have e : (k * 2 ^ 23 + 2 ^ 24) / 2 ^ 23 - 1 = k + 1 := by omega
    have e' : k * 2 ^ 23 + 2 ^ 24 - (k + 1) * 2 ^ 23 = 2 ^ 23 := by omega
    rw [e, e']
    ring

/-- A representable magnitude is a multiple of `2 ^ k`, or its exponent is smaller and it lies below `2 ^ 23 * 2 ^ k`. -/
theorem magOf_multiple_or_lt (c k : Nat) : (∃ M, magOf c = M * 2 ^ k) ∨ 0 < k ∧ magOf c < 2 ^ 23 * 2 ^ k := by
  unfold magOf
  generalize he : c / 2 ^ 23 - 1 = e
  rcases Nat.lt_or_ge e k with hk | hk
  · refine .inr ⟨by omega, ?_⟩
    have hsig : c - e * 2 ^ 23 < 2 ^ 24 := by omega
    calc (c - e * 2 ^ 23) * 2 ^ e < 2 ^ 24 * 2 ^ e := Nat.mul_lt_mul_of_pos_right hsig (Nat.two_pow_pos _)
      _ = 2 ^ 23 * 2 ^ (e + 1) := by ring
      _ ≤ 2 ^ 23 * 2 ^ k := Nat.mul_le_mul_left _ (Nat.pow_le_pow_right (by decide) hk)
  · refine .inl ⟨(c - e * 2 ^ 23) * 2 ^ (e - k), ?_⟩
    rw [Nat.mul_assoc, ← Nat.pow_add, Nat.sub_add_cancel hk]

/-- A finite `roundMag n d` has the magnitude of the rounded, shifted quotient and the parity of its significand. -/
theorem roundMag_finite {n d : Nat} (h : roundMag n d < infBits) :
    magOf (roundMag n d) = roundNE n (d * 2 ^ roundShift n d) * 2 ^ roundShift n d ∧
    roundMag n d % 2 = roundNE n (d * 2 ^ roundShift n d) % 2 := by
  obtain ⟨hlt, hge⟩ := roundShift_spec n d
  have hlo := roundNE_lower n (d * 2 ^ roundShift n d)
  have hup := roundNE_upper n (d * 2 ^ roundShift n d)
  have e : roundMag n d = roundShift n d * 2 ^ 23 + roundNE n (d * 2 ^ roundShift n d) := by
    unfold roundMag at h ⊢
    omega
  rw [e]
  exact ⟨magOf_shift (by omega) fun hk => (hge hk).trans hlo, by omega⟩

/-- No representable magnitude is nearer to `n / d` than a finite `roundMag n d`, and a tie leaves it even. -/
theorem roundMag_nearest {n d : Nat} (c : Nat) (hd : 0 < d) (h : roundMag n d < infBits) :
    ((magOf (roundMag n d) * d : Nat) - (n : Int)).natAbs ≤ ((magOf c * d : Nat) - (n : Int)).natAbs ∧
    (((magOf c * d : Nat) - (n : Int)).natAbs = ((magOf (roundMag n d) * d : Nat) - (n : Int)).natAbs →
      magOf c = magOf (roundMag n d) ∨ roundMag n d % 2 = 0) := by
  obtain ⟨hmag, hpar⟩ := roundMag_finite h
  obtain ⟨-, hge⟩ := roundShift_spec n d
  rw [hmag, hpar]
  generalize roundShift n d = k at *
  have hD : 0 < d * 2 ^ k := Nat.mul_pos hd (Nat.two_pow_pos _)
  have scale : ∀ M, M * 2 ^ k * d = M * (d * 2 ^ k) := fun M => by ring
  rw [scale]
  rcases magOf_multiple_or_lt c k with ⟨M, hM⟩ | ⟨hk, hc⟩
  · rw [hM, scale]
    obtain ⟨hle, htie⟩ := roundNE_nearest n M hD
    exact ⟨hle, fun heq => (htie heq).imp_left fun hMm => by rw [hMm]⟩
  · -- below the least shifted significand, itself a candidate at or below `n / d`: strictly farther
    obtain ⟨hle, -⟩ := roundNE_nearest n (2 ^ 23) hD
    have hn : 2 ^ 23 * (d * 2 ^ k) ≤ n := (Nat.le_div_iff_mul_le hD).1 (hge hk)
    have hcd : magOf c * d < 2 ^ 23 * (d * 2 ^ k) := by
      rw [← scale]
      exact Nat.mul_lt_mul_of_pos_right hc hd
    omega

/-! ### Signed results -/

/-- A magnitude with a sign. -/
def signed (s : Bool) (m : Nat) : Int := if s then -(m : Int) else (m : Int)

theorem val_eq_signed (x : F32) : x.val = signed x.sign (magOf x.magBits) := by
  rw [← mag_eq_magOf]; rfl

theorem signed_mul (s t : Bool) (m n : Nat) : signed s m * signed t n = signed (s != t) (m * n) := by
  cases s <;> cases t <;> simp [signed]

theorem signed_dist_same (s : Bool) (a d n : Nat) :
    (signed s a * d - signed s n).natAbs = ((a * d : Nat) - (n : Int)).natAbs := by
  cases s
  · rw [Nat.cast_mul]; rfl
  · simp only [signed, if_true, Int.neg_mul, Nat.cast_mul]
    omega

theorem signed_dist_opposite (s : Bool) (a d n : Nat) : (signed (!s) a * d - signed s n).natAbs = a * d + n := by
  cases s <;> simp only [signed, Bool.not_true, Bool.not_false, Bool.false_eq_true, if_true, if_false, Int.neg_mul,
    ← Nat.cast_mul] <;> omega

/-- `r` is at least as near as `z` to the exact result `e / d`, and where `z` is as near, the last bit of `r` is 0. -/
def NearestEven (r z : F32) (d e : Int) : Prop :=
  (r.val * d - e).natAbs ≤ (z.val * d - e).natAbs ∧
  ((z.val * d - e).natAbs = (r.val * d - e).natAbs → z.val = r.val ∨ r.magBits % 2 = 0)

/-- A finite rounded magnitude under the sign of the exact result is nearest to it. -/
theorem ofParts_roundMag_nearestEven (s : Bool) (n : Nat) {d : Nat} (hd : 0 < d) (z : F32)
    (h : (ofParts s (roundMag n d)).isFinite = true) : NearestEven (ofParts s (roundMag n d)) z d (signed s n) := by
  have hlt := roundMag_lt n d
  simp only [isFinite, ofParts_magBits _ _ hlt, decide_eq_true_eq] at h
  simp only [NearestEven, val_eq_signed, ofParts_sign _ _ hlt, ofParts_magBits _ _ hlt]
  rw [signed_dist_same]
  rcases Bool.eq_or_eq_not z.sign s with hs | hs
  · obtain ⟨hle, htie⟩ := roundMag_nearest z.magBits hd h
    rw [hs, signed_dist_same]
    exact ⟨hle, fun heq => (htie heq).imp_left fun hm => by rw [hm]⟩
  · -- the other sign is no nearer than zero, and as near only where it is zero
    obtain ⟨hle, htie⟩ := roundMag_nearest 0 hd h
    have h0 : ((magOf 0 * d : Nat) - (n : Int)).natAbs = n := by simp [magOf]
    rw [h0] at hle htie
    rw [hs, signed_dist_opposite]
    refine ⟨by omega, fun heq => ?_⟩
    have hz : magOf z.magBits = 0 := by
      have : magOf z.magBits * d = 0 := by omega
      exact (Nat.mul_eq_zero.1 this).resolve_right hd.ne'
    exact (htie (by omega)).imp_left fun hm => by rw [hz, ← hm]; cases s <;> rfl

/-! ### The four operations -/

/-- A sum of finite values is its exact sum, rounded under a sign of it. -/
theorem add_parts {x y : F32} (hx : x.isFinite = true) (hy : y.isFinite = true) :
    ∃ s, x.val + y.val = signed s (x.val + y.val).natAbs ∧ add x y = ofParts s (roundMag (x.val + y.val).natAbs 1) := by
  have e : add x y = addNum x y := by
    simp [add, not_isNaN_of_isFinite hx, not_isNaN_of_isFinite hy, isInf_eq_false hx]
  rw [e]
  simp only [addNum, isInf_eq_false hx, isInf_eq_false hy, Bool.false_eq_true, if_false]
  split_ifs with h0
  · exact ⟨x.sign && y.sign, by simp [h0, signed], by rw [h0, Int.natAbs_zero, roundMag_zero 1 (by decide)]⟩
  · refine ⟨decide (x.val + y.val < 0), ?_, rfl⟩
    simp only [signed, decide_eq_true_eq]
    omega

theorem add_nearestEven {x y : F32} (z : F32) (hx : x.isFinite = true) (hy : y.isFinite = true)
    (h : (add x y).isFinite = true) : NearestEven (add x y) z 1 (x.val + y.val) := by
  obtain ⟨s, hval, hadd⟩ := add_parts hx hy
  rw [hval, hadd]
  exact ofParts_roundMag_nearestEven s _ Nat.one_pos z (hadd ▸ h)

theorem sub_nearestEven {x y : F32} (z : F32) (hx : x.isFinite = true) (hy : y.isFinite = true)
    (h : (sub x y).isFinite = true) : NearestEven (sub x y) z 1 (x.val - y.val) := by
  have hsub := sub_eq_add_neg hx hy
  rw [Int.sub_eq_add_neg, ← neg_val, hsub]
  exact add_nearestEven z hx (by rwa [neg_isFinite]) (hsub ▸ h)

theorem mul_nearestEven {x y : F32} (z : F32) (hx : x.isFinite = true) (hy : y.isFinite = true)
    (h : (mul x y).isFinite = true) : NearestEven (mul x y) z (2 ^ 149) (x.val * y.val) := by
  have hmul := mul_parts hx hy
  have hval : x.val * y.val = signed (x.sign != y.sign) (x.mag * y.mag) := signed_mul _ _ _ _
  rw [hval, hmul]
  exact ofParts_roundMag_nearestEven _ _ (Nat.two_pow_pos 149) z (hmul ▸ h)

/-- Distances are the same under a change of both signs. -/
theorem NearestEven.neg {r z : F32} {d e : Int} (h : NearestEven r z d e) : NearestEven r z (-d) (-e) := by
  have hdist : ∀ v : Int, (v * -d - -e).natAbs = (v * d - e).natAbs := fun v => by
    rw [← Int.natAbs_neg]; congr 1; ring
  simpa only [NearestEven, hdist] using h

theorem div_nearestEven {x y : F32} (z : F32) (hx : x.isFinite = true) (hy : y.isFinite = true) (h0 : y.isZero = false)
    (h : (div x y).isFinite = true) : NearestEven (div x y) z y.val (x.val * 2 ^ 149) := by
  have hdiv := div_parts hx hy h0
  have key := ofParts_roundMag_nearestEven _ _ (mag_pos hy h0) z (hdiv ▸ h)
  rw [← hdiv] at key
  have hval : x.val * 2 ^ 149 = signed x.sign (x.mag * 2 ^ 149) := by
    simp only [val, signed]
    split <;> push_cast <;> ring
  rw [hval]
  cases hs : y.sign with
  | false =>
    have hyv : y.val = y.mag := by simp [val, hs]
    rw [hyv]
    simpa only [hs, Bool.bne_false] using key
  | true =>
    have hyv : y.val = -y.mag := by simp [val, hs]
    have hflip : signed x.sign (x.mag * 2 ^ 149) = -signed (x.sign != true) (x.mag * 2 ^ 149) := by
      cases x.sign <;> simp [signed]
    rw [hyv, hflip]
    simpa only [hs] using key.neg

end Sys2Proof.F32

namespace Sys2Proof

/-- Settles O51: each operation rounds the magnitude of its exact result, and that rounding is to nearest, ties to even. -/
theorem arithmeticRoundsToNearestEven : Obligations.ArithmeticRoundsToNearestEven := by
  intro x y z hx hy _
  refine ⟨fun h => ?_, fun h => ?_, fun h => F32.mul_nearestEven z hx hy h, fun h h0 => F32.div_nearestEven z hx hy h0 h⟩
  · simpa only [F32.NearestEven, Int.mul_one] using F32.add_nearestEven z hx hy h
  · simpa only [F32.NearestEven, Int.mul_one] using F32.sub_nearestEven z hx hy h

end Sys2Proof
end

section
/-! What the clamps do with an operand outside its range (spec/00_scope.md R15, R160; spec/42_fm_operator.md R182, R183;
spec/43_filter.md R214, R215), and the parameters of the block (spec/00_scope.md R9, R10). -/

namespace Sys2Proof

open F32

/-! ### Operands at and beyond a bound -/

theorem rank_of_pos {x : F32} (h : 0 < x.rank) : x.sign = false ∧ x.rank = x.magBits := by
  unfold rank at h ⊢
  cases hs : x.sign with
  | false => simp
  | true =>
    simp only [hs, if_true] at h
    omega

/-- Above zero the order is antisymmetric on patterns: only the two zeros are equal and distinct. -/
theorem eq_of_le_of_le {x y : F32} (hpos : lt zero x = true) (h₁ : le x y = true) (h₂ : le y x = true) : x = y := by
  have hx : 0 < x.rank := (lt_iff.1 hpos).2.2
  have hr : x.rank = y.rank := Int.le_antisymm (le_iff.1 h₁).2.2 (le_iff.1 h₂).2.2
  obtain ⟨hxs, hxr⟩ := rank_of_pos hx
  obtain ⟨hys, hyr⟩ := rank_of_pos (hr ▸ hx)
  exact ext_sign_magBits (hxs.trans hys.symm) (by omega)

theorem le_infinity {x : F32} (h : x.isNaN = false) : le x ⟨0x7F800000⟩ = true := by
  have hinf : (⟨0x7F800000⟩ : F32).rank = infBits := by decide +kernel
  have hm : x.magBits ≤ infBits := by simpa [isNaN] using h
  refine le_iff.2 ⟨h, by decide, ?_⟩
  rw [hinf, rank]
  split <;> omega

/-- A negative operand or a zero is at or below every bound that is zero or above it. -/
theorem le_of_sign_or_isZero {v lo : F32} (hlo : le zero lo = true) (h : v.isNaN = true ∨ v.sign = true ∨ v.isZero = true) :
    v.isNaN = true ∨ le v lo = true := by
  cases hn : v.isNaN with
  | true => exact .inl rfl
  | false =>
    obtain ⟨-, hloN, hloR⟩ := le_iff.1 hlo
    have hzero : zero.rank = 0 := rfl
    have hv : v.rank ≤ 0 := by
      unfold rank
      rcases h with h | h | h
      · simp [h] at hn
      · simp [h]
      · have : v.magBits = 0 := by simpa [isZero] using h
        simp [this]
    exact .inr (le_iff.2 ⟨hn, hloN, by omega⟩)

theorem clamp_of_le {x lo : F32} (hi : F32) (h : x.isNaN = true ∨ le x lo = true) : clamp x lo hi = lo := by
  simp [clamp, h]

theorem clampMin_of_le {x lo : F32} (h : x.isNaN = true ∨ le x lo = true) : clampMin x lo = lo := by
  simp [clampMin, h]

/-- At or above a positive upper bound the clamp is that bound, also where the lower bound is the same value. -/
theorem clamp_of_ge {x lo hi : F32} (hpos : lt zero hi = true) (hb : le lo hi = true) (h : le hi x = true) :
    clamp x lo hi = hi := by
  cases hle : le x lo with
  | true =>
    rw [clamp_of_le hi (.inr hle)]
    exact (eq_of_le_of_le hpos (le_trans h hle) hb).symm
  | false => simp [clamp, not_isNaN_of_le_right h, hle, ge, h]

theorem clampMin_of_lt {x lo : F32} (h : lt lo x = true) : clampMin x lo = x := by
  obtain ⟨hlo, hx, hr⟩ := lt_iff.1 h
  have hle : le x lo = false := by
    rw [Bool.eq_false_iff, Ne, le_iff]
    omega
  simp [clampMin, hx, hle]

/-- Where there is no upper bound infinity stays, also at an infinite lower bound. -/
theorem clampMin_infinity {lo : F32} (hpos : lt zero lo = true) : clampMin ⟨0x7F800000⟩ lo = ⟨0x7F800000⟩ := by
  cases hle : le ⟨0x7F800000⟩ lo with
  | true =>
    rw [clampMin_of_le (.inr hle)]
    exact eq_of_le_of_le hpos (le_infinity (lt_iff.1 hpos).2.1) hle
  | false =>
    rw [clampMin, hle]
    rfl

/-! ### The bounds of the block -/

theorem lt_of_lt_of_le {x y z : F32} (h₁ : lt x y = true) (h₂ : le y z = true) : lt x z = true := by
  obtain ⟨hx, -, hr₁⟩ := lt_iff.1 h₁
  obtain ⟨-, hz, hr₂⟩ := le_iff.1 h₂
  exact lt_iff.2 ⟨hx, hz, Int.lt_of_lt_of_le hr₁ hr₂⟩

theorem Config.freqMin_pos {c : Config} (h : c.valid = true) : lt zero c.freqMin = true := by
  obtain ⟨-, -, hfreqMin, -⟩ := Config.valid_parts h
  exact hfreqMin

theorem Config.ratioMin_pos {c : Config} (h : c.valid = true) : lt zero c.ratioMin = true := by
  obtain ⟨-, -, -, -, hratioMin⟩ := Config.valid_parts h
  exact hratioMin

/-- Settles O29: per parameter the clamp's rule at its bounds; the bounds are positive, so where two clauses meet they give
one pattern. -/
theorem operandsOutsideTheirRangeBecomeTheBound : Obligations.OperandsOutsideTheirRangeBecomeTheBound := by
  have hfreq := Config.freq_bounds Config.hw_valid
  have hfpos := Config.freqMin_pos Config.hw_valid
  have hrpos := Config.ratioMin_pos Config.hw_valid
  have hcut := Config.cutoff_bounds Config.hw_valid
  exact ⟨fun v hv => clamp_of_le _ hv, fun v hv => clamp_of_le _ (le_of_sign_or_isZero (le_of_lt hfpos) hv),
    fun v hv => clamp_of_ge (lt_of_lt_of_le hfpos hfreq) hfreq hv, fun v hv => clampMin_of_le hv,
    fun v hv => clampMin_of_le (le_of_sign_or_isZero (le_of_lt hrpos) hv),
    fun v hv => clamp_of_le _ (le_of_sign_or_isZero (by decide) hv), fun v hv => clamp_of_ge (by decide) (by decide) hv,
    fun v hv => clamp_of_le _ hv, fun v hv => clamp_of_ge (lt_of_lt_of_le (by decide) hcut) hcut hv,
    fun v hv => clampMin_of_le hv, clampMin_infinity (by decide), clampMin_infinity hrpos,
    fun x lo hi h₁ h₂ => clamp_of_inside h₁ h₂, fun x lo h => clampMin_of_lt h⟩

/-- Settles O59: the fixed values are those of the definition, and the OPEN ones meet R10 because `Config.hw` is valid. -/
theorem parametersAreThoseOfTheHardware : Obligations.ParametersAreThoseOfTheHardware := by
  obtain ⟨hfin, hsr, hfreqMin, hfreq, hratio⟩ := Config.valid_parts Config.hw_valid
  exact ⟨rfl, rfl, rfl, rfl, Config.hw_cutoffMin, Config.hw_qMin, Config.hw_betaMin, Config.hw_betaMax,
    Config.hw_filterDefaultType, Config.hw_normPolicy, rfl, rfl, hfin, hsr, hfreqMin, hfreq, hratio⟩

end Sys2Proof
end

section
/-! The decoder reads back what the encoder makes, and a step executes what it reads (spec/30_encoding.md R93,
spec/00_scope.md R17, spec/20_memory.md R68). -/

namespace Sys2Proof

/-! ### Decoding an encoded command -/

section EncodedFields
variable (op : BitVec 8) (b : BitVec 4) (imm : BitVec 16) (c : BitVec 2)

@[simp] theorem aReserved_header_code : aReserved (header op (0#2 ++ c) b imm) = 0 := by
  rw [aReserved_eq, aField_header]; revert c; decide

@[simp] theorem codeField_header_code : codeField (header op (0#2 ++ c) b imm) = c := by
  rw [codeField_eq, aField_header]; revert c; decide

end EncodedFields

theorem toNat_ofNat_of_fitsImm {n : Nat} (h : fitsImm n = true) : (BitVec.ofNat 16 n).toNat = n := by
  rw [BitVec.toNat_ofNat]
  exact Nat.mod_eq_of_lt (by simpa [fitsImm] using h)

/-- An encoding is as long as its header asks for (R81). -/
theorem encode_length (i : Instr) : Laws.EncodeLength.Statement i := by
  cases i with
  | nop => exact Laws.EncodeLength.nop
  | noteon key v0 => exact Laws.EncodeLength.noteon key v0
  | noteoff key => exact Laws.EncodeLength.noteoff key
  | setwv slot wave => exact Laws.EncodeLength.setwv slot wave
  | setwva wave => exact Laws.EncodeLength.setwva wave
  | setfm enabled wave mode v0 v1 => exact Laws.EncodeLength.setfm enabled wave mode v0 v1
  | addflt => exact Laws.EncodeLength.addflt
  | rmflt index => exact Laws.EncodeLength.rmflt index
  | setflt index ftype v0 v1 => exact Laws.EncodeLength.setflt index ftype v0 v1
  | render n => exact Laws.EncodeLength.render n
  | rdvis => exact Laws.EncodeLength.rdvis

/-- The header and the operand words of a well-formed command spell that command (R82 to R88). -/
theorem decodeCommand_of_encode {i : Instr} {h : Word} {operands : List Word} (hw : i.wellFormed = true)
    (he : encode i = h :: operands) : decodeCommand h operands = some i := by
  cases i <;> obtain ⟨rfl, rfl⟩ := List.cons.inj he
  case nop => simp [decodeCommand]
  case noteon => simp [decodeCommand]
  case noteoff => simp [decodeCommand]
  case setwv => simp [decodeCommand, gReserved_eq, geBit_eq, toNat_ofNat_of_fitsImm hw]
  case setwva => simp [decodeCommand, gReserved_eq, geBit_eq]
  case setfm enabled _ mode _ _ =>
    cases mode <;> cases enabled <;>
      simp [decodeCommand, emReserved_eq, geBit_eq, mBit_eq, FmMode.code, FmMode.ofCode]
  case addflt => simp [decodeCommand]
  case rmflt => simp [decodeCommand, toNat_ofNat_of_fitsImm hw]
  case setflt => simp [decodeCommand, toNat_ofNat_of_fitsImm hw]
  case render => simp [decodeCommand, toNat_ofNat_of_fitsImm hw]
  case rdvis => simp [decodeCommand]

/-- Decoding what the encoder makes gives the command back, whatever follows it (R93). -/
theorem decode_encode_append {i : Instr} (hw : i.wellFormed = true) (rest : List Word) :
    decode (encode i ++ rest) = .instr i rest := by
  obtain ⟨h, operands, he, hl⟩ := encode_length i
  rw [he, List.cons_append, decode_whole h operands rest hl, decodeCommand_of_encode hw he]

end Sys2Proof

namespace Sys2Proof.Machine

/-! ### The step on a whole command -/

/-- Words of exactly a command's length are whole, and without the last of them they are not (R81). -/
theorem wholeCommand_of_length {h last : Word} {operands init : List Word} (hl : operands.length + 1 = commandLength h)
    (he : init ++ [last] = h :: operands) : wholeCommand init = false ∧ wholeCommand (init ++ [last]) = true := by
  refine ⟨?_, by rw [he, wholeCommand_cons, hl]; simp⟩
  cases init with
  | nil => rfl
  | cons w ws =>
    rw [List.cons_append] at he
    obtain ⟨rfl, rfl⟩ := List.cons.inj he
    rw [List.length_append, List.length_singleton] at hl
    simp only [wholeCommand_cons, decide_eq_false_iff_not]
    omega

/-- Words held and words arriving that make up exactly one command are handed over as that command (R45, R81). -/
theorem step_of_exact_words {s : State} {ws : List Word} {rest : List PortEvent} {h : Word} {operands : List Word}
    (hl : operands.length + 1 = commandLength h) (hne : ws ≠ []) (hwords : s.decoder.words ++ ws = h :: operands)
    (hport : s.port = ws.map PortEvent.word ++ rest) : step s = runCommand (h :: operands) (s.afterFetch rest) := by
  obtain ⟨init, last, rfl⟩ := (List.eq_nil_or_concat' ws).resolve_left hne
  rw [← List.append_assoc] at hwords
  obtain ⟨hinit, hwhole⟩ := wholeCommand_of_length hl hwords
  have hfetch := fetch_command s.decoder.words init last rest hinit hwhole
  rw [hwords] at hfetch
  rw [step, hport, List.map_append, List.append_assoc, List.map_singleton, List.singleton_append, hfetch]
  rfl

end Sys2Proof.Machine

namespace Sys2Proof

open Machine

/-- Settles O8: the port hands the words over as one command, and they decode to the command they encode. -/
theorem stepRunsTheDecodedCommand : Obligations.StepRunsTheDecodedCommand := by
  intro s i ws rest hw hne hwords hport
  obtain ⟨h, operands, he, hl⟩ := encode_length i
  have hdecode : decode (h :: operands) = .instr i [] := by
    rw [← he, ← List.append_nil (encode i)]
    exact decode_encode_append hw []
  rw [step_of_exact_words hl hne (hwords.trans he) hport, runCommand, hdecode]
  rfl

end Sys2Proof
end

section
/-! What a command does, as a function of the state, and what a step can do: every invariant of a step is one of the
commands and of the reset state (spec/10_state.md R45 to R48, spec/30_encoding.md R95). -/

namespace Sys2Proof

open Machine

/-- The state that a command leaves: no command stops (spec/60_exceptions.md R290). -/
def Instr.effect (i : Instr) (s : State) : State :=
  match i with
  | .nop => s
  | .noteon key v0 => noteOn Config.hw key v0 s
  | .noteoff key => noteOff key s
  | .setwv slot w => setWaveform slot w s
  | .setwva w => setAllWaveforms w s
  | .setfm enabled w mode v0 v1 => setFm Config.hw enabled w mode v0 v1 s
  | .addflt => addFilter Config.hw s
  | .rmflt index => removeFilter index s
  | .setflt index t v0 v1 => Machine.setFilter Config.hw index t v0 v1 s
  | .render n => renderBuffer Config.hw n s
  | .rdvis => readVis s

theorem exec_eq_effect (i : Instr) (s : State) : exec i s = .next (i.effect s) := by cases i <;> rfl

theorem exec_eq_next {i : Instr} {s t : State} : exec i s = .next t ↔ i.effect s = t := by
  rw [exec_eq_effect, Host.Outcome.next.injEq]

end Sys2Proof

namespace Sys2Proof.Machine

variable {κ : Shape}

/-! ### What each command leaves alone -/

section Frames
variable (c : Config) (s : State κ)

theorem addFilter_frame : { addFilter c s with filt := s.filt, fcount := s.fcount } = s := by
  unfold addFilter; split <;> rfl

theorem removeFilter_frame (index : Nat) : { removeFilter index s with filt := s.filt, fcount := s.fcount } = s := by
  unfold removeFilter; split <;> rfl

theorem setFilter_frame (index : Nat) (t : FilterType) (v0 v1 : F32) :
    { setFilter c index t v0 v1 s with filt := s.filt, fcount := s.fcount } = s := by
  unfold setFilter; split <;> rfl

theorem setWaveform_frame (slot : Nat) (w : Waveform) : { setWaveform slot w s with voices := s.voices } = s := by
  unfold setWaveform; split <;> rfl

theorem noteOn_frame (key : BitVec κ.keyWidth) (v0 : F32) :
    { noteOn c key v0 s with voices := s.voices, fm := s.fm } = s := by
  unfold noteOn
  split
  · rfl
  · unfold trigger harmonicRecompute; split <;> rfl

theorem noteOff_frame (key : BitVec κ.keyWidth) : { noteOff key s with voices := s.voices } = s := by
  unfold noteOff; split <;> rfl

end Frames

/-! ### Registers and ports -/

/-- `s` with the decoder, the waiting events and the model's marks and counter of `u`: everything that no command
touches. -/
def State.withPortOf (s u : State κ) : State κ :=
  { s with
    decoder := u.decoder, refusalMark := u.refusalMark, refusals := u.refusals, port := u.port, freeCount := u.freeCount }

/-- `u` with the voice file, the FM operator and the filter array of `s`: everything that an invariant of R29, R32 and R36
speaks of. -/
def State.withRegistersOf (u s : State κ) : State κ :=
  { u with voices := s.voices, fm := s.fm, filt := s.filt, fcount := s.fcount }

/-! ### Commands and the ports -/

section Commute
variable (c : Config) (s u : State κ)

theorem noteOn_withPortOf (key : BitVec κ.keyWidth) (v0 : F32) :
    noteOn c key v0 (s.withPortOf u) = (noteOn c key v0 s).withPortOf u := by
  have hfind : (s.withPortOf u).findKey key = s.findKey key := rfl
  unfold noteOn
  rw [hfind]
  cases s.findKey key with
  | some i => rfl
  | none =>
    have hmode : (s.withPortOf u).fm.mode = s.fm.mode := rfl
    simp only [trigger, harmonicRecompute, State.setVoice_fm, hmode]
    cases s.fm.mode <;> rfl

theorem noteOff_withPortOf (key : BitVec κ.keyWidth) : noteOff key (s.withPortOf u) = (noteOff key s).withPortOf u := by
  have hfind : (s.withPortOf u).findKey key = s.findKey key := rfl
  unfold noteOff
  rw [hfind]
  cases s.findKey key <;> rfl

theorem setWaveform_withPortOf (slot : Nat) (w : Waveform) :
    setWaveform slot w (s.withPortOf u) = (setWaveform slot w s).withPortOf u := by
  unfold setWaveform
  rw [apply_dite (State.withPortOf · u)]
  rfl

theorem addFilter_withPortOf : addFilter c (s.withPortOf u) = (addFilter c s).withPortOf u := by
  unfold addFilter
  rw [apply_dite (State.withPortOf · u)]
  rfl

theorem removeFilter_withPortOf (index : Nat) :
    removeFilter index (s.withPortOf u) = (removeFilter index s).withPortOf u := by
  unfold removeFilter
  rw [apply_ite (State.withPortOf · u)]
  rfl

theorem setFilter_withPortOf (index : Nat) (t : FilterType) (v0 v1 : F32) :
    setFilter c index t v0 v1 (s.withPortOf u) = (setFilter c index t v0 v1 s).withPortOf u := by
  unfold setFilter
  rw [apply_dite (State.withPortOf · u)]
  rfl

theorem mixVoice_withPortOf (y : F32) (v : Fin κ.voices) :
    mixVoice c (s.withPortOf u, y) v = Prod.map (State.withPortOf · u) id (mixVoice c (s, y) v) := by
  have henabled : (s.withPortOf u).fm.enabled = s.fm.enabled := rfl
  unfold mixVoice
  simp only [henabled]
  cases s.fm.enabled <;> rfl

theorem mixVoices_withPortOf : mixVoices c (s.withPortOf u) = Prod.map (State.withPortOf · u) id (mixVoices c s) :=
  List.foldl_hom (init := (s, F32.zero)) (Prod.map (State.withPortOf · u) id)
    fun acc v => mixVoice_withPortOf c acc.1 u acc.2 v

theorem chain_withPortOf (x : F32) : chain x (s.withPortOf u) = Prod.map (State.withPortOf · u) id (chain x s) :=
  List.foldl_hom (init := (s, x)) (Prod.map (State.withPortOf · u) id) fun _ _ => rfl

theorem sampleStep_withPortOf :
    sampleStep c (s.withPortOf u) = Prod.map (State.withPortOf · u) id (sampleStep c s) := by
  have hactive : (s.withPortOf u).activeVoices = s.activeVoices := rfl
  unfold sampleStep
  simp only [mixVoices_withPortOf, hactive, Prod.map_fst, Prod.map_snd, id, chain_withPortOf]
  rfl

theorem renderSamples_withPortOf (n : Nat) :
    renderSamples c n (s.withPortOf u) = Prod.map (State.withPortOf · u) id (renderSamples c n s) := by
  induction n generalizing s with
  | zero => rfl
  | succ n ih => simp [renderSamples, sampleStep_withPortOf, ih]

theorem renderBuffer_withPortOf (n : Nat) :
    renderBuffer c n (s.withPortOf u) = (renderBuffer c n s).withPortOf u := by
  simp only [renderBuffer, renderSamples_withPortOf]
  rfl

end Commute

/-- Every command is blind to the ports and the marks: it neither reads nor writes them (R45, R47, R64). -/
theorem effect_withPortOf (i : Instr) (s u : State) : i.effect (s.withPortOf u) = (i.effect s).withPortOf u := by
  cases i with
  | nop => rfl
  | noteon key v0 => exact noteOn_withPortOf _ s u key v0
  | noteoff key => exact noteOff_withPortOf s u key
  | setwv slot w => exact setWaveform_withPortOf s u slot w
  | setwva w => rfl
  | setfm enabled w mode v0 v1 => rfl
  | addflt => exact addFilter_withPortOf _ s u
  | rmflt index => exact removeFilter_withPortOf s u index
  | setflt index t v0 v1 => exact setFilter_withPortOf _ s u index t v0 v1
  | render n => exact renderBuffer_withPortOf _ s u n
  | rdvis => rfl

/-- What a command leaves has the ports and the marks it started from. -/
theorem effect_port_kept (i : Instr) (s : State) : (i.effect s).withPortOf s = i.effect s :=
  (effect_withPortOf i s s).symm

section EffectPort
variable (i : Instr) (s : State)

@[simp] theorem effect_decoder : (i.effect s).decoder = s.decoder :=
  (congrArg State.decoder (effect_port_kept i s)).symm
@[simp] theorem effect_port : (i.effect s).port = s.port := (congrArg State.port (effect_port_kept i s)).symm
@[simp] theorem effect_refusalMark : (i.effect s).refusalMark = s.refusalMark :=
  (congrArg State.refusalMark (effect_port_kept i s)).symm
@[simp] theorem effect_refusals : (i.effect s).refusals = s.refusals :=
  (congrArg State.refusals (effect_port_kept i s)).symm
@[simp] theorem effect_freeCount : (i.effect s).freeCount = s.freeCount :=
  (congrArg State.freeCount (effect_port_kept i s)).symm

end EffectPort

/-! ### What commands emit -/

/-- No command takes back a response word (R46): RENDER and RDVIS append, and the others do not write the sequence. -/
theorem effect_responses_prefix (i : Instr) (s : State) : s.responses <+: (i.effect s).responses := by
  have hsame : ∀ {t : State}, t.responses = s.responses → s.responses <+: t.responses := fun h => h ▸ List.prefix_rfl
  cases i with
  | nop => exact List.prefix_rfl
  | noteon key v0 => exact hsame (congrArg State.responses (noteOn_frame Config.hw s key v0) :)
  | noteoff key => exact hsame (congrArg State.responses (noteOff_frame s key) :)
  | setwv slot w => exact hsame (congrArg State.responses (setWaveform_frame s slot w) :)
  | setwva w => exact hsame rfl
  | setfm enabled w mode v0 v1 => exact hsame rfl
  | addflt => exact hsame (congrArg State.responses (addFilter_frame Config.hw s) :)
  | rmflt index => exact hsame (congrArg State.responses (removeFilter_frame s index) :)
  | setflt index t v0 v1 => exact hsame (congrArg State.responses (setFilter_frame Config.hw s index t v0 v1) :)
  | render n =>
    have hframe := renderSamples_frame Config.hw n s
    exact ⟨_, (congrArg (· ++ _) hframe.responses).symm⟩
  | rdvis => exact List.prefix_append _ _

/-! ### What a step can do -/

/-- The states that a step can leave (R45, R95, R294, R320): the decoder waits, a command was executed or refused, or the
reset was taken, between commands, on a refused one, or during an executed one. -/
inductive Stepped (s : State) : State → Prop
  | waiting (words : List Word) (hfetch : fetch s.decoder.words s.port = .waiting words) :
    Stepped s { s with decoder := Decoder.ofWords words, port := [] }
  | executed (i : Instr) (rest : List PortEvent) : Stepped s (i.effect (s.afterFetch rest))
  | refused (r : Refusal) (rest : List PortEvent) : Stepped s ((s.afterFetch rest).refuse r)
  | reset (rest : List PortEvent) : Stepped s (s.afterFetch rest).takeReset
  | refusedAndReset (r : Refusal) (rest : List PortEvent) : Stepped s ((s.afterFetch rest).refuse r).takeReset
  | cutOff (i : Instr) (rest : List PortEvent) :
    Stepped s (cutOff (s.afterFetch rest) (i.effect (s.afterFetch rest)))

theorem step_stepped {s t : State} (h : step s = .next t) : Stepped s t := by
  unfold step at h
  cases hf : fetch s.decoder.words s.port with
  | waiting words =>
    rw [hf] at h
    cases h
    exact .waiting words hf
  | command words rest =>
    have hwhole := decode_whole_ne_incomplete (fetch_command_whole (.inl hf))
    rw [hf] at h
    simp only [runFetched, runCommand] at h
    cases hd : decode words with
    | instr i more =>
      rw [hd] at h
      obtain rfl := exec_eq_next.1 h
      exact .executed i rest
    | illegal header more =>
      rw [hd] at h
      cases h
      exact .refused _ rest
    | incomplete => exact absurd hd hwhole
  | reset rest =>
    rw [hf] at h
    cases h
    exact .reset rest
  | interrupted words rest =>
    have hwhole := decode_whole_ne_incomplete (fetch_command_whole (.inr hf))
    rw [hf] at h
    simp only [runFetched, runInterrupted] at h
    cases hd : decode words with
    | instr i more =>
      rw [hd] at h
      simp only [exec_eq_effect] at h
      cases h
      exact .cutOff i rest
    | illegal header more =>
      rw [hd] at h
      cases h
      exact .refusedAndReset _ rest
    | incomplete => exact absurd hd hwhole

/-- An invariant of the registers holds after every step if every command keeps it and the reset state has it. -/
theorem step_keeps {P : State → Prop} (hregs : ∀ s u : State, P s → P (u.withRegistersOf s)) (hreset : P State.reset)
    (heffect : ∀ (i : Instr) (s : State), P s → P (i.effect s)) {s t : State} (hs : P s) (h : step s = .next t) :
    P t := by
  have hafter : ∀ rest, P (s.afterFetch rest) := fun rest => hregs s (s.afterFetch rest) hs
  have htaken : ∀ u : State, P u.takeReset := fun u => hregs State.reset u.takeReset hreset
  cases step_stepped h with
  | waiting words => exact hregs s { s with decoder := Decoder.ofWords words, port := [] } hs
  | executed i rest => exact heffect i _ (hafter rest)
  | refused r rest => exact hregs s ((s.afterFetch rest).refuse r) hs
  | reset rest => exact htaken _
  | refusedAndReset r rest => exact htaken _
  | cutOff i rest => exact hregs State.reset (cutOff (s.afterFetch rest) (i.effect (s.afterFetch rest))) hreset

end Sys2Proof.Machine

namespace Sys2Proof

open Machine

/-- Settles O9: words that make up no whole command leave the fetch waiting with them. -/
theorem partialCommandChangesNothing : Obligations.PartialCommandChangesNothing := by
  intro s ws h hport
  rw [step, hport, fetch_waiting _ _ h]
  rfl

/-- Settles O17: a command leaves the ports and the marks it found. -/
theorem commandsLeaveThePortAlone : Obligations.CommandsLeaveThePortAlone := by
  intro i s t h
  obtain rfl := exec_eq_next.1 h
  exact ⟨effect_decoder i s, effect_port i s, effect_refusalMark i s, effect_refusals i s, effect_freeCount i s⟩

/-- Settles O14: a refusal sets the mark, no way a step can end clears it, and a command is blind to it. -/
theorem refusalMarkIsStickyAndUnread : Obligations.RefusalMarkIsStickyAndUnread := by
  refine ⟨rfl, fun _ _ => rfl, fun s t h hmark => ?_, fun _ => rfl, fun i s t b h => ?_⟩
  · cases step_stepped h with
    | waiting words => exact hmark
    | executed i rest => exact (effect_refusalMark i _).trans hmark
    | refused r rest => rfl
    | reset rest => exact hmark
    | refusedAndReset r rest => rfl
    | cutOff i rest => exact hmark
  · obtain rfl := exec_eq_next.1 h
    have hblind := effect_withPortOf i s { s with refusalMark := b }
    rw [← effect_port_kept i s]
    exact exec_eq_next.2 hblind

/-- Settles O15: commands only append, and a reset keeps what was emitted. -/
theorem responsesOnlyGrow : Obligations.ResponsesOnlyGrow := by
  intro s t h
  cases step_stepped h with
  | waiting words => exact List.prefix_rfl
  | executed i rest => exact effect_responses_prefix i (s.afterFetch rest)
  | refused r rest => exact List.prefix_rfl
  | reset rest => exact List.prefix_rfl
  | refusedAndReset r rest => exact List.prefix_rfl
  | cutOff i rest => exact List.prefix_append _ _

/-- Settles O56: a fetch that waits holds no whole command, every other step leaves the decoder idle, and only a refusal
touches the mark and the record, both at once. -/
theorem stepKeepsDecoderWaitingAndMarkRecorded : Obligations.StepKeepsDecoderWaitingAndMarkRecorded := by
  intro s t hwaits hmark h
  have hidle : ∀ {u : State}, u.decoder = .idle → DecoderWaits u := fun hd => by rw [DecoderWaits, hd]; rfl
  have hrefused : ∀ (u : State) (r : Refusal), MarkRecorded (u.refuse r) := fun u r => by simp [MarkRecorded]
  cases step_stepped h with
  | waiting words hfetch =>
    refine ⟨?_, hmark⟩
    rw [DecoderWaits, Decoder.words_ofWords]
    exact fetch_waiting_not_whole hwaits hfetch
  | executed i rest =>
    refine ⟨hidle (effect_decoder i _), ?_⟩
    rw [MarkRecorded, effect_refusalMark, effect_refusals]
    exact hmark
  | refused r rest => exact ⟨hidle rfl, hrefused _ r⟩
  | reset rest => exact ⟨hidle rfl, hmark⟩
  | refusedAndReset r rest => exact ⟨hidle rfl, hrefused _ r⟩
  | cutOff i rest => exact ⟨hidle rfl, hmark⟩

end Sys2Proof
end

section
/-! What rendering changes and what only rendering changes: phases, recurrence states and the ring (spec/10_state.md R27,
R28, R30, R34, R37, R41; spec/44_render.md R266, R270). -/

namespace Sys2Proof.Machine

variable {κ : Shape}

/-! ### Phases and the ring outside RENDER -/

/-- The phases of the voices and of the modulator, the ring and its cursor are those of `s`. -/
structure PhasesAndRingKept (s t : State κ) : Prop where
  phase : ∀ v : Fin κ.voices, (t.voice v).phase = (s.voice v).phase
  mphase : t.fm.mphase = s.fm.mphase
  vis : t.vis = s.vis
  vcur : t.vcur = s.vcur

section PhasesAndRing
variable (c : Config) (s : State κ)

theorem PhasesAndRingKept.of_voices {s t : State κ} (hv : t.voices = s.voices) (hfm : t.fm.mphase = s.fm.mphase)
    (hvis : t.vis = s.vis) (hvcur : t.vcur = s.vcur) : PhasesAndRingKept s t :=
  ⟨fun v => congrArg (fun vs : Vector (Voice κ) κ.voices => vs[v].phase) hv, hfm, hvis, hvcur⟩

/-- A command that writes the filter array only leaves phases and ring. -/
theorem PhasesAndRingKept.of_filters {s t : State κ} (h : { t with filt := s.filt, fcount := s.fcount } = s) :
    PhasesAndRingKept s t :=
  .of_voices (congrArg State.voices h :) (congrArg (fun u => u.fm.mphase) h :) (congrArg State.vis h :)
    (congrArg State.vcur h :)

theorem setVoice_phasesAndRingKept (i : Fin κ.voices) {v : Voice κ} (h : v.phase = (s.voice i).phase) :
    PhasesAndRingKept s (s.setVoice i v) where
  phase j := by
    rw [State.setVoice_voice]
    split
    next hij => rw [h, hij]
    next => rfl
  mphase := rfl
  vis := rfl
  vcur := rfl

theorem noteOn_phasesAndRingKept (key : BitVec κ.keyWidth) (v0 : F32) : PhasesAndRingKept s (noteOn c key v0 s) := by
  unfold noteOn
  split
  · exact setVoice_phasesAndRingKept s _ rfl
  · obtain ⟨hphase, hmphase, hvis, hvcur⟩ :=
      setVoice_phasesAndRingKept s s.claimSlot
        (v := { s.voice s.claimSlot with active := true, key := key, frequency := clampFreq c v0 }) rfl
    unfold trigger harmonicRecompute
    split <;> exact ⟨hphase, hmphase, hvis, hvcur⟩

theorem noteOff_phasesAndRingKept (key : BitVec κ.keyWidth) : PhasesAndRingKept s (noteOff key s) := by
  unfold noteOff
  split
  · exact setVoice_phasesAndRingKept s _ rfl
  · exact .of_voices rfl rfl rfl rfl

theorem setWaveform_phasesAndRingKept (slot : Nat) (w : Waveform) : PhasesAndRingKept s (setWaveform slot w s) := by
  unfold setWaveform
  split
  · exact setVoice_phasesAndRingKept s _ rfl
  · exact .of_voices rfl rfl rfl rfl

theorem setAllWaveforms_voice (w : Waveform) (i : Fin κ.voices) :
    (setAllWaveforms w s).voice i = { s.voice i with waveform := w } := by
  simp [State.voice, setAllWaveforms]

theorem configured_mphase (fm : Fm) (enabled : Bool) (w : Waveform) (mode : FmMode) (v0 v1 : F32) :
    (fm.configured c enabled w mode v0 v1).mphase = fm.mphase := by
  cases mode <;> rfl

end PhasesAndRing

theorem effect_phasesAndRingKept (i : Instr) (s : State) (hi : ∀ n, i ≠ .render n) :
    PhasesAndRingKept s (i.effect s) := by
  cases i with
  | nop => exact .of_voices rfl rfl rfl rfl
  | noteon key v0 => exact noteOn_phasesAndRingKept _ s key v0
  | noteoff key => exact noteOff_phasesAndRingKept s key
  | setwv slot w => exact setWaveform_phasesAndRingKept s slot w
  | setwva w => exact ⟨fun v => (congrArg Voice.phase (setAllWaveforms_voice s w v) :), rfl, rfl, rfl⟩
  | setfm enabled w mode v0 v1 => exact .of_voices rfl (configured_mphase _ s.fm enabled w mode v0 v1) rfl rfl
  | addflt => exact .of_filters (addFilter_frame _ s)
  | rmflt index => exact .of_filters (removeFilter_frame s index)
  | setflt index t v0 v1 => exact .of_filters (setFilter_frame _ s index t v0 v1)
  | render n => exact absurd rfl (hi n)
  | rdvis => exact .of_voices rfl rfl rfl rfl

/-! ### RENDER -/

theorem renderBuffer_frame (c : Config) (n : Nat) (s : State κ) :
    RenderFrame s { renderBuffer c n s with responses := s.responses } := by
  have h := renderSamples_frame c n s
  exact { h with responses := rfl }

/-- After `n` samples the window is the old one and the samples, less the `n` oldest entries (R38, R266). -/
theorem visWindow_renderSamples (c : Config) (n : Nat) (s : State κ) :
    visWindow (renderSamples c n s).1 = (visWindow s ++ (renderSamples c n s).2).drop n := by
  induction n generalizing s with
  | zero => simp [renderSamples]
  | succ n ih =>
    have hpos : 1 ≤ (visWindow s).length := by rw [visWindow_length]; exact κ.visPos
    calc visWindow (renderSamples c n (sampleStep c s).1).1
        = (visWindow (sampleStep c s).1 ++ (renderSamples c n (sampleStep c s).1).2).drop n := ih _
      _ = ((visWindow s ++ (renderSamples c (n + 1) s).2).drop 1).drop n := by
          rw [visWindow_sampleStep, List.drop_append_of_le_length hpos, List.append_assoc]
          rfl
      _ = (visWindow s ++ (renderSamples c (n + 1) s).2).drop (n + 1) := by rw [List.drop_drop, Nat.add_comm]

theorem visWindow_emit (s : State κ) (ws : List Word) : visWindow (s.emit ws) = visWindow s := rfl

end Sys2Proof.Machine

namespace Sys2Proof

open Machine

/-- Settles O18, command by command. -/
theorem onlyRenderMovesPhasesAndRing : Obligations.OnlyRenderMovesPhasesAndRing := by
  intro i s t hi h
  obtain rfl := exec_eq_next.1 h
  obtain ⟨hphase, hmphase, hvis, hvcur⟩ := effect_phasesAndRingKept i s hi
  exact ⟨hphase, hmphase, hvis, hvcur⟩

/-- Settles O35: the frame of the sample steps; the emission touches the response sequence only. -/
theorem renderKeepsEveryParameter : Obligations.RenderKeepsEveryParameter := fun n s =>
  ⟨renderBuffer Config.hw n s, rfl, renderBuffer_frame Config.hw n s⟩

/-- Settles O37: the window moves by one sample per sample step, and the new response words are the samples. -/
theorem windowHoldsTheLastSamples : Obligations.WindowHoldsTheLastSamples := by
  intro n s t h
  obtain rfl := exec_eq_next.1 h
  have hnew : (renderBuffer Config.hw n s).responses.drop s.responses.length
      = (renderSamples Config.hw n s).2.map F32.bits := by
    rw [renderBuffer, State.emit_responses, (renderSamples_frame Config.hw n s).responses, List.drop_left]
  calc (visWindow (renderBuffer Config.hw n s)).map F32.bits
      = ((visWindow s ++ (renderSamples Config.hw n s).2).drop n).map F32.bits := by
        rw [renderBuffer, visWindow_emit, visWindow_renderSamples]
    _ = ((visWindow s).map F32.bits ++ (renderBuffer Config.hw n s).responses.drop s.responses.length).drop n := by
        rw [hnew, List.map_drop, List.map_append]

end Sys2Proof
end

section
/-! The oscillator step keeps the phase range (spec/40_oscillator.md R123): one increment is at most 4.0, so that a phase
below `TWO_PI` stays below `2 * TWO_PI - 2.0`, and one subtraction brings it back. -/

namespace Sys2Proof.F32

/-! ### Values that are not below zero -/

/-- Patterns with a clear sign are ordered by their magnitude bits. -/
theorem le_iff_magBits {x y : F32} (hx : x.sign = false) (hy : y.sign = false) (hn : y.isNaN = false) :
    le x y = true ↔ x.magBits ≤ y.magBits := by
  have hyb : y.magBits ≤ infBits := by simpa [isNaN] using hn
  have hxn : x.isNaN = false ↔ x.magBits ≤ infBits := by simp [isNaN]
  have hxr : x.rank = x.magBits := by simp [rank, hx]
  have hyr : y.rank = y.magBits := by simp [rank, hy]
  rw [le_iff, hxn, hxr, hyr]
  exact ⟨fun h => by omega, fun h => ⟨by omega, hn, by omega⟩⟩

theorem sign_of_pos {x : F32} (h : lt zero x = true) : x.sign = false := (rank_of_pos (lt_iff.1 h).2.2).1

theorem le_lt_trans {x y z : F32} (h₁ : le x y = true) (h₂ : lt y z = true) : lt x z = true := by
  obtain ⟨hx, -, hr₁⟩ := le_iff.1 h₁
  obtain ⟨-, hz, hr₂⟩ := lt_iff.1 h₂
  exact lt_iff.2 ⟨hx, hz, Int.lt_of_le_of_lt hr₁ hr₂⟩

theorem le_zero_of_sign {x : F32} (hs : x.sign = false) (hn : x.isNaN = false) : le zero x = true :=
  (le_iff_magBits (by decide) hs hn).2 (Nat.zero_le _)

theorem ne_neg_zero_of_sign {x : F32} (hs : x.sign = false) : x ≠ zero.neg := by
  rintro rfl
  exact absurd hs (by decide)

theorem val_nonneg {x : F32} (hx : x.isFinite = true) (h : le zero x = true) : 0 ≤ x.val :=
  (le_iff_val (x := zero) (by decide) hx).1 h

/-- The sum is `-0.0` or below zero only where both operands are. -/
theorem add_sign_of_nonneg {x y : F32} (hx : x.isFinite = true) (hy : y.isFinite = true)
    (hs : x.sign = false ∨ y.sign = false) (h : 0 ≤ x.val + y.val) : (add x y).sign = false := by
  have e : add x y = addNum x y := by
    simp [add, not_isNaN_of_isFinite hx, not_isNaN_of_isFinite hy, isInf_eq_false hx]
  rw [e]
  simp only [addNum, isInf_eq_false hx, isInf_eq_false hy, Bool.false_eq_true, if_false]
  split
  · rw [ofParts_sign _ _ (by decide)]
    rcases hs with hs | hs <;> simp [hs]
  · rw [ofParts_sign _ _ (roundMag_lt _ _)]
    simpa using h

/-! ### Scaling by a power of two -/

/-- In the normal range `k` exponent steps up multiply the magnitude by `2 ^ k`. -/
theorem magOf_scale {b : Nat} (hb : 2 ^ 23 ≤ b) (k : Nat) : magOf (b + k * 2 ^ 23) = magOf b * 2 ^ k := by
  unfold magOf
  have e : (b + k * 2 ^ 23) / 2 ^ 23 - 1 = b / 2 ^ 23 - 1 + k := by omega
  have hsig : b + k * 2 ^ 23 - (b / 2 ^ 23 - 1 + k) * 2 ^ 23 = b - (b / 2 ^ 23 - 1) * 2 ^ 23 := by omega
  rw [e, hsig, Nat.pow_add, Nat.mul_assoc]

/-- The product with `TWO_PI`, rounded, is below the product with 8, which is representable. -/
theorem mul_twoPi_mag_le {x : F32} (hx : x.isFinite = true) (hn : 2 ^ 23 ≤ x.magBits)
    (h : (mul twoPi x).isFinite = true) : (mul twoPi x).mag ≤ 8 * x.mag := by
  have hparts := mul_parts (x := twoPi) (by decide) hx
  have htwoPi : twoPi.mag ≤ 8 * 2 ^ 149 := by decide +kernel
  have hprod : twoPi.mag * x.mag ≤ 8 * 2 ^ 149 * x.mag := Nat.mul_le_mul_right _ htwoPi
  have hscale := magOf_scale hn 3
  rw [mag_eq_magOf, hparts, ofParts_magBits _ _ (roundMag_lt _ _)]
  rw [hparts, isFinite, ofParts_magBits _ _ (roundMag_lt _ _), decide_eq_true_eq] at h
  obtain ⟨hnear, -⟩ := roundMag_nearest (x.magBits + 3 * 2 ^ 23) (Nat.two_pow_pos 149) h
  rw [hscale, ← mag_eq_magOf] at hnear
  omega

end Sys2Proof.F32

namespace Sys2Proof

open F32

section SampleRate
variable {c : Config} (hv : c.valid = true)
include hv

theorem Config.sr_sign : c.sr.sign = false := by
  obtain ⟨-, hsr, -⟩ := Config.valid_parts hv
  exact sign_of_pos (lt_of_lt_of_le (y := twoHundredForty) (by decide) hsr)

theorem Config.sr_magBits_ge : 0x43700000 ≤ c.sr.magBits := by
  obtain ⟨-, hsr, -⟩ := Config.valid_parts hv
  have hle : le twoHundredForty c.sr = true := hsr
  exact (le_iff_magBits (by decide) (Config.sr_sign hv) (not_isNaN_of_le_right hle)).1 hle

/-- Half the sample rate is exact: one exponent step down. -/
theorem Config.freqMax_eq : c.freqMax = ofParts false (c.sr.magBits - 2 ^ 23) := by
  obtain ⟨hfin, -⟩ := Config.valid_parts hv
  have hge := Config.sr_magBits_ge hv
  have hlt : c.sr.magBits < infBits := by simpa [isFinite] using hfin
  have htwo : two.mag = 2 * 2 ^ 149 := by decide +kernel
  have hsr : c.sr.mag * 2 ^ 149 = magOf (c.sr.magBits - 2 ^ 23) * two.mag := by
    have hscale := magOf_scale (b := c.sr.magBits - 2 ^ 23) (by omega) 1
    rw [Nat.one_mul, Nat.sub_add_cancel (by omega)] at hscale
    rw [mag_eq_magOf, hscale, htwo]
    ring
  rw [Config.freqMax, div_parts hfin (by decide) (by decide), Config.sr_sign hv, hsr,
    roundMag_magOf _ _ (by rw [htwo]; decide) (by omega)]
  rfl

theorem Config.freqMax_sign : c.freqMax.sign = false := by
  have hlt := c.sr.magBits_lt
  rw [Config.freqMax_eq hv, ofParts_sign _ _ (by omega)]

theorem Config.freqMax_magBits : c.freqMax.magBits + 2 ^ 23 = c.sr.magBits := by
  have hge := Config.sr_magBits_ge hv
  have hlt := c.sr.magBits_lt
  rw [Config.freqMax_eq hv, ofParts_magBits _ _ (by omega), Nat.sub_add_cancel (by omega)]

theorem Config.sr_mag : c.sr.mag = 2 * c.freqMax.mag := by
  have hge := Config.sr_magBits_ge hv
  have hmax := Config.freqMax_magBits hv
  have hscale := magOf_scale (b := c.freqMax.magBits) (by omega) 1
  rw [Nat.one_mul, hmax] at hscale
  rw [mag_eq_magOf, mag_eq_magOf, hscale]
  ring

end SampleRate

end Sys2Proof

namespace Sys2Proof.Machine

open F32

section Increment
variable {c : Config} (hv : c.valid = true)
include hv

/-- A legal frequency is finite, has a clear sign, and is at most `FREQ_MAX` in magnitude. -/
theorem FreqLegal.parts {f : F32} (hf : FreqLegal c f) :
    f.sign = false ∧ f.isFinite = true ∧ f.magBits ≤ c.freqMax.magBits := by
  obtain ⟨hmin, hmax⟩ := hf
  obtain ⟨-, hfin⟩ := Config.freqMax_ge hv
  have hsign := sign_of_pos (lt_of_lt_of_le (Config.freqMin_pos hv) hmin)
  have hle := (le_iff_magBits hsign (Config.freqMax_sign hv) (not_isNaN_of_isFinite hfin)).1 hmax
  simp only [isFinite, decide_eq_true_eq] at hfin ⊢
  exact ⟨hsign, by omega, hle⟩

/-- `TWO_PI` times a legal frequency is finite and at most four times the sample rate. -/
theorem mul_twoPi_freq {f : F32} (hstep : c.stepFinite = true) (hf : FreqLegal c f) :
    (mul twoPi f).isFinite = true ∧ (mul twoPi f).mag ≤ 4 * c.sr.mag := by
  obtain ⟨-, hfin, hle⟩ := FreqLegal.parts hv hf
  obtain ⟨-, hmaxFin⟩ := Config.freqMax_ge hv
  have hmaxBits := Config.freqMax_magBits hv
  have hge := Config.sr_magBits_ge hv
  have hmono := mul_magBits_mono (x := twoPi) (x' := twoPi) (by decide) hfin (by decide) hmaxFin (Nat.le_refl _) hle
  have hbound := mul_twoPi_mag_le hmaxFin (by omega) hstep
  have hmag := mag_mono hstep hmono
  rw [Config.sr_mag hv]
  refine ⟨?_, by omega⟩
  simp only [Config.stepFinite, isFinite, decide_eq_true_eq] at hstep ⊢
  omega

/-- The increment of a legal frequency is at most 4.0 and never negative or `-0.0` (R123). -/
theorem phaseInc_bounds {f : F32} (hstep : c.stepFinite = true) (hf : FreqLegal c f) :
    (phaseInc c f).sign = false ∧ le (phaseInc c f) ⟨0x40800000⟩ = true := by
  obtain ⟨hsrFin, -⟩ := Config.valid_parts hv
  obtain ⟨hsign, hfin, -⟩ := FreqLegal.parts hv hf
  obtain ⟨hprodFin, hprod⟩ := mul_twoPi_freq hv hstep hf
  have hge := Config.sr_magBits_ge hv
  have hsrZero : c.sr.isZero = false := by
    rw [isZero, decide_eq_false_iff_not]
    omega
  have hsrPos := mag_pos hsrFin hsrZero
  have hfour : magOf 0x40800000 = 4 * 2 ^ 149 := by decide +kernel
  have hround : roundMag ((mul twoPi f).mag * 2 ^ 149) c.sr.mag ≤ 0x40800000 :=
    calc roundMag ((mul twoPi f).mag * 2 ^ 149) c.sr.mag
        ≤ roundMag (magOf 0x40800000 * c.sr.mag) c.sr.mag := by
          refine roundMag_mono hsrPos hsrPos (Nat.mul_le_mul_right _ ?_)
          rw [hfour]
          omega
      _ = 0x40800000 := roundMag_magOf _ _ hsrPos (by decide)
  have hincSign : (phaseInc c f).sign = false := by
    rw [phaseInc, div_sign hprodFin hsrFin hsrZero, mul_sign (by decide) hfin, hsign, Config.sr_sign hv]
    rfl
  refine ⟨hincSign, (le_iff_magBits hincSign (by decide) (by decide)).2 ?_⟩
  rw [phaseInc, div_parts hprodFin hsrFin hsrZero, ofParts_magBits _ _ (roundMag_lt _ _)]
  exact hround

end Increment

theorem phaseLegal_of_sign {x : F32} (hs : x.sign = false) (h : lt x twoPi = true) : PhaseLegal x :=
  ⟨⟨le_zero_of_sign hs (lt_iff.1 h).1, h⟩, ne_neg_zero_of_sign hs⟩

/-- A phase in range is at most the largest value below `TWO_PI`. -/
theorem PhaseInRange.le_max {p : F32} (hp : PhaseInRange p) : le p ⟨0x40C90FDA⟩ = true := by
  obtain ⟨-, hlt⟩ := hp
  obtain ⟨hn, -, hr⟩ := lt_iff.1 hlt
  have htwoPi : twoPi.rank = (⟨0x40C90FDA⟩ : F32).rank + 1 := by decide +kernel
  exact le_iff.2 ⟨hn, by decide, by omega⟩

/-- The oscillator step (R123): the sum stays below `2 * TWO_PI - 2.0`, and the subtraction of `TWO_PI` brings it back. -/
theorem advance_phaseLegal {c : Config} {p f : F32} (hv : c.valid = true) (hstep : c.stepFinite = true)
    (hp : PhaseInRange p) (hf : FreqLegal c f) : PhaseLegal (advance c p f) := by
  obtain ⟨hincSign, hinc⟩ := phaseInc_bounds hv hstep hf
  have hinc0 := le_zero_of_sign hincSign (not_isNaN_of_le_left hinc)
  have hpFin : p.isFinite = true := isFinite_of_between hp.1 hp.le_max (by decide) (by decide)
  have hincFin := isFinite_of_between hinc0 hinc (by decide) (by decide)
  have hsumSign : (add p (phaseInc c f)).sign = false :=
    add_sign_of_nonneg hpFin hincFin (.inr hincSign)
      (Int.add_nonneg (val_nonneg hpFin hp.1) (val_nonneg hincFin hinc0))
  have hsumMax : le (add p (phaseInc c f)) (add ⟨0x40C90FDA⟩ ⟨0x40800000⟩) = true :=
    add_mono hpFin (by decide) hincFin (by decide) hp.le_max hinc
  have hsum0 := le_zero_of_sign hsumSign (not_isNaN_of_le_left hsumMax)
  have hsumFin := isFinite_of_between hsum0 hsumMax (by decide) (by decide +kernel)
  unfold advance
  generalize add p (phaseInc c f) = sum at *
  split
  next hwrap =>
    have hwrap : le twoPi sum = true := hwrap
    have hdiffSign : (sub sum twoPi).sign = false := by
      rw [F32.sub_eq_add_neg hsumFin (by decide)]
      refine add_sign_of_nonneg hsumFin (by decide) (.inl hsumSign) ?_
      rw [neg_val]
      have := (le_iff_val (by decide) hsumFin).1 hwrap
      omega
    have hdiffMax : le (sub sum twoPi) (sub (add ⟨0x40C90FDA⟩ ⟨0x40800000⟩) twoPi) = true :=
      sub_mono hsumFin (by decide +kernel) (by decide) (by decide) hsumMax (by decide)
    have hbound : lt (sub (add ⟨0x40C90FDA⟩ ⟨0x40800000⟩) twoPi) twoPi = true := by decide +kernel
    exact phaseLegal_of_sign hdiffSign (le_lt_trans hdiffMax hbound)
  next hbelow =>
    have hn : sum.isNaN = false := not_isNaN_of_isFinite hsumFin
    refine phaseLegal_of_sign hsumSign (lt_iff.2 ⟨hn, by decide, ?_⟩)
    by_contra hc
    exact hbelow (ge_iff.2 ⟨hn, by decide, by omega⟩)

end Sys2Proof.Machine
end

section
/-! The invariants of the registers: every command keeps them, and so does every step (spec/10_state.md R29, R32, R36;
spec/41_voice_pool.md R156; spec/43_filter.md R217). -/

namespace Sys2Proof.Machine

open F32

variable {κ : Shape}

/-! ### Reading the registers of equal files -/

theorem State.voice_congr {s t : State κ} (h : t.voices = s.voices) (i : Fin κ.voices) : t.voice i = s.voice i :=
  congrArg (fun vs : Vector (Voice κ) κ.voices => vs[i]) h

theorem State.filter_congr {s t : State κ} (h : t.filt = s.filt) (k : Fin κ.filters) : t.filter k = s.filter k :=
  congrArg (fun fs : Vector Filter κ.filters => fs[k]) h

/-- A property that a write gives to one slot and that every slot had holds of every slot after the write. -/
theorem State.setVoice_forall {Q : Voice κ → Prop} {s : State κ} {i : Fin κ.voices} {v : Voice κ} (hv : Q v)
    (h : ∀ j, Q (s.voice j)) (j : Fin κ.voices) : Q ((s.setVoice i v).voice j) := by
  rw [State.setVoice_voice]
  split
  · exact hv
  · exact h j

/-! ### Keys -/

/-- Keys stay unique where no slot becomes active and the active slots keep their keys. -/
theorem KeysUnique.of_released {s t : State κ} (hs : KeysUnique s)
    (h : ∀ i, (t.voice i).active = true → (s.voice i).active = true ∧ (t.voice i).key = (s.voice i).key) :
    KeysUnique t := by
  intro i j hi hj hkey
  obtain ⟨hsi, hki⟩ := h i hi
  obtain ⟨hsj, hkj⟩ := h j hj
  exact hs i j hsi hsj (hki.symm.trans (hkey.trans hkj))

theorem KeysUnique.of_voices {s t : State κ} (hs : KeysUnique s) (h : t.voices = s.voices) : KeysUnique t :=
  hs.of_released fun i hi => by
    rw [State.voice_congr h] at hi ⊢
    exact ⟨hi, rfl⟩

/-- A write that leaves a slot's key and activates nothing keeps the keys unique. -/
theorem KeysUnique.setVoice {s : State κ} (hs : KeysUnique s) {i : Fin κ.voices} {v : Voice κ}
    (hkey : v.key = (s.voice i).key) (hactive : v.active = true → (s.voice i).active = true) :
    KeysUnique (s.setVoice i v) :=
  hs.of_released fun j hj => by
    rw [State.setVoice_voice] at hj ⊢
    split at hj
    next hij =>
      subst hij
      exact ⟨hactive hj, by simp [hkey]⟩
    next hij => exact ⟨hj, by simp [hij]⟩

/-- A slot may take a key that no active slot holds (R156). -/
theorem KeysUnique.setVoice_fresh {s : State κ} (hs : KeysUnique s) {i : Fin κ.voices} {v : Voice κ}
    (hfresh : ∀ j, (s.voice j).holds v.key = false) : KeysUnique (s.setVoice i v) := by
  have hother : ∀ j, (s.voice j).active = true → (s.voice j).key ≠ v.key := fun j hj hk => by
    have := hfresh j
    rw [(Voice.holds_iff _ _).2 ⟨hj, hk⟩] at this
    cases this
  intro j k hj hk hkey
  rw [State.setVoice_voice] at hj hkey
  rw [State.setVoice_voice] at hk hkey
  split at hj <;> split at hk
  next hij hik => exact hij.symm.trans hik
  next hij hik =>
    rw [if_pos hij, if_neg hik] at hkey
    exact absurd hkey.symm (hother k hk)
  next hij hik =>
    rw [if_neg hij, if_pos hik] at hkey
    exact absurd hkey (hother j hj)
  next hij hik =>
    rw [if_neg hij, if_neg hik] at hkey
    exact hs j k hj hk hkey

theorem harmonicRecompute_voices (c : Config) (f : F32) (s : State κ) :
    (harmonicRecompute c f s).voices = s.voices := by
  unfold harmonicRecompute
  split <;> rfl

theorem noteOn_keysUnique (c : Config) {s : State κ} (hs : KeysUnique s) (key : BitVec κ.keyWidth) (v0 : F32) :
    KeysUnique (noteOn c key v0 s) := by
  unfold noteOn
  split
  next i hfind => exact hs.setVoice rfl id
  next hfind =>
    have hclaimed := hs.setVoice_fresh (i := s.claimSlot)
      (v := { s.voice s.claimSlot with active := true, key := key, frequency := clampFreq c v0 })
      (State.findKey_eq_none.1 hfind)
    exact hclaimed.of_voices (harmonicRecompute_voices c _ _)

theorem noteOff_keysUnique {s : State κ} (hs : KeysUnique s) (key : BitVec κ.keyWidth) : KeysUnique (noteOff key s) := by
  unfold noteOff
  split
  · exact hs.setVoice rfl (fun h => by cases h)
  · exact hs

theorem setWaveform_keysUnique {s : State κ} (hs : KeysUnique s) (slot : Nat) (w : Waveform) :
    KeysUnique (setWaveform slot w s) := by
  unfold setWaveform
  split
  · exact hs.setVoice rfl id
  · exact hs

theorem effect_keysUnique (i : Instr) (s : State) (hs : KeysUnique s) : KeysUnique (i.effect s) := by
  cases i with
  | nop => exact hs
  | noteon key v0 => exact noteOn_keysUnique _ hs key v0
  | noteoff key => exact noteOff_keysUnique hs key
  | setwv slot w => exact setWaveform_keysUnique hs slot w
  | setwva w =>
    refine hs.of_released fun v hv => ?_
    have hw := setAllWaveforms_voice s w v
    exact ⟨(congrArg Voice.active hw :).symm.trans hv, (congrArg Voice.key hw :)⟩
  | setfm enabled w mode v0 v1 => exact hs
  | addflt => exact hs.of_voices (congrArg State.voices (addFilter_frame Config.hw s) :)
  | rmflt index => exact hs.of_voices (congrArg State.voices (removeFilter_frame s index) :)
  | setflt index t v0 v1 => exact hs.of_voices (congrArg State.voices (setFilter_frame Config.hw s index t v0 v1) :)
  | render n =>
    have hframe := renderSamples_frame Config.hw n s
    refine hs.of_released fun v hv => ⟨(hframe.active v).symm.trans hv, ?_⟩
    exact (congrArg Voice.key (hframe.voice v) :)
  | rdvis => exact hs

/-! ### Voice frequencies and the FM operator -/

theorem clampFreq_legal {c : Config} (hv : c.valid = true) (x : F32) : FreqLegal c (clampFreq c x) :=
  clamp_between x (Config.freq_bounds hv)

/-- The frequencies of the voices and of the modulator are legal: what both register invariants say of them. -/
def FreqsLegal (c : Config) (s : State κ) : Prop := VoiceFreqsLegal c s ∧ FreqLegal c s.fm.mfreq

section Freqs
variable {c : Config} {s : State κ}

theorem FreqsLegal.of_files {t : State κ} (hs : FreqsLegal c s) (hvoices : t.voices = s.voices) (hfm : t.fm = s.fm) :
    FreqsLegal c t := by
  obtain ⟨hfreqs, hmfreq⟩ := hs
  refine ⟨fun i => ?_, hfm ▸ hmfreq⟩
  rw [State.voice_congr hvoices]
  exact hfreqs i

/-- A command that writes the filter array only leaves the frequencies. -/
theorem FreqsLegal.of_filters {t : State κ} (hs : FreqsLegal c s)
    (h : { t with filt := s.filt, fcount := s.fcount } = s) : FreqsLegal c t :=
  hs.of_files (congrArg State.voices h :) (congrArg State.fm h :)

theorem FreqsLegal.of_renderFrame {t : State κ} (hs : FreqsLegal c s) (h : RenderFrame s t) : FreqsLegal c t := by
  obtain ⟨hfreqs, hmfreq⟩ := hs
  refine ⟨fun i => ?_, ?_⟩
  · rw [h.voice i]
    exact hfreqs i
  · rw [h.fm]
    exact hmfreq

theorem FreqsLegal.setVoice (hs : FreqsLegal c s) {i : Fin κ.voices} {v : Voice κ} (hv : FreqLegal c v.frequency) :
    FreqsLegal c (s.setVoice i v) :=
  ⟨State.setVoice_forall (Q := fun v => FreqLegal c v.frequency) hv hs.1, hs.2⟩

theorem harmonicRecompute_freqsLegal (hc : c.valid = true) (hs : FreqsLegal c s) (f : F32) :
    FreqsLegal c (harmonicRecompute c f s) := by
  unfold harmonicRecompute
  split
  · exact ⟨hs.1, clampFreq_legal hc _⟩
  · exact hs

theorem noteOn_freqsLegal (hc : c.valid = true) (hs : FreqsLegal c s) (key : BitVec κ.keyWidth) (v0 : F32) :
    FreqsLegal c (noteOn c key v0 s) := by
  have hfreq := clampFreq_legal hc v0
  unfold noteOn
  split
  · exact hs.setVoice hfreq
  · refine harmonicRecompute_freqsLegal hc (FreqsLegal.setVoice hs ?_) _
    exact hfreq

theorem noteOff_freqsLegal (hs : FreqsLegal c s) (key : BitVec κ.keyWidth) : FreqsLegal c (noteOff key s) := by
  unfold noteOff
  split
  next i _ => exact hs.setVoice (hs.1 i)
  next => exact hs

theorem setWaveform_freqsLegal (hs : FreqsLegal c s) (slot : Nat) (w : Waveform) :
    FreqsLegal c (setWaveform slot w s) := by
  unfold setWaveform
  split
  next h => exact hs.setVoice (hs.1 ⟨slot, h⟩)
  next => exact hs

theorem setAllWaveforms_freqsLegal (hs : FreqsLegal c s) (w : Waveform) : FreqsLegal c (setAllWaveforms w s) := by
  refine ⟨fun i => ?_, hs.2⟩
  rw [setAllWaveforms_voice]
  exact hs.1 i

theorem setFm_freqsLegal (hc : c.valid = true) (hs : FreqsLegal c s) (enabled : Bool) (w : Waveform) (mode : FmMode)
    (v0 v1 : F32) : FreqsLegal c (setFm c enabled w mode v0 v1 s) := by
  refine ⟨hs.1, ?_⟩
  cases mode with
  | harmonic => exact hs.2
  | inharmonic => exact clampFreq_legal hc v0

end Freqs

theorem effect_freqsLegal (i : Instr) (s : State) (hs : FreqsLegal Config.hw s) : FreqsLegal Config.hw (i.effect s) := by
  cases i with
  | nop => exact hs
  | noteon key v0 => exact noteOn_freqsLegal Config.hw_valid hs key v0
  | noteoff key => exact noteOff_freqsLegal hs key
  | setwv slot w => exact setWaveform_freqsLegal hs slot w
  | setwva w => exact setAllWaveforms_freqsLegal hs w
  | setfm enabled w mode v0 v1 => exact setFm_freqsLegal Config.hw_valid hs enabled w mode v0 v1
  | addflt => exact hs.of_filters (addFilter_frame _ s)
  | rmflt index => exact hs.of_filters (removeFilter_frame s index)
  | setflt index t v0 v1 => exact hs.of_filters (setFilter_frame _ s index t v0 v1)
  | render n => exact (hs.of_renderFrame (renderSamples_frame Config.hw n s)).of_files rfl rfl
  | rdvis => exact hs

/-! ### The FM parameters -/

theorem clampBeta_legal {c : Config} (hmin : c.betaMin = zero) (hmax : c.betaMax = one) (x : F32) :
    le zero (clampBeta c x) = true ∧ le (clampBeta c x) one = true ∧ clampBeta c x ≠ zero.neg := by
  unfold clampBeta
  rw [hmin, hmax]
  obtain ⟨hlo, hhi⟩ := clamp_between x (lo := zero) (hi := one) (by decide)
  refine ⟨hlo, hhi, ?_⟩
  unfold clamp
  split_ifs with hlow hhigh
  · decide
  · decide
  · rintro rfl
    exact hlow (by decide)

/-- The ratio and the index are legal: what SETFM alone writes. -/
def RatioAndIndexLegal (c : Config) (fm : Fm) : Prop :=
  RatioLegal c fm.ratio ∧ le zero fm.beta = true ∧ le fm.beta one = true ∧ fm.beta ≠ zero.neg

theorem configured_ratioAndIndexLegal {c : Config} (hc : c.valid = true) (hmin : c.betaMin = zero)
    (hmax : c.betaMax = one) {fm : Fm} (h : RatioAndIndexLegal c fm) (enabled : Bool) (w : Waveform) (mode : FmMode)
    (v0 v1 : F32) :
    RatioAndIndexLegal c (fm.configured c enabled w mode v0 v1) := by
  have hbeta := clampBeta_legal hmin hmax v1
  cases mode with
  | harmonic => exact ⟨.inl (clampMin_ge v0 (Config.ratioMin_not_isNaN hc)), hbeta⟩
  | inharmonic => exact ⟨h.1, hbeta⟩

/-- NOTEON writes no FM register but the modulator's frequency (R154). -/
theorem noteOn_fm (c : Config) (s : State κ) (key : BitVec κ.keyWidth) (v0 : F32) :
    (noteOn c key v0 s).fm = { s.fm with mfreq := (noteOn c key v0 s).fm.mfreq } := by
  unfold noteOn
  split
  · rfl
  · unfold trigger harmonicRecompute
    split <;> rfl

theorem effect_ratioAndIndexLegal (i : Instr) (s : State) (hs : RatioAndIndexLegal Config.hw s.fm) :
    RatioAndIndexLegal Config.hw (i.effect s).fm := by
  have hsame : ∀ {fm : Fm}, fm = s.fm → RatioAndIndexLegal Config.hw fm := fun h => h ▸ hs
  cases i with
  | nop => exact hs
  | noteon key v0 =>
    have hfm : ((Instr.noteon key v0).effect s).fm = _ := noteOn_fm Config.hw s key v0
    rw [hfm]
    exact hs
  | noteoff key => exact hsame (congrArg State.fm (noteOff_frame s key) :)
  | setwv slot w => exact hsame (congrArg State.fm (setWaveform_frame s slot w) :)
  | setwva w => exact hs
  | setfm enabled w mode v0 v1 =>
    exact configured_ratioAndIndexLegal Config.hw_valid rfl rfl hs enabled w mode v0 v1
  | addflt => exact hsame (congrArg State.fm (addFilter_frame Config.hw s) :)
  | rmflt index => exact hsame (congrArg State.fm (removeFilter_frame s index) :)
  | setflt index t v0 v1 => exact hsame (congrArg State.fm (setFilter_frame Config.hw s index t v0 v1) :)
  | render n =>
    have hfm : ((Instr.render n).effect s).fm = _ := (renderSamples_frame Config.hw n s).fm
    rw [hfm]
    exact hs
  | rdvis => exact hs

/-! ### Filters -/

/-- Every filter that exists has the property. -/
def AllFilters (Q : Filter → Prop) (s : State κ) : Prop :=
  ∀ k : Fin κ.filters, k.val < s.fcount.val → Q (s.filter k)

section AllFilters
variable {Q : Filter → Prop} {c : Config} {s : State κ}

theorem AllFilters.of_files {t : State κ} (hs : AllFilters Q s) (hfilt : t.filt = s.filt)
    (hcount : t.fcount = s.fcount) : AllFilters Q t := by
  intro k hk
  rw [State.filter_congr hfilt]
  exact hs k (hcount ▸ hk)

theorem addFilter_allFilters (hfresh : ∀ f : Filter, Q (f.fresh c)) (hs : AllFilters Q s) :
    AllFilters Q (addFilter c s) := by
  by_cases hroom : s.fcount.val < κ.filters
  · intro k hk
    rw [addFilter_fcount c hroom] at hk
    rw [addFilter_filter c hroom]
    split
    next => exact hfresh _
    next hne => exact hs k (by omega)
  · rw [addFilter, dif_neg hroom]
    exact hs

theorem removeFilter_allFilters (hs : AllFilters Q s) (index : Nat) : AllFilters Q (removeFilter index s) := by
  by_cases hindex : index < s.fcount.val
  · intro k hk
    rw [removeFilter_fcount hindex] at hk
    rw [removeFilter_filter hindex k (by omega)]
    split
    · exact hs k (by omega)
    · exact hs _ (show k.val + 1 < s.fcount.val by omega)
  · rw [removeFilter, if_neg hindex]
    exact hs

theorem setFilter_fcount (index : Nat) (t : FilterType) (v0 v1 : F32) :
    (setFilter c index t v0 v1 s).fcount = s.fcount := by
  unfold setFilter
  split <;> rfl

theorem setFilter_allFilters {t : FilterType} {v0 v1 : F32} (hparams : ∀ f : Filter, Q (f.withParameters c t v0 v1))
    (hs : AllFilters Q s) (index : Nat) : AllFilters Q (setFilter c index t v0 v1 s) := by
  by_cases hindex : index < s.fcount.val
  · intro k hk
    rw [setFilter_fcount] at hk
    rw [setFilter_filter c t v0 v1 hindex]
    split
    · exact hparams _
    · exact hs k hk
  · rw [setFilter, dif_neg hindex]
    exact hs

end AllFilters

/-- A property that the clamped and designed parameters have, whatever the recurrence state, is kept by every command: the
others move whole records or write recurrence state only (R213, R217, R222). -/
theorem effect_allFilters {Q : Filter → Prop} (hparams : ∀ f t v0 v1, Q (Filter.withParameters Config.hw f t v0 v1))
    (hstate : ∀ (f : Filter) (x1 x2 y1 y2 : F32), Q f → Q { f with x1 := x1, x2 := x2, y1 := y1, y2 := y2 })
    (i : Instr) (s : State) (hs : AllFilters Q s) : AllFilters Q (i.effect s) := by
  cases i with
  | nop => exact hs
  | noteon key v0 =>
    have hframe := noteOn_frame Config.hw s key v0
    exact hs.of_files (congrArg State.filt hframe :) (congrArg State.fcount hframe :)
  | noteoff key =>
    have hframe := noteOff_frame s key
    exact hs.of_files (congrArg State.filt hframe :) (congrArg State.fcount hframe :)
  | setwv slot w =>
    have hframe := setWaveform_frame s slot w
    exact hs.of_files (congrArg State.filt hframe :) (congrArg State.fcount hframe :)
  | setwva w => exact hs
  | setfm enabled w mode v0 v1 => exact hs
  | addflt => exact addFilter_allFilters (fun f => hstate _ _ _ _ _ (hparams f _ _ _)) hs
  | rmflt index => exact removeFilter_allFilters hs index
  | setflt index t v0 v1 => exact setFilter_allFilters (fun f => hparams f t v0 v1) hs index
  | render n =>
    have hframe := renderSamples_frame Config.hw n s
    have hsamples : AllFilters Q (renderSamples Config.hw n s).1 := fun k hk => by
      rw [hframe.fcount] at hk
      rw [hframe.filter k]
      exact hstate _ _ _ _ _ (hs k hk)
    exact hsamples
  | rdvis => exact hs

theorem withParameters_paramsLegal (f : Filter) (t : FilterType) (v0 v1 : F32) :
    FilterParamsLegal Config.hw (f.withParameters Config.hw t v0 v1) := by
  obtain ⟨hlo, hhi⟩ := clamp_between v0 (Config.cutoff_bounds Config.hw_valid)
  exact ⟨hlo, hhi, clampMin_ge v1 (by decide)⟩

theorem withParameters_designed (c : Config) (f : Filter) (t : FilterType) (v0 v1 : F32) :
    FilterDesigned c (f.withParameters c t v0 v1) := rfl

theorem effect_filtersDesigned (i : Instr) (s : State) (hs : FiltersDesigned Config.hw s) :
    FiltersDesigned Config.hw (i.effect s) :=
  effect_allFilters (withParameters_designed Config.hw) (fun _ _ _ _ _ h => h) i s hs

/-! ### All parameters -/

theorem paramsLegal_iff {c : Config} {s : State κ} : ParamsLegal c s ↔
    FreqsLegal c s ∧ RatioAndIndexLegal c s.fm ∧ AllFilters (FilterParamsLegal c) s :=
  ⟨fun ⟨hvoices, ⟨hmfreq, hfm⟩, hfilters⟩ => ⟨⟨hvoices, hmfreq⟩, hfm, hfilters⟩,
    fun ⟨⟨hvoices, hmfreq⟩, hfm, hfilters⟩ => ⟨hvoices, ⟨hmfreq, hfm⟩, hfilters⟩⟩

theorem effect_paramsLegal (i : Instr) (s : State) (hs : ParamsLegal Config.hw s) :
    ParamsLegal Config.hw (i.effect s) := by
  obtain ⟨hfreqs, hfm, hfilters⟩ := paramsLegal_iff.1 hs
  exact paramsLegal_iff.2 ⟨effect_freqsLegal i s hfreqs, effect_ratioAndIndexLegal i s hfm,
    effect_allFilters withParameters_paramsLegal (fun _ _ _ _ _ h => h) i s hfilters⟩

/-! ### Phases -/

section Phases
variable {c : Config} {s : State κ}

theorem PhasesLegal.of_files {t : State κ} (hs : PhasesLegal c s) (hvoices : t.voices = s.voices) (hfm : t.fm = s.fm) :
    PhasesLegal c t := by
  obtain ⟨hfreqs, hmfreq⟩ := FreqsLegal.of_files ⟨hs.freqs, hs.mfreq⟩ hvoices hfm
  refine ⟨hfreqs, hmfreq, fun hstep i => ?_, fun hstep => ?_⟩
  · rw [State.voice_congr hvoices]
    exact hs.phases hstep i
  · rw [hfm]
    exact hs.mphase hstep

variable (hc : c.valid = true)
include hc

theorem PhasesLegal.advanceVoice (hs : PhasesLegal c s) (v : Fin κ.voices) :
    PhasesLegal c (s.setVoice v ((s.voice v).advanced c)) where
  freqs := State.setVoice_forall (Q := fun v => FreqLegal c v.frequency) (hs.freqs v) hs.freqs
  mfreq := hs.mfreq
  phases hstep := State.setVoice_forall (Q := fun v => PhaseLegal v.phase)
    (advance_phaseLegal hc hstep (hs.phases hstep v).1 (hs.freqs v)) (hs.phases hstep)
  mphase := hs.mphase

theorem PhasesLegal.advanceFm (hs : PhasesLegal c s) : PhasesLegal c (s.withFm (s.fm.advanced c)) where
  freqs := hs.freqs
  mfreq := hs.mfreq
  phases := hs.phases
  mphase hstep := advance_phaseLegal hc hstep (hs.mphase hstep).1 hs.mfreq

theorem mixVoice_phasesLegal {acc : State κ × F32} (h : PhasesLegal c acc.1) (v : Fin κ.voices) :
    PhasesLegal c (mixVoice c acc v).1 := by
  simp only [mixVoice]
  split
  · exact (h.advanceFm hc).advanceVoice hc v
  · exact h.advanceVoice hc v

theorem mixVoices_phasesLegal (hs : PhasesLegal c s) : PhasesLegal c (mixVoices c s).1 :=
  List.foldlRecOn (motive := fun acc => PhasesLegal c acc.1) s.activeVoices (mixVoice c) hs
    fun _ h v _ => mixVoice_phasesLegal hc h v

omit hc in
theorem chain_phasesLegal (hs : PhasesLegal c s) (x : F32) : PhasesLegal c (chain x s).1 :=
  List.foldlRecOn (motive := fun acc => PhasesLegal c acc.1) s.chainIndices process hs
    fun _ h _ _ => h.of_files rfl rfl

theorem renderSamples_phasesLegal (hs : PhasesLegal c s) (n : Nat) : PhasesLegal c (renderSamples c n s).1 := by
  induction n generalizing s with
  | zero => exact hs
  | succ n ih =>
    have hsample : PhasesLegal c (sampleStep c s).1 :=
      (chain_phasesLegal (mixVoices_phasesLegal hc hs) _).of_files rfl rfl
    exact ih hsample

end Phases

theorem effect_phasesLegal (i : Instr) (s : State) (hs : PhasesLegal Config.hw s) :
    PhasesLegal Config.hw (i.effect s) := by
  by_cases hi : ∃ n, i = .render n
  · obtain ⟨n, rfl⟩ := hi
    exact (renderSamples_phasesLegal Config.hw_valid hs n).of_files rfl rfl
  · obtain ⟨hfreqs, hmfreq⟩ := effect_freqsLegal i s ⟨hs.freqs, hs.mfreq⟩
    have hkept := effect_phasesAndRingKept i s (not_exists.1 hi)
    refine ⟨hfreqs, hmfreq, fun hstep v => ?_, fun hstep => ?_⟩
    · rw [hkept.phase v]
      exact hs.phases hstep v
    · rw [hkept.mphase]
      exact hs.mphase hstep

/-! ### The power-on state -/

theorem reset_freqsLegal : FreqsLegal Config.hw State.reset := by
  have h := clampFreq_legal Config.hw_valid fourHundredForty
  refine ⟨fun i => ?_, h⟩
  rw [State.reset_voice]
  exact h

theorem reset_keysUnique : KeysUnique State.reset := by
  intro i j hi
  rw [State.reset_voice] at hi
  cases hi

theorem reset_allFilters (Q : Filter → Prop) : AllFilters Q State.reset := fun k hk => absurd hk (Nat.not_lt_zero k)

theorem reset_paramsLegal : ParamsLegal Config.hw State.reset := by
  refine paramsLegal_iff.2 ⟨reset_freqsLegal, ⟨?_, by decide, by decide, by decide⟩, reset_allFilters _⟩
  show RatioLegal Config.hw one
  rw [RatioLegal]
  cases le Config.hw.ratioMin one with
  | true => exact .inl rfl
  | false => exact .inr ⟨rfl, rfl⟩

theorem zero_phaseLegal : PhaseLegal zero := phaseLegal_of_sign rfl (by decide)

theorem reset_phasesLegal : PhasesLegal Config.hw State.reset where
  freqs := reset_freqsLegal.1
  mfreq := reset_freqsLegal.2
  phases _ i := by
    rw [State.reset_voice]
    exact zero_phaseLegal
  mphase _ := zero_phaseLegal

end Sys2Proof.Machine

namespace Sys2Proof

open Machine

/-- Settles O52: NOTEON gives a slot a key that no active slot holds, and no other command activates a slot or writes a
key. -/
theorem stepKeepsKeysUnique : Obligations.StepKeepsKeysUnique := fun _ _ =>
  step_keeps (fun _ _ h => h) reset_keysUnique effect_keysUnique

/-- Settles O53: every write of a parameter goes through its clamp. -/
theorem stepKeepsParametersClamped : Obligations.StepKeepsParametersClamped := fun _ _ =>
  step_keeps (fun _ _ h => ⟨h.voices, h.fm, h.filters⟩) reset_paramsLegal effect_paramsLegal

/-- Settles O54: RENDER moves phases by the oscillator step, which keeps their range, and no other command moves them. -/
theorem stepKeepsPhasesInRange : Obligations.StepKeepsPhasesInRange := fun _ _ =>
  step_keeps (fun _ _ h => ⟨h.freqs, h.mfreq, h.phases, h.mphase⟩) reset_phasesLegal effect_phasesLegal

/-- Settles O55: a filter's parameters are written together with their design, and records move whole. -/
theorem stepKeepsFiltersDesigned : Obligations.StepKeepsFiltersDesigned := fun _ _ =>
  step_keeps (fun _ _ h => h) (reset_allFilters _) effect_filtersDesigned

/-- Settles O19: the definition of the power-on state, read through the register files. -/
theorem powerOnStateIsTheResetTable : Obligations.PowerOnStateIsTheResetTable :=
  ⟨State.reset_voice, rfl, rfl, fun _ => Ring.get_initial _, rfl, rfl, rfl⟩

/-- Settles O57: the invariants of the steps hold where they start. -/
theorem powerOnStateMeetsEveryInvariant : Obligations.PowerOnStateMeetsEveryInvariant :=
  ⟨reset_keysUnique, reset_paramsLegal, reset_phasesLegal, reset_allFilters _, rfl, rfl⟩

end Sys2Proof
end

section
/-! Words on a byte transport (spec/20_memory.md R62, R63): four bytes make a word, fewer are only held. -/

namespace Sys2Proof

open Machine

theorem wordToBytes_getD (w : Word) (k : Fin 4) :
    ((wordToBytes w).getD k.val 0).toNat = w.toNat / 256 ^ k.val % 256 := by
  match k with
  | 0 => exact toNat_extract w 0 8
  | 1 => exact toNat_extract w 8 8
  | 2 => exact toNat_extract w 16 8
  | 3 => exact toNat_extract w 24 8

/-- The four bytes of a word, put together again. -/
theorem append_bytes (w : Word) :
    (w.extractLsb' 24 8 ++ (w.extractLsb' 16 8 ++ (w.extractLsb' 8 8 ++ w.extractLsb' 0 8)) : Word) = w := by
  apply BitVec.eq_of_toNat_eq
  simp only [toNat_append, toNat_extract]
  have := w.isLt
  omega

theorem bytesToWords_wordToBytes_append (w : Word) (bytes : List Byte) :
    bytesToWords (wordToBytes w ++ bytes) = w :: bytesToWords bytes :=
  congrArg (· :: bytesToWords bytes) (append_bytes w)

theorem bytesToWords_flatMap_wordToBytes (ws : List Word) : bytesToWords (ws.flatMap wordToBytes) = ws := by
  induction ws with
  | nil => rfl
  | cons w ws ih => rw [List.flatMap_cons, bytesToWords_wordToBytes_append, ih]

end Sys2Proof

namespace Sys2Proof.Machine

/-- Only a byte that comes to three held ones completes a word. -/
theorem completeWord_eq_none {held : List Byte} (b : Byte) (h : held.length < 3) : completeWord held b = none := by
  match held with
  | [] | [_] | [_, _] => rfl
  | _ :: _ :: _ :: _ => simp only [List.length_cons] at h; omega

/-- Bytes that complete no word are held. -/
theorem assembleBytes_partial (held bytes : List Byte) (rest : List ByteEvent) (h : held.length + bytes.length < 4) :
    assembleBytes held (bytes.map ByteEvent.byte ++ rest) = assembleBytes (held ++ bytes) rest := by
  induction bytes generalizing held with
  | nil => rw [List.append_nil]; rfl
  | cons b bytes ih =>
    rw [List.length_cons] at h
    have hnone : completeWord held b = none := completeWord_eq_none b (by omega)
    have hlen : (held ++ [b]).length + bytes.length < 4 := by
      rw [List.length_append, List.length_singleton]
      omega
    calc assembleBytes held ((b :: bytes).map ByteEvent.byte ++ rest)
        = assembleBytes (held ++ [b]) (bytes.map ByteEvent.byte ++ rest) := by
          simp only [List.map_cons, List.cons_append, assembleBytes, hnone]
      _ = assembleBytes (held ++ b :: bytes) rest := by rw [ih _ hlen, List.append_assoc]; rfl

/-- The four bytes of a word make that word and leave nothing held. -/
theorem assembleBytes_wordToBytes (w : Word) (rest : List ByteEvent) :
    assembleBytes [] ((wordToBytes w).map ByteEvent.byte ++ rest) = .word w :: assembleBytes [] rest :=
  congrArg (PortEvent.word · :: assembleBytes [] rest) (append_bytes w)

theorem assembleBytes_words (ws : List Word) (rest : List ByteEvent) :
    assembleBytes [] ((ws.flatMap wordToBytes).map ByteEvent.byte ++ rest) =
      ws.map PortEvent.word ++ assembleBytes [] rest := by
  induction ws with
  | nil => rfl
  | cons w ws ih =>
    rw [List.flatMap_cons, List.map_append, List.append_assoc, assembleBytes_wordToBytes, ih]
    rfl

theorem assembleBytes_reset (held : List Byte) (rest : List ByteEvent) :
    assembleBytes held (.reset :: rest) = .reset :: assembleBytes [] rest := rfl

end Sys2Proof.Machine

namespace Sys2Proof

open Machine

/-- Settles O7: word by word four bytes are a word again, and a reset finds the bytes of a partial word only held. -/
theorem byteTransportIsLittleEndian : Obligations.ByteTransportIsLittleEndian := by
  refine ⟨wordToBytes_getD, bytesToWords_flatMap_wordToBytes, assembleBytes_words, fun bytes rest hlen => ?_⟩
  have hpartial := assembleBytes_partial [] bytes (.reset :: rest) (by simpa using hlen)
  rw [hpartial, assembleBytes_reset]

end Sys2Proof
end

section
/-! Idempotency of the parameter commands (spec/20_memory.md R65; spec/43_filter.md R219): the second issue writes to a
register what the register holds, or finds nothing left to do. -/

namespace Sys2Proof.Machine

variable {κ : Shape}

/-! ### Writing back what is held -/

theorem State.setVoice_eq_self {s : State κ} {i : Fin κ.voices} {v : Voice κ} (h : v = s.voice i) : s.setVoice i v = s := by
  subst h
  exact congrArg (fun voices => { s with voices := voices }) (Vector.set_getElem_self i.isLt)

theorem State.setFilter_eq_self {s : State κ} {k : Fin κ.filters} {f : Filter} (h : f = s.filter k) :
    s.setFilter k f = s := by
  subst h
  exact congrArg (fun filt => { s with filt := filt }) (Vector.set_getElem_self k.isLt)

theorem retune_eq_self {s : State κ} {i : Fin κ.voices} {f : F32} (h : (s.voice i).frequency = f) : retune i f s = s :=
  State.setVoice_eq_self (by rw [← h])

/-! ### Looking a key up after a write -/

section FindKey
variable {s : State κ} {i : Fin κ.voices} {v : Voice κ} {key : BitVec κ.keyWidth}

theorem State.findKey_congr {t : State κ} (h : ∀ j, (t.voice j).holds key = (s.voice j).holds key) :
    t.findKey key = s.findKey key := by
  simp only [State.findKey, h]

theorem State.findKey_setVoice_fresh (hv : v.holds key = true) (hfresh : s.findKey key = none) :
    (s.setVoice i v).findKey key = some i := by
  refine State.findKey_eq_some.2 ⟨by rwa [State.setVoice_same], fun j hj => ?_⟩
  rw [State.setVoice_other s i j v hj.ne']
  exact State.findKey_eq_none.1 hfresh j

end FindKey

theorem retune_holds (i j : Fin κ.voices) (f : F32) (s : State κ) (key : BitVec κ.keyWidth) :
    ((retune i f s).voice j).holds key = (s.voice j).holds key := by
  rw [retune, State.setVoice_voice]
  split
  next hij => subst hij; rfl
  next => rfl

/-- A released slot holds no key, and no other slot held it (R157, R29(c)). -/
theorem noteOff_findKey {s : State κ} (hs : KeysUnique s) (key : BitVec κ.keyWidth) :
    (noteOff key s).findKey key = none := by
  unfold noteOff
  split
  next i hfind =>
    obtain ⟨hactive, hkey⟩ := (Voice.holds_iff _ _).1 (State.findKey_eq_some.1 hfind).1
    refine State.findKey_eq_none.2 fun j => Bool.eq_false_iff.2 fun hj => ?_
    obtain ⟨hjactive, hjkey⟩ := (Voice.holds_iff _ _).1 hj
    rw [State.setVoice_voice] at hjactive hjkey
    split at hjactive
    next => cases hjactive
    next hij =>
      rw [if_neg hij] at hjkey
      exact hij (hs i j hactive hjactive (hkey.trans hjkey.symm))
  next hfind => exact hfind

theorem trigger_voices (c : Config) (i : Fin κ.voices) (key : BitVec κ.keyWidth) (f : F32) (s : State κ) :
    (trigger c i key f s).voices =
      (s.setVoice i { s.voice i with active := true, key := key, frequency := f }).voices :=
  harmonicRecompute_voices c f _

/-- After NOTEON the key is found, in a slot that has the frequency of the command (R151 to R155). -/
theorem noteOn_findKey (c : Config) (key : BitVec κ.keyWidth) (v0 : F32) (s : State κ) :
    ∃ i, (noteOn c key v0 s).findKey key = some i ∧ ((noteOn c key v0 s).voice i).frequency = clampFreq c v0 := by
  unfold noteOn
  split
  next i hfind =>
    refine ⟨i, ?_, by simp [retune]⟩
    rwa [State.findKey_congr fun j => retune_holds i j _ s key]
  next hfind =>
    have hvoice := State.voice_congr (trigger_voices c s.claimSlot key (clampFreq c v0) s)
    refine ⟨s.claimSlot, ?_, by rw [hvoice, State.setVoice_same]⟩
    exact (State.findKey_congr fun j => by rw [hvoice]).trans
      (State.findKey_setVoice_fresh ((Voice.holds_iff _ key).2 ⟨rfl, rfl⟩) hfind)

/-! ### The commands, issued twice -/

section Twice
variable (c : Config) (s : State κ)

/-- The second NOTEON finds the key active and retunes to the same frequency (R65). -/
theorem noteOn_noteOn (key : BitVec κ.keyWidth) (v0 : F32) : noteOn c key v0 (noteOn c key v0 s) = noteOn c key v0 s := by
  obtain ⟨i, hfind, hfreq⟩ := noteOn_findKey c key v0 s
  generalize noteOn c key v0 s = t at hfind hfreq
  rw [noteOn, hfind]
  exact retune_eq_self hfreq

theorem noteOff_noteOff (hs : KeysUnique s) (key : BitVec κ.keyWidth) : noteOff key (noteOff key s) = noteOff key s := by
  have hfind := noteOff_findKey hs key
  generalize noteOff key s = t at hfind
  rw [noteOff, hfind]

theorem setWaveform_setWaveform (slot : Nat) (w : Waveform) :
    setWaveform slot w (setWaveform slot w s) = setWaveform slot w s := by
  by_cases hslot : slot < κ.voices
  · simp only [setWaveform, hslot, dif_pos]
    exact State.setVoice_eq_self (by rw [State.setVoice_same])
  · simp only [setWaveform, hslot, dif_neg, not_false_eq_true]

theorem setAllWaveforms_setAllWaveforms (w : Waveform) :
    setAllWaveforms w (setAllWaveforms w s) = setAllWaveforms w s :=
  State.eq_of_voices (fun i => by simp only [setAllWaveforms_voice]) rfl

theorem configured_configured (fm : Fm) (enabled : Bool) (w : Waveform) (mode : FmMode) (v0 v1 : F32) :
    (fm.configured c enabled w mode v0 v1).configured c enabled w mode v0 v1 = fm.configured c enabled w mode v0 v1 := by
  cases mode <;> rfl

theorem setFm_setFm (enabled : Bool) (w : Waveform) (mode : FmMode) (v0 v1 : F32) :
    setFm c enabled w mode v0 v1 (setFm c enabled w mode v0 v1 s) = setFm c enabled w mode v0 v1 s :=
  congrArg s.withFm (configured_configured c s.fm enabled w mode v0 v1)

/-- The second SETFLT designs the same coefficients and leaves the recurrence state as the first one did (R219). -/
theorem setFilter_setFilter (index : Nat) (t : FilterType) (v0 v1 : F32) :
    setFilter c index t v0 v1 (setFilter c index t v0 v1 s) = setFilter c index t v0 v1 s := by
  by_cases hindex : index < s.fcount.val
  · simp only [setFilter, State.setFilter_fcount, hindex, dif_pos]
    exact State.setFilter_eq_self (by rw [State.setFilter_same]; rfl)
  · simp only [setFilter, hindex, dif_neg, not_false_eq_true]

end Twice

end Sys2Proof.Machine

namespace Sys2Proof

open Machine

/-- Settles O40, command by command; only NOTEOFF needs the keys unique, or a second holder would be released next. -/
theorem parameterCommandsAreIdempotent : Obligations.ParameterCommandsAreIdempotent := by
  intro s t key slot index w ty en m v0 v1 i hi hs ht
  obtain rfl := exec_eq_next.1 ht
  refine exec_eq_next.2 ?_
  obtain rfl | rfl | rfl | rfl | rfl | rfl | rfl := hi
  · rfl
  · exact noteOn_noteOn _ s key v0
  · exact noteOff_noteOff s hs key
  · exact setWaveform_setWaveform s slot w
  · exact setAllWaveforms_setAllWaveforms s w
  · exact setFm_setFm _ s en w m v0 v1
  · exact setFilter_setFilter _ s index ty v0 v1

end Sys2Proof
end

section
/-! What the decoder answers, row by row of the opcode map: the fields that select a row, the command they spell, and the
encoding that command has (spec/30_encoding.md R80 to R90). -/

namespace Sys2Proof

/-! ### A header put together from its fields -/

section Headers
variable {h : Word} {op : BitVec 8} {a b : BitVec 4} {imm : BitVec 16}

theorem header_of_fields (hop : opField h = op) (ha : aField h = a) (hb : bField h = b) (himm : immField h = imm) :
    header op a b imm = h := by
  rw [← hop, ← ha, ← hb, ← himm, header_fields]

/-- With its reserved half clear the field `A` is a code (R83). -/
theorem aField_of_reserved (ha : aReserved h = 0) : aField h = 0#2 ++ codeField h := by
  rw [aReserved_eq] at ha
  rw [codeField_eq]
  have split : ∀ x : BitVec 4, x.extractLsb' 2 2 = 0 → x = 0#2 ++ x.extractLsb' 0 2 := by decide
  exact split _ ha

/-- With its reserved half clear the field `B` of SETFM is its two flags (R85). -/
theorem bField_of_reserved (hb : emReserved h = 0) : bField h = 0#2 ++ (mBit h ++ BitVec.ofBool (geBit h == 1)) := by
  rw [emReserved_eq] at hb
  rw [mBit_eq, geBit_eq]
  have split : ∀ x : BitVec 4, x.extractLsb' 2 2 = 0 →
      x = 0#2 ++ (x.extractLsb' 1 1 ++ BitVec.ofBool (x.extractLsb' 0 1 == 1)) := by decide
  exact split _ hb

/-- `B` is `G` alone exactly when its reserved part is zero and its flag is set (R85). -/
theorem bField_one_iff (h : Word) : bField h = 1 ↔ gReserved h = 0 ∧ geBit h = 1 := by
  rw [gReserved_eq, geBit_eq]
  have split : ∀ x : BitVec 4, x = 1 ↔ x.extractLsb' 1 3 = 0 ∧ x.extractLsb' 0 1 = 1 := by decide
  exact split _

theorem extractLsb'_one_eq_ofBool {n : Nat} (x : BitVec n) (k : Nat) : x.extractLsb' k 1 = BitVec.ofBool (x.getLsbD k) := by
  ext j hj
  obtain rfl : j = 0 := by omega
  simp

theorem geBit_beq_one (h : Word) : (geBit h == 1) = h.getLsbD 16 := by
  rw [geBit, extractLsb'_one_eq_ofBool]
  cases h.getLsbD 16 <;> rfl

theorem ofCode_mBit (h : Word) : FmMode.ofCode (mBit h) = if h.getLsbD 17 then .inharmonic else .harmonic := by
  rw [mBit, extractLsb'_one_eq_ofBool]
  cases h.getLsbD 17 <;> rfl

end Headers

/-! ### The length rule -/

theorem commandLength_of_op {h : Word} {op : BitVec 8} (hop : opField h = op) :
    commandLength h = if op = 0x01 then 2 else if op = 0x04 ∨ op = 0x07 then 3 else 1 := by rw [commandLength, hop]

theorem commandLength_congr {h h' : Word} (hop : opField h = opField h') : commandLength h = commandLength h' :=
  commandLength_of_op hop

/-- The length rule on the opcode's number (R81). -/
theorem commandLength_eq (h : Word) : commandLength h =
    if (opField h).toNat = 1 then 2 else if (opField h).toNat = 4 ∨ (opField h).toNat = 7 then 3 else 1 := by
  simp only [commandLength, ← BitVec.toNat_inj]
  rfl

/-! ### The rows of the opcode map -/

/-- The header's fields select a row of the opcode map, and with these operand words they spell this command: what R82 to
R88 say of the eleven rows. -/
inductive Spells (h : Word) (operands : List Word) : Instr → Prop
  | nop (hop : opField h = 0x00) (ha : aField h = 0) (hb : bField h = 0) (himm : immField h = 0) : Spells h operands .nop
  | noteon (hop : opField h = 0x01) (ha : aField h = 0) (hb : bField h = 0) :
    Spells h operands (.noteon (immField h) (operandValue operands 0))
  | noteoff (hop : opField h = 0x02) (ha : aField h = 0) (hb : bField h = 0) : Spells h operands (.noteoff (immField h))
  | setwv (hop : opField h = 0x03) (ha : aReserved h = 0) (hb : bField h = 0) :
    Spells h operands (.setwv (immField h).toNat (.ofCode (codeField h)))
  | setwva (hop : opField h = 0x03) (ha : aReserved h = 0) (hb : bField h = 1) (himm : immField h = 0) :
    Spells h operands (.setwva (.ofCode (codeField h)))
  | setfm (hop : opField h = 0x04) (ha : aReserved h = 0) (hb : emReserved h = 0) (himm : immField h = 0) :
    Spells h operands (.setfm (geBit h == 1) (.ofCode (codeField h)) (.ofCode (mBit h)) (operandValue operands 0)
      (operandValue operands 1))
  | addflt (hop : opField h = 0x05) (ha : aField h = 0) (hb : bField h = 0) (himm : immField h = 0) :
    Spells h operands .addflt
  | rmflt (hop : opField h = 0x06) (ha : aField h = 0) (hb : bField h = 0) : Spells h operands (.rmflt (immField h).toNat)
  | setflt (hop : opField h = 0x07) (ha : aReserved h = 0) (hb : bField h = 0) :
    Spells h operands
      (.setflt (immField h).toNat (.ofCode (codeField h)) (operandValue operands 0) (operandValue operands 1))
  | render (hop : opField h = 0x08) (ha : aField h = 0) (hb : bField h = 0) : Spells h operands (.render (immField h).toNat)
  | rdvis (hop : opField h = 0x09) (ha : aField h = 0) (hb : bField h = 0) (himm : immField h = 0) :
    Spells h operands .rdvis

section Rows
variable {h : Word} {operands : List Word} {i : Instr}

/-- A row's fields decode to its command. -/
theorem Spells.decodeCommand_eq (hs : Spells h operands i) : decodeCommand h operands = some i := by
  cases hs with
  | setwv hop ha hb => simp [decodeCommand, hop, ha, (bField_zero_iff h).1 hb]
  | setwva hop ha hb himm => simp [decodeCommand, hop, ha, (bField_one_iff h).1 hb, himm]
  | setfm hop ha hb himm | nop hop ha hb himm | addflt hop ha hb himm | rdvis hop ha hb himm =>
    simp [decodeCommand, hop, ha, hb, himm]
  | noteon hop ha hb | noteoff hop ha hb | rmflt hop ha hb | setflt hop ha hb | render hop ha hb =>
    simp [decodeCommand, hop, ha, hb]

theorem guarded_eq_some {p : Prop} [Decidable p] {j : Instr} (hd : (if p then some j else none) = some i) : p ∧ j = i := by
  simpa using hd

/-- Whatever decodes to a command has the fields of that command's row: the branches of the decoder, opcode by opcode. -/
theorem Spells.of_decodeCommand (hd : decodeCommand h operands = some i) : Spells h operands i := by
  unfold decodeCommand at hd
  obtain ⟨hop, hd⟩ | ⟨-, hd⟩ := ite_eq_iff.1 hd
  · obtain ⟨⟨ha, hb, himm⟩, rfl⟩ := guarded_eq_some hd
    exact .nop hop ha hb himm
  obtain ⟨hop, hd⟩ | ⟨-, hd⟩ := ite_eq_iff.1 hd
  · obtain ⟨⟨ha, hb⟩, rfl⟩ := guarded_eq_some hd
    exact .noteon hop ha hb
  obtain ⟨hop, hd⟩ | ⟨-, hd⟩ := ite_eq_iff.1 hd
  · obtain ⟨⟨ha, hb⟩, rfl⟩ := guarded_eq_some hd
    exact .noteoff hop ha hb
  obtain ⟨hop, hd⟩ | ⟨-, hd⟩ := ite_eq_iff.1 hd
  · obtain ⟨⟨ha, hb⟩, hd⟩ | ⟨hother, hd⟩ := ite_eq_iff.1 hd
    · obtain rfl := Option.some.inj hd
      exact .setwv hop ha ((bField_zero_iff h).2 hb)
    · obtain ⟨⟨ha, hr, himm⟩, rfl⟩ := guarded_eq_some hd
      have hg : geBit h = 1 := (geBit_cases h).resolve_left fun hzero => hother ⟨ha, hr, hzero⟩
      exact .setwva hop ha ((bField_one_iff h).2 ⟨hr, hg⟩) himm
  obtain ⟨hop, hd⟩ | ⟨-, hd⟩ := ite_eq_iff.1 hd
  · obtain ⟨⟨ha, hb, himm⟩, rfl⟩ := guarded_eq_some hd
    exact .setfm hop ha hb himm
  obtain ⟨hop, hd⟩ | ⟨-, hd⟩ := ite_eq_iff.1 hd
  · obtain ⟨⟨ha, hb, himm⟩, rfl⟩ := guarded_eq_some hd
    exact .addflt hop ha hb himm
  obtain ⟨hop, hd⟩ | ⟨-, hd⟩ := ite_eq_iff.1 hd
  · obtain ⟨⟨ha, hb⟩, rfl⟩ := guarded_eq_some hd
    exact .rmflt hop ha hb
  obtain ⟨hop, hd⟩ | ⟨-, hd⟩ := ite_eq_iff.1 hd
  · obtain ⟨⟨ha, hb⟩, rfl⟩ := guarded_eq_some hd
    exact .setflt hop ha hb
  obtain ⟨hop, hd⟩ | ⟨-, hd⟩ := ite_eq_iff.1 hd
  · obtain ⟨⟨ha, hb⟩, rfl⟩ := guarded_eq_some hd
    exact .render hop ha hb
  obtain ⟨hop, hd⟩ | ⟨-, hd⟩ := ite_eq_iff.1 hd
  · obtain ⟨⟨ha, hb, himm⟩, rfl⟩ := guarded_eq_some hd
    exact .rdvis hop ha hb himm
  cases hd

/-! ### The encoding of a row's command -/

theorem operands_of_length_one (hl : operands.length + 1 = 1) : [] = operands :=
  (List.length_eq_zero_iff.1 (Nat.succ.inj hl)).symm

theorem operands_of_length_two (hl : operands.length + 1 = 2) : [(operandValue operands 0).bits] = operands := by
  obtain ⟨v0, rfl⟩ := List.length_eq_one_iff.1 (Nat.succ.inj hl)
  rfl

theorem operands_of_length_three (hl : operands.length + 1 = 3) :
    [(operandValue operands 0).bits, (operandValue operands 1).bits] = operands := by
  obtain ⟨v0, v1, rfl⟩ := List.length_eq_two.1 (Nat.succ.inj hl)
  rfl

theorem fitsImm_toNat (imm : BitVec 16) : fitsImm imm.toNat = true := decide_eq_true imm.isLt

theorem Spells.wellFormed (hs : Spells h operands i) : i.wellFormed = true := by
  cases hs with
  | setwv | rmflt | setflt | render => exact fitsImm_toNat _
  | _ => rfl

/-- With as many operand words as its length counts, a row's command is encoded by just these words. -/
theorem Spells.encode_eq (hs : Spells h operands i) (hl : operands.length + 1 = commandLength h) :
    encode i = h :: operands := by
  have hlen {op : BitVec 8} (hop : opField h = op) := hl.trans (commandLength_of_op hop)
  have hnum : immField h = BitVec.ofNat 16 (immField h).toNat := by simp
  have hcode (ha : aReserved h = 0) : aField h = 0#2 ++ (Waveform.ofCode (codeField h)).code := by
    rw [Waveform.code_ofCode, aField_of_reserved ha]
  cases hs with
  | nop hop ha hb himm | addflt hop ha hb himm | rdvis hop ha hb himm =>
    exact congrArg₂ List.cons (header_of_fields hop ha hb himm) (operands_of_length_one (hlen hop))
  | noteon hop ha hb =>
    exact congrArg₂ List.cons (header_of_fields hop ha hb rfl) (operands_of_length_two (hlen hop))
  | noteoff hop ha hb =>
    exact congrArg₂ List.cons (header_of_fields hop ha hb rfl) (operands_of_length_one (hlen hop))
  | rmflt hop ha hb | render hop ha hb =>
    exact congrArg₂ List.cons (header_of_fields hop ha hb hnum) (operands_of_length_one (hlen hop))
  | setwv hop ha hb =>
    exact congrArg₂ List.cons (header_of_fields hop (hcode ha) hb hnum) (operands_of_length_one (hlen hop))
  | setwva hop ha hb himm =>
    exact congrArg₂ List.cons (header_of_fields hop (hcode ha) hb himm) (operands_of_length_one (hlen hop))
  | setfm hop ha hb himm =>
    have hflags := bField_of_reserved hb
    rw [← FmMode.code_ofCode (mBit h)] at hflags
    exact congrArg₂ List.cons (header_of_fields hop (hcode ha) hflags himm) (operands_of_length_three (hlen hop))
  | setflt hop ha hb =>
    have hftype : aField h = 0#2 ++ (FilterType.ofCode (codeField h)).code := by
      rw [FilterType.code_ofCode, aField_of_reserved ha]
    exact congrArg₂ List.cons (header_of_fields hop hftype hb hnum) (operands_of_length_three (hlen hop))

end Rows

/-- The decoder answers a command only on a header with its operand words, and leaves what follows them (R93). -/
theorem exists_operands_of_decode {words rest : List Word} {i : Instr} (hd : decode words = .instr i rest) :
    ∃ h operands, words = h :: (operands ++ rest) ∧ operands.length + 1 = commandLength h ∧
      decodeCommand h operands = some i := by
  cases words with
  | nil => cases hd
  | cons h ws =>
    rw [decode] at hd
    split at hd
    next => cases hd
    next hlong =>
      split at hd
      next hsome =>
        cases hd
        have hpos := commandLength_pos h
        refine ⟨h, _, by rw [List.take_append_drop], ?_, hsome⟩
        rw [List.length_take]
        omega
      next => cases hd

/-- Settles O1: the decoder takes as many words as the header counts, and the fields give the operands back. -/
theorem decodeOfEncodeGivesTheCommand : Obligations.DecodeOfEncodeGivesTheCommand := fun _ rest hw =>
  decode_encode_append hw rest

/-- Settles O2: the fields that the decoder asked for leave no bit of the header free, and the length no operand word. -/
theorem everyLegalCommandIsItsEncoding : Obligations.EveryLegalCommandIsItsEncoding := by
  intro words i rest hd
  obtain ⟨h, operands, rfl, hl, hcommand⟩ := exists_operands_of_decode hd
  have hspells := Spells.of_decodeCommand hcommand
  exact ⟨hspells.wellFormed, by rw [hspells.encode_eq hl, List.cons_append]⟩

end Sys2Proof
end

section
/-! The opcode map, the length rule and the illegal headers, as the decoder and the step see them (spec/30_encoding.md R81, R88,
R90, R95, R96, R99). -/

namespace Sys2Proof

open Machine

/-! ### Rows that select a header -/

/-- Every row's mask covers the opcode, so that a row selects only headers of its own opcode (R88). -/
theorem opField_of_selects {r : OpcodeRow} {h : Word} (hr : r ∈ opcodeMap) (hs : r.selects h = true) :
    opField h = opField r.pattern := by
  have hmask : ∀ r ∈ opcodeMap, opField r.mask = BitVec.allOnes 8 := by decide
  have hand : opField (h &&& r.mask) = opField h &&& opField r.mask := BitVec.extractLsb'_and
  rw [beq_iff_eq.1 hs, hmask r hr, BitVec.and_allOnes] at hand
  exact hand.symm

/-- Where two rows select one header, each one's match agrees with the other's under both masks; no two rows of the map do. -/
theorem row_eq_of_selects {r₁ r₂ : OpcodeRow} {h : Word} (hr₁ : r₁ ∈ opcodeMap) (hr₂ : r₂ ∈ opcodeMap)
    (hs₁ : r₁.selects h = true) (hs₂ : r₂.selects h = true) : r₁ = r₂ := by
  have hdistinct : ∀ r₁ ∈ opcodeMap, ∀ r₂ ∈ opcodeMap, r₁.pattern &&& r₂.mask = r₂.pattern &&& r₁.mask → r₁ = r₂ := by decide
  apply hdistinct r₁ hr₁ r₂ hr₂
  rw [← beq_iff_eq.1 hs₁, ← beq_iff_eq.1 hs₂, BitVec.and_assoc, BitVec.and_assoc, BitVec.and_comm r₁.mask]

theorem opField_lt_of_legalHeader {h : Word} (hl : legalHeader h = true) : (opField h).toNat < 10 := by
  have hops : ∀ r ∈ opcodeMap, (opField r.pattern).toNat < 10 := by decide
  obtain ⟨r, hr, hs⟩ := List.any_eq_true.1 hl
  rw [opField_of_selects hr hs]
  exact hops r hr

/-- Settles O3: each mask and match is a condition on the fields, under which the row's command is spelled. -/
theorem everyOpcodeMapRowDecodes : Obligations.EveryOpcodeMapRowDecodes := by
  refine ⟨fun h v0 v1 => ⟨fun hm => ?_, fun hm => ?_, fun hm => ?_, fun hm => ?_, fun hm => ?_, fun hm => ?_, fun hm => ?_,
    fun hm => ?_, fun hm => ?_, fun hm => ?_, fun hm => ?_⟩, fun _ _ _ => row_eq_of_selects⟩
  · obtain ⟨hop, ha, hb, himm⟩ := (select_all h 0).1 hm
    exact ⟨commandLength_of_op hop, (Spells.nop hop ha hb himm).decodeCommand_eq⟩
  · obtain ⟨hop, ha, hb⟩ := (select_imm h 1).1 hm
    exact ⟨commandLength_of_op hop, (Spells.noteon hop ha hb).decodeCommand_eq⟩
  · obtain ⟨hop, ha, hb⟩ := (select_imm h 2).1 hm
    exact ⟨commandLength_of_op hop, (Spells.noteoff hop ha hb).decodeCommand_eq⟩
  · obtain ⟨hop, ha, hb⟩ := (select_code_imm h 3).1 hm
    exact ⟨commandLength_of_op hop, (Spells.setwv hop ha hb).decodeCommand_eq⟩
  · obtain ⟨hop, ha, hr, hg, himm⟩ := (select_code_global h 3).1 hm
    exact ⟨commandLength_of_op hop, (Spells.setwva hop ha ((bField_one_iff h).2 ⟨hr, hg⟩) himm).decodeCommand_eq⟩
  · obtain ⟨hop, ha, hb, himm⟩ := (select_code_flags h 4).1 hm
    rw [← geBit_beq_one, ← ofCode_mBit]
    exact ⟨commandLength_of_op hop, (Spells.setfm hop ha hb himm).decodeCommand_eq⟩
  · obtain ⟨hop, ha, hb, himm⟩ := (select_all h 5).1 hm
    exact ⟨commandLength_of_op hop, (Spells.addflt hop ha hb himm).decodeCommand_eq⟩
  · obtain ⟨hop, ha, hb⟩ := (select_imm h 6).1 hm
    exact ⟨commandLength_of_op hop, (Spells.rmflt hop ha hb).decodeCommand_eq⟩
  · obtain ⟨hop, ha, hb⟩ := (select_code_imm h 7).1 hm
    exact ⟨commandLength_of_op hop, (Spells.setflt hop ha hb).decodeCommand_eq⟩
  · obtain ⟨hop, ha, hb⟩ := (select_imm h 8).1 hm
    exact ⟨commandLength_of_op hop, (Spells.render hop ha hb).decodeCommand_eq⟩
  · obtain ⟨hop, ha, hb, himm⟩ := (select_all h 9).1 hm
    exact ⟨commandLength_of_op hop, (Spells.rdvis hop ha hb himm).decodeCommand_eq⟩

/-! ### Illegal headers -/

/-- A whole command is rejected by name exactly when its header selects no row (R90, R93). -/
theorem decode_eq_illegal_iff {h : Word} {operands : List Word} (rest : List Word)
    (hl : operands.length + 1 = commandLength h) :
    decode (h :: (operands ++ rest)) = .illegal h rest ↔ legalHeader h = false := by
  rw [decode_whole h operands rest hl, ← decodeCommand_isSome h operands]
  cases decodeCommand h operands <;> simp

/-- Settles O4: rejection is `decodeCommand_isSome`, a row's mask covers its opcode, and the length rule reads no more. -/
theorem headersOutsideTheMapAreIllegal : Obligations.HeadersOutsideTheMapAreIllegal := by
  refine ⟨fun h operands rest hl => decode_eq_illegal_iff rest hl, fun h hop => ⟨?_, ?_⟩, fun h r hr hop => ?_⟩
  · exact Bool.eq_false_iff.2 fun hlegal => absurd (opField_lt_of_legalHeader hlegal) (by omega)
  · rw [commandLength_eq, if_neg (by omega), if_neg (by omega)]
  · have hlength : ∀ r ∈ opcodeMap, commandLength r.pattern = r.length := by decide
    rw [commandLength_congr hop, hlength r hr]

/-- Settles O5: the rule is read off `OP`, and the decoder counts words by it before it looks at a field. -/
theorem lengthDependsOnTheOpcodeAlone : Obligations.LengthDependsOnTheOpcodeAlone := by
  refine ⟨commandLength_eq, fun _ _ => commandLength_congr, fun h ws hshort => if_pos hshort, fun h operands rest hl => ?_⟩
  rw [decode_whole h operands rest hl]
  cases decodeCommand h operands with
  | none => exact .inl rfl
  | some i => exact .inr ⟨i, rfl⟩

/-- Settles O10: the port hands over the header and the operand words it counts, and the decoder rejects them by name. -/
theorem illegalCommandIsDiscarded : Obligations.IllegalCommandIsDiscarded := by
  intro s h operands ws rest hillegal hl hne hwords hport
  have hdecode : decode (h :: operands) = .illegal h [] := by
    rw [← List.append_nil operands]
    exact (decode_eq_illegal_iff [] hl).2 hillegal
  rw [step_of_exact_words hl hne hwords hport, runCommand, hdecode]
  rfl

/-- Settles O6: the listed words are closed terms, and encoder and decoder are run on them. -/
theorem workedEncodingsHold : Obligations.WorkedEncodingsHold := by
  unfold Obligations.WorkedEncodingsHold
  decide

/-- Settles O20: the NOP row covers every bit, so that it selects the zero word only, and no other row has its opcode. -/
theorem nopChangesNothing : Obligations.NopChangesNothing := by
  refine ⟨fun _ => rfl, decode_encode_append (i := .nop) rfl, fun h rest hop hne => ?_⟩
  refine (decode_eq_illegal_iff (operands := []) rest (commandLength_of_op hop).symm).2 (Bool.eq_false_iff.2 fun hlegal => hne ?_)
  obtain ⟨r, hr, hs⟩ := List.any_eq_true.1 hlegal
  have hrow : ∀ r ∈ opcodeMap, opField r.pattern = 0x00 → r = ⟨"NOP", 1, 0x00000000, 0xFFFFFFFF⟩ := by decide
  obtain rfl := hrow r hr ((opField_of_selects hr hs).symm.trans hop)
  have hzero : h &&& BitVec.allOnes 32 = 0 := beq_iff_eq.1 hs
  rwa [BitVec.and_allOnes] at hzero

end Sys2Proof
end

section
/-! How many response words a command emits (spec/30_encoding.md R94). -/

namespace Sys2Proof

open Machine

/-- Only RENDER and RDVIS write the response sequence (R46, R94). -/
theorem effect_responses_of_silent (i : Instr) (s : State) (hrender : ∀ n, i ≠ .render n) (hrdvis : i ≠ .rdvis) :
    (i.effect s).responses = s.responses := by
  cases i with
  | nop => rfl
  | noteon key v0 => exact (congrArg State.responses (noteOn_frame Config.hw s key v0) :)
  | noteoff key => exact (congrArg State.responses (noteOff_frame s key) :)
  | setwv slot w => exact (congrArg State.responses (setWaveform_frame s slot w) :)
  | setwva w => rfl
  | setfm enabled w mode v0 v1 => rfl
  | addflt => exact (congrArg State.responses (addFilter_frame Config.hw s) :)
  | rmflt index => exact (congrArg State.responses (removeFilter_frame s index) :)
  | setflt index t v0 v1 => exact (congrArg State.responses (setFilter_frame Config.hw s index t v0 v1) :)
  | render n => exact absurd rfl (hrender n)
  | rdvis => exact absurd rfl hrdvis

/-- Settles O16: RENDER appends one word per sample step and RDVIS one per cell of the window. -/
theorem onlyRenderAndRdvisEmit : Obligations.OnlyRenderAndRdvisEmit := by
  intro i s
  cases i
  case render n =>
    have hframe := renderSamples_frame Config.hw n s
    exact ⟨_, _, exec_eq_effect _ s, congrArg (· ++ _) hframe.responses, by rw [List.length_map, renderSamples_length]⟩
  case rdvis => exact ⟨_, _, exec_eq_effect _ s, rfl, by rw [List.length_map, visWindow_length]⟩
  all_goals
    refine ⟨_, [], exec_eq_effect _ s, ?_, rfl⟩
    rw [List.append_nil, effect_responses_of_silent _ s (by simp) (by simp)]

end Sys2Proof
end

section
/-! Products, quotients and sums that range arguments rest on: monotone in the operand that varies, and the operands that
leave a value as it is (spec/00_scope.md R12; spec/40_oscillator.md R125; spec/44_render.md R268). -/

namespace Sys2Proof.F32

/-! ### Monotone products and quotients -/

/-- Rounding the magnitudes keeps the order of exact results over one denominator. -/
theorem ofParts_roundMag_mono {s t : Bool} {n m d : Nat} (hd : 0 < d) (h : signed s n ≤ signed t m) :
    le (ofParts s (roundMag n d)) (ofParts t (roundMag m d)) = true := by
  have hmono : ∀ {a b : Nat}, a ≤ b → roundMag a d ≤ roundMag b d := fun hab =>
    roundMag_mono hd hd (Nat.mul_le_mul_right d hab)
  rw [le_iff, ofParts_rank _ _ (roundMag_lt _ _), ofParts_rank _ _ (roundMag_lt _ _)]
  refine ⟨ofParts_isNaN _ _ (roundMag_le _ _), ofParts_isNaN _ _ (roundMag_le _ _), ?_⟩
  cases s <;> cases t <;> simp only [signed, Bool.false_eq_true, if_true, if_false] at h ⊢
  case false.false => exact Int.ofNat_le.2 (hmono (by omega))
  case true.true => exact Int.neg_le_neg (Int.ofNat_le.2 (hmono (by omega)))
  case true.false => omega
  case false.true =>
    obtain ⟨rfl, rfl⟩ : n = 0 ∧ m = 0 := by omega
    simp [roundMag_zero d hd]

theorem mul_mono_of_nonneg {k x y : F32} (hk : k.isFinite = true) (hs : k.sign = false) (hx : x.isFinite = true)
    (hy : y.isFinite = true) (h : le x y = true) : le (mul k x) (mul k y) = true := by
  have hval : ∀ z : F32, signed (k.sign != z.sign) (k.mag * z.mag) = k.mag * z.val := fun z => by
    rw [← signed_mul, hs]; rfl
  rw [mul_parts hk hx, mul_parts hk hy]
  refine ofParts_roundMag_mono (Nat.two_pow_pos _) ?_
  rw [hval, hval]
  exact Int.mul_le_mul_of_nonneg_left ((le_iff_val hx hy).1 h) (Int.natCast_nonneg _)

theorem div_mono_of_pos {x y d : F32} (hx : x.isFinite = true) (hy : y.isFinite = true) (hd : d.isFinite = true)
    (hs : d.sign = false) (h0 : d.isZero = false) (h : le x y = true) : le (div x d) (div y d) = true := by
  have hval : ∀ z : F32, signed (z.sign != d.sign) (z.mag * 2 ^ 149) = z.val * (2 ^ 149 : Nat) := fun z => by
    rw [hs, ← signed_mul]; rfl
  rw [div_parts hx hd h0, div_parts hy hd h0]
  refine ofParts_roundMag_mono (mag_pos hd h0) ?_
  rw [hval, hval]
  exact Int.mul_le_mul_of_nonneg_right ((le_iff_val hx hy).1 h) (Int.natCast_nonneg _)

/-! ### Negation -/

theorem neg_le_neg_of_le {x y : F32} (h : le x y = true) : le y.neg x.neg = true := by
  obtain ⟨hx, hy, hr⟩ := le_iff.1 h
  rw [le_iff, neg_isNaN, neg_isNaN, neg_rank, neg_rank]
  exact ⟨hy, hx, Int.neg_le_neg hr⟩

theorem mul_neg_of_isFinite {x y : F32} (hx : x.isFinite = true) (hy : y.isFinite = true) : mul x y.neg = (mul x y).neg := by
  have hy' : y.neg.isFinite = true := by rw [neg_isFinite, hy]
  apply ext_sign_magBits
  · rw [neg_sign, mul_sign hx hy', mul_sign hx hy, neg_sign, Bool.bne_not]
  · rw [neg_magBits]
    exact Nat.le_antisymm
      (mul_magBits_mono hx hy' hx hy (Nat.le_refl _) (neg_magBits y).le)
      (mul_magBits_mono hx hy hx hy' (Nat.le_refl _) (neg_magBits y).ge)

/-! ### Values left as they are -/

theorem div_one_of_isFinite {x : F32} (hx : x.isFinite = true) : div x one = x := by
  have hone : one.mag = 2 ^ 149 := by decide +kernel
  have hlt : x.magBits < infBits := by simpa [isFinite] using hx
  rw [div_parts hx (by decide) (by decide), hone, mag_eq_magOf, roundMag_magOf _ _ (Nat.two_pow_pos _) hlt.le,
    show one.sign = false from rfl, Bool.bne_false, ofParts_sign_magBits]

theorem natAbs_rank (x : F32) : x.rank.natAbs = x.magBits := by
  unfold rank
  split <;> omega

/-- Away from zero the rank determines the pattern: patterns of opposite sign have opposite ranks. -/
theorem eq_of_rank_eq {x y : F32} (h : x.rank = y.rank) (h0 : y.magBits ≠ 0) : x = y := by
  have hmag : x.magBits = y.magBits := by rw [← natAbs_rank, ← natAbs_rank, h]
  rcases Bool.eq_or_eq_not x.sign y.sign with hs | hs
  · exact ext_sign_magBits hs hmag
  · have hneg : x = y.neg := ext_sign_magBits (hs.trans (neg_sign y).symm) (hmag.trans (neg_magBits y).symm)
    rw [hneg, neg_rank] at h
    have := natAbs_rank y
    omega

/-- A sum that starts at `+0.0` takes a finite value as it is, but for the sign of a zero (R12, R262). -/
theorem zero_add_of_isFinite {x : F32} (hx : x.isFinite = true) : add zero x = if x = zero.neg then zero else x := by
  by_cases h0 : x.magBits = 0
  · obtain rfl | rfl : x = zero ∨ x = zero.neg := by
      cases hs : x.sign
      · exact .inl (ext_sign_magBits hs h0)
      · exact .inr (ext_sign_magBits hs h0)
    · decide
    · decide
  · have hne : x ≠ zero.neg := fun h => h0 (h ▸ rfl)
    obtain ⟨-, hrank⟩ := add_rank (x := zero) (by decide) hx
    rw [if_neg hne]
    refine eq_of_rank_eq ?_ h0
    rw [hrank, show zero.val = 0 from rfl, Int.zero_add, roundRank_val hx]

end Sys2Proof.F32
end

section
/-! The oscillator and the waveform evaluator: their commands, the ranges of phase and waveform, and the sample of a single
plain voice (spec/40_oscillator.md R122 to R128; spec/44_render.md R262, R264, R268). -/

namespace Sys2Proof.Machine

open F32

variable {κ : Shape}

/-! ### SETWV -/

theorem setWaveform_voice (slot : Nat) (w : Waveform) (s : State κ) (v : Fin κ.voices) :
    (setWaveform slot w s).voice v = if v.val = slot then { s.voice v with waveform := w } else s.voice v := by
  unfold setWaveform
  split
  next hslot =>
    rw [State.setVoice_voice]
    by_cases hv : v.val = slot
    · subst hv
      simp
    · have hne : (⟨slot, hslot⟩ : Fin κ.voices) ≠ v := fun h => hv (congrArg Fin.val h).symm
      rw [if_neg hne, if_neg hv]
  next hslot => rw [if_neg (by omega)]

/-! ### The range of the waveforms -/

theorem square_between (c : Config) (p : F32) :
    le negOne (wave c .square p) = true ∧ le (wave c .square p) one = true := by
  rw [wave]
  split <;> decide

/-- `ASIN(1.0)` is finite: an infinity times `TWO_OVER_PI` would not be at most 1.0 (R14). -/
theorem asin_one_isFinite {c : Config} (h : c.AsinRange) : (c.asin one).isFinite = true := by
  obtain ⟨hbetween, hmax⟩ := h
  obtain ⟨hneg, -⟩ := hbetween one (by decide) (by decide)
  obtain ⟨-, hn, hrank⟩ := le_iff.1 hneg
  rw [neg_rank] at hrank
  by_contra hinf
  have hmag : (c.asin one).magBits = infBits := by
    simp only [isNaN, isFinite, decide_eq_false_iff_not, decide_eq_true_eq] at hn hinf
    omega
  have hsign : (c.asin one).sign = false := by
    by_contra hs
    have hneg : (c.asin one).rank = -infBits := by simp [rank, hs, hmag]
    rw [hneg] at hrank
    exact absurd hrank (by decide)
  have heq : c.asin one = ⟨0x7F800000⟩ := ext_sign_magBits hsign hmag
  rw [heq] at hmax
  exact absurd hmax (by decide)

/-- Triangle (R125): the product with `TWO_OVER_PI` is odd and monotone, so that its bound at `ASIN(1.0)` holds both ways. -/
theorem triangle_between {c : Config} {p : F32} (hsin : c.SinRange) (hasin : c.AsinRange) (hp : p.isFinite = true) :
    le negOne (wave c .triangle p) = true ∧ le (wave c .triangle p) one = true := by
  have hmaxFin := asin_one_isFinite hasin
  obtain ⟨hbetween, hmax⟩ := hasin
  obtain ⟨hlo, hhi⟩ := hbetween (c.sin p) (hsin p hp).1 (hsin p hp).2
  have hnegFin : (c.asin one).neg.isFinite = true := by rw [neg_isFinite, hmaxFin]
  have hfin := isFinite_of_between hlo hhi hnegFin hmaxFin
  have hmulLo := mul_mono_of_nonneg (k := twoOverPi) (by decide) rfl hnegFin hfin hlo
  have hmulHi := mul_mono_of_nonneg (k := twoOverPi) (by decide) rfl hfin hmaxFin hhi
  rw [mul_neg_of_isFinite (by decide) hmaxFin] at hmulLo
  exact ⟨le_trans (neg_le_neg_of_le hmax) hmulLo, le_trans hmulHi hmax⟩

/-- A phase in range is, as a fraction of `TWO_PI`, between `+0.0` and 1.0. -/
theorem div_twoPi_between {p : F32} (hp : PhaseInRange p) :
    le zero (div p twoPi) = true ∧ le (div p twoPi) one = true := by
  have hfin : p.isFinite = true := isFinite_of_between hp.1 hp.le_max (by decide) (by decide)
  have hlo := div_mono_of_pos (x := zero) (d := twoPi) (by decide) hfin (by decide) rfl (by decide) hp.1
  have hhi := div_mono_of_pos (d := twoPi) hfin (by decide) (by decide) rfl (by decide) (le_of_lt hp.2)
  rw [show div zero twoPi = zero by decide +kernel] at hlo
  rw [show div twoPi twoPi = one by decide +kernel] at hhi
  exact ⟨hlo, hhi⟩

/-- Doubling and the subtraction of 1.0 are monotone and take `+0.0` to -1.0 and 1.0 to itself. -/
theorem ramp_between {x : F32} (hlo : le zero x = true) (hhi : le x one = true) :
    le negOne (sub (mul two x) one) = true ∧ le (sub (mul two x) one) one = true := by
  have hfin := isFinite_of_between hlo hhi (by decide) (by decide)
  have hmulLo := mul_mono_of_nonneg (k := two) (by decide) rfl (by decide) hfin hlo
  have hmulHi := mul_mono_of_nonneg (k := two) (by decide) rfl hfin (by decide) hhi
  rw [show mul two zero = zero by decide +kernel] at hmulLo
  rw [show mul two one = two by decide +kernel] at hmulHi
  have hmulFin := isFinite_of_between hmulLo hmulHi (by decide) (by decide)
  have hsubLo := sub_mono (y := one) (y' := one) (by decide) hmulFin (by decide) (by decide) hmulLo (by decide)
  have hsubHi := sub_mono (y := one) (y' := one) hmulFin (by decide) (by decide) (by decide) hmulHi (by decide)
  rw [show sub zero one = negOne by decide +kernel] at hsubLo
  rw [show sub two one = one by decide +kernel] at hsubHi
  exact ⟨hsubLo, hsubHi⟩

theorem saw_between (c : Config) {p : F32} (hp : PhaseInRange p) :
    le negOne (wave c .saw p) = true ∧ le (wave c .saw p) one = true := by
  obtain ⟨hlo, hhi⟩ := div_twoPi_between hp
  exact ramp_between hlo hhi

/-! ### The sample of a single plain voice -/

theorem activeVoices_eq_singleton {s : State κ} {i : Fin κ.voices} (h : ∀ v, (s.voice v).active = decide (v = i)) :
    s.activeVoices = [i] := by
  simp only [State.activeVoices, h]
  rw [List.filter_eq, List.count_eq_one_of_mem (List.nodup_finRange _) (List.mem_finRange i)]
  rfl

theorem chainIndices_eq_nil {s : State κ} (h : s.fcount.val = 0) : s.chainIndices = [] :=
  List.eq_nil_iff_forall_not_mem.2 fun k hk => by
    rw [mem_chainIndices, h] at hk
    exact Nat.not_lt_zero _ hk

/-- With no filter the sample passes unchanged (R232). -/
theorem chain_of_no_filter {s : State κ} (h : s.fcount.val = 0) (x : F32) : chain x s = (s, x) := by
  rw [chain, chainIndices_eq_nil h, List.foldl_nil]

/-- One plain voice is added to `+0.0` (R126, R262). -/
theorem mixVoices_single (c : Config) {s : State κ} {i : Fin κ.voices} (hfm : s.fm.enabled = false)
    (hactive : s.activeVoices = [i]) : (mixVoices c s).2 =
      add zero (wave c (s.voice i).waveform (advance c (s.voice i).phase (s.voice i).frequency)) := by
  simp only [mixVoices, hactive, List.foldl_cons, List.foldl_nil, mixVoice, hfm, Bool.false_eq_true, if_false]
  rfl

/-- The mix of one voice is divided by 1.0 (R264, R268). -/
theorem normalise_single {x : F32} (hx : x.isFinite = true) : normalise .divideByCount x 1 = x := by
  have hone : ofNat 1 = one := by decide +kernel
  rw [normalise, if_pos Nat.one_pos, hone, div_one_of_isFinite hx]

theorem normalise_divideByCount (mix : F32) (n : Nat) :
    normalise .divideByCount mix n = if n = 0 then mix else div mix (ofNat n) := by
  cases n <;> rfl

end Sys2Proof.Machine

namespace Sys2Proof

open Machine F32

/-- Settles O46: the increment is at most 4.0, and one subtraction brings the sum back below `TWO_PI`. -/
theorem advanceKeepsThePhaseRange : Obligations.AdvanceKeepsThePhaseRange := fun _ _ _ => advance_phaseLegal

/-- Settles O21: the named slot is written, and the frame is that of a write to the voice file. -/
theorem setwvWritesOneSlotsWaveform : Obligations.SetwvWritesOneSlotsWaveform := fun slot w s =>
  ⟨_, exec_eq_effect _ s, setWaveform_voice slot w s, setWaveform_frame s slot w⟩

/-- Settles O22: the voice file is written slot by slot, and nothing else is. -/
theorem setwvaWritesEverySlotsWaveform : Obligations.SetwvaWritesEverySlotsWaveform := fun w s =>
  ⟨_, exec_eq_effect _ s, setAllWaveforms_voice s w, rfl⟩

/-- Settles O42: the mix is `+0.0` plus the waveform, and neither the division by 1.0 nor the empty chain changes it. -/
theorem singleVoiceSampleIsItsWaveform : Obligations.SingleVoiceSampleIsItsWaveform := by
  intro κ c s i hpolicy hfm hfcount hactive hfin
  have hsingle := activeVoices_eq_singleton hactive
  have hsum := mixVoices_single c hfm hsingle
  have hfcount' : (mixVoices c s).1.fcount.val = 0 := by rw [mixVoices_fcount, hfcount]
  rw [zero_add_of_isFinite hfin] at hsum
  have hsumFin : (mixVoices c s).2.isFinite = true := by
    rw [hsum]
    split
    · decide
    · exact hfin
  calc (sampleStep c s).2
      = (chain (normalise c.normPolicy (mixVoices c s).2 s.activeVoices.length) (mixVoices c s).1).2 := rfl
    _ = normalise .divideByCount (mixVoices c s).2 1 := by rw [chain_of_no_filter hfcount', hpolicy, hsingle]; rfl
    _ = _ := (normalise_single hsumFin).trans hsum

/-- Settles O47, waveform by waveform: a phase in range is finite, and only Saw needs it in range. -/
theorem waveformsStayInUnitRange : Obligations.WaveformsStayInUnitRange := by
  intro c w p hlaws hp
  have hfin : p.isFinite = true :=
    hp.elim (fun h => isFinite_of_between h.1 h.le_max (by decide) (by decide)) And.left
  cases w with
  | sine => exact hlaws.sinRange p hfin
  | square => exact square_between c p
  | triangle => exact triangle_between hlaws.sinRange hlaws.asinRange hfin
  | saw => exact saw_between c (hp.resolve_right fun h => h.2 rfl)

/-- Settles O41: the formulas are the definitions' own, but that normalisation tests for a count of 0. -/
theorem unitsFollowTheirFormulas : Obligations.UnitsFollowTheirFormulas := by
  intro c p f cutoff q k x mix g n
  exact ⟨rfl, rfl, rfl, rfl, rfl, rfl, rfl, rfl, rfl, rfl, rfl, normalise_divideByCount mix n, rfl⟩

end Sys2Proof
end

section
/-! The voice pool: what NOTEON and NOTEOFF write (spec/41_voice_pool.md R151 to R157), and the mix of the active voices in slot
order (spec/41_voice_pool.md R158; spec/42_fm_operator.md R186, R187; spec/44_render.md R262, R263). -/

namespace Sys2Proof.Machine

open F32

variable {κ : Shape}

/-- A write that changes a slot by `g` changes that slot by `g` and no other. -/
theorem State.setVoice_update (g : Voice κ → Voice κ) (s : State κ) (i v : Fin κ.voices) :
    (s.setVoice i (g (s.voice i))).voice v = if v = i then g (s.voice v) else s.voice v := by
  by_cases hv : v = i
  · rw [hv, State.setVoice_same, if_pos rfl]
  · rw [State.setVoice_other _ _ _ _ (Ne.symm hv), if_neg hv]

/-! ### The holder of a key -/

section Holder
variable {s : State κ} {key : BitVec κ.keyWidth} {i : Fin κ.voices}

/-- The search for a key finds the least active slot that holds it, in the words of the statements (R151, R157). -/
theorem State.findKey_eq_some_iff : s.findKey key = some i ↔
    ((s.voice i).active = true ∧ (s.voice i).key = key) ∧ ∀ j < i, ¬ ((s.voice j).active = true ∧ (s.voice j).key = key) := by
  simp only [State.findKey_eq_some, ← Voice.holds_iff, Bool.not_eq_true]

theorem State.findKey_eq_none_iff :
    s.findKey key = none ↔ ∀ j, ¬ ((s.voice j).active = true ∧ (s.voice j).key = key) := by
  simp only [State.findKey_eq_none, ← Voice.holds_iff, Bool.not_eq_true]

end Holder

/-! ### NOTEON and NOTEOFF -/

section Notes
variable {c : Config} {s : State κ} {key : BitVec κ.keyWidth} {i : Fin κ.voices} {f : F32}

theorem noteOn_of_held (v0 : F32) (h : s.findKey key = some i) : noteOn c key v0 s = retune i (clampFreq c v0) s := by
  rw [noteOn, h]

theorem noteOn_of_new (v0 : F32) (h : s.findKey key = none) (hslot : s.claimSlot = i) :
    noteOn c key v0 s = trigger c i key (clampFreq c v0) s := by
  rw [noteOn, h, hslot]

theorem retune_voice (v : Fin κ.voices) :
    (retune i f s).voice v = if v = i then { s.voice v with frequency := f } else s.voice v :=
  State.setVoice_update (fun w => { w with frequency := f }) s i v

theorem trigger_voice (v : Fin κ.voices) : (trigger c i key f s).voice v =
    if v = i then { s.voice v with active := true, key := key, frequency := f } else s.voice v :=
  (State.voice_congr (trigger_voices c i key f s) v).trans
    (State.setVoice_update (fun w => { w with active := true, key := key, frequency := f }) s i v)

/-- The Harmonic recompute of a newly triggered voice (R154). -/
theorem trigger_fm_of_harmonic (h : s.fm.mode = .harmonic) :
    (trigger c i key f s).fm = { s.fm with mfreq := clampFreq c (mul f s.fm.ratio) } := by
  simp only [trigger, harmonicRecompute, State.setVoice_fm, h, State.withFm_fm]

theorem trigger_fm_of_inharmonic (h : s.fm.mode = .inharmonic) : (trigger c i key f s).fm = s.fm := by
  simp only [trigger, harmonicRecompute, State.setVoice_fm, h]

theorem State.claimSlot_of_inactive (hi : (s.voice i).active = false) (hlt : ∀ j < i, (s.voice j).active = true) :
    s.claimSlot = i := by
  rw [State.claimSlot, State.findInactive_eq_some.2 ⟨hi, hlt⟩, Option.getD_some]

theorem State.claimSlot_of_full (h : ∀ j, (s.voice j).active = true) : s.claimSlot = ⟨0, κ.voicesPos⟩ := by
  rw [State.claimSlot, State.findInactive_eq_none.2 h, Option.getD_none]

theorem noteOff_voice (v : Fin κ.voices) : (noteOff key s).voice v =
    if s.findKey key = some v then { s.voice v with active := false } else s.voice v := by
  unfold noteOff
  split
  next i hfind =>
    rw [State.setVoice_update (fun w => { w with active := false }) s i v, hfind]
    simp only [Option.some.injEq, eq_comm]
  next hfind => rw [hfind, if_neg (by simp)]

end Notes

/-! ### One voice's turn in the mix -/

section Mix
variable (c : Config) (acc : State κ × F32) (w : Fin κ.voices)

/-- A turn advances the voice and no other (R262). -/
theorem mixVoice_voice (v : Fin κ.voices) :
    (mixVoice c acc w).1.voice v = if v = w then (acc.1.voice v).advanced c else acc.1.voice v := by
  simp only [mixVoice]
  split
  · exact State.setVoice_update (Voice.advanced c) (acc.1.withFm (acc.1.fm.advanced c)) w v
  · exact State.setVoice_update (Voice.advanced c) acc.1 w v

/-- A turn advances the modulator where it is engaged (R186, R187). -/
theorem mixVoice_fm : (mixVoice c acc w).1.fm = if acc.1.fm.enabled then acc.1.fm.advanced c else acc.1.fm := by
  simp only [mixVoice]
  split <;> rfl

/-- A turn adds the voice's sample to the mix, with no active voice before it since the state of the turn (R263). -/
theorem mixVoice_mix : (mixVoice c acc w).2 = add acc.2 (voiceSample c acc.1 0 w) := by
  simp only [mixVoice, voiceSample]
  split <;> rfl

/-- To the other voices a turn is one more active voice before them (R187). -/
theorem voiceSample_mixVoice (r : Nat) {v : Fin κ.voices} (hv : v ≠ w) :
    voiceSample c (mixVoice c acc w).1 r v = voiceSample c acc.1 (r + 1) v := by
  simp only [voiceSample, mixVoice_voice, if_neg hv, mixVoice_fm]
  cases hfm : acc.1.fm.enabled with
  | false => simp only [hfm, Bool.false_eq_true, if_false]
  | true =>
    rw [Function.iterate_succ_apply _ (r + 1)]
    simp only [if_true, Fm.advanced, hfm]

end Mix

/-! ### The turns in order -/

section Turns
variable (c : Config)

/-- Each voice that has a turn advances once. -/
theorem foldl_mixVoice_voice {vs : List (Fin κ.voices)} (hvs : vs.Nodup) (acc : State κ × F32) (v : Fin κ.voices) :
    (vs.foldl (mixVoice c) acc).1.voice v = if v ∈ vs then (acc.1.voice v).advanced c else acc.1.voice v := by
  induction vs generalizing acc with
  | nil => rfl
  | cons w vs ih =>
    obtain ⟨hw, hvs⟩ := List.nodup_cons.1 hvs
    rw [List.foldl_cons, ih hvs, mixVoice_voice]
    by_cases hv : v = w
    · subst hv
      simp [hw]
    · simp [hv]

theorem foldl_mixVoice_mphase (vs : List (Fin κ.voices)) (acc : State κ × F32) :
    (vs.foldl (mixVoice c) acc).1.fm.mphase =
      if acc.1.fm.enabled then (fun q => advance c q acc.1.fm.mfreq)^[vs.length] acc.1.fm.mphase else acc.1.fm.mphase := by
  induction vs generalizing acc with
  | nil => simp
  | cons w vs ih =>
    rw [List.foldl_cons, ih, mixVoice_fm]
    cases hfm : acc.1.fm.enabled with
    | false => simp only [hfm, Bool.false_eq_true, if_false]
    | true => simp only [if_true, Fm.advanced, hfm, List.length_cons, Function.iterate_succ_apply]

/-- The mix accumulates the samples of the voices in the order of their turns (R263). -/
theorem foldl_mixVoice_mix {vs : List (Fin κ.voices)} (hvs : vs.Nodup) (acc : State κ × F32) :
    (vs.foldl (mixVoice c) acc).2 = (vs.mapIdx (voiceSample c acc.1)).foldl add acc.2 := by
  induction vs generalizing acc with
  | nil => rfl
  | cons w vs ih =>
    obtain ⟨hw, hvs⟩ := List.nodup_cons.1 hvs
    have hlater : vs.mapIdx (voiceSample c (mixVoice c acc w).1) = vs.mapIdx fun r => voiceSample c acc.1 (r + 1) :=
      List.mapIdx_eq_mapIdx_iff.2 fun r hr =>
        voiceSample_mixVoice c acc w r (ne_of_mem_of_not_mem (List.getElem_mem hr) hw)
    rw [List.foldl_cons, ih hvs, hlater, mixVoice_mix, List.mapIdx_cons, List.foldl_cons]

end Turns

theorem activeVoices_pairwise (s : State κ) : s.activeVoices.Pairwise (· < ·) :=
  (List.pairwise_lt_finRange κ.voices).filter _

theorem activeVoices_nodup (s : State κ) : s.activeVoices.Nodup := (List.nodup_finRange κ.voices).filter _

end Sys2Proof.Machine

namespace Sys2Proof

open Machine

/-- Settles O23: NOTEON finds the slot and retunes it. -/
theorem noteonOfAnActiveKeyRetunes : Obligations.NoteonOfAnActiveKeyRetunes := by
  intro key v0 s i hactive hkey hleast
  have hfind : s.findKey key = some i := State.findKey_eq_some_iff.2 ⟨⟨hactive, hkey⟩, hleast⟩
  exact ⟨_, exec_eq_next.2 (noteOn_of_held v0 hfind), retune_voice, rfl⟩

/-- Settles O24: NOTEON finds no holder and triggers the least inactive slot. -/
theorem noteonAllocatesTheLeastInactiveSlot : Obligations.NoteonAllocatesTheLeastInactiveSlot := by
  intro key v0 s i hnew hinactive hleast
  have hnote : noteOn Config.hw key v0 s = trigger Config.hw i key (clampFreq Config.hw v0) s :=
    noteOn_of_new v0 (State.findKey_eq_none_iff.2 hnew) (State.claimSlot_of_inactive hinactive hleast)
  refine ⟨_, exec_eq_next.2 hnote, trigger_voice, ?_, hnote ▸ noteOn_frame _ s key v0⟩
  cases hmode : s.fm.mode with
  | harmonic => exact trigger_fm_of_harmonic hmode
  | inharmonic => exact trigger_fm_of_inharmonic hmode

/-- Settles O25: NOTEON finds neither a holder nor an inactive slot and triggers slot 0, which is active already. -/
theorem noteonStealsSlotZeroWhenFull : Obligations.NoteonStealsSlotZeroWhenFull := by
  intro key v0 s hfull hnew
  have hnote : noteOn Config.hw key v0 s = trigger Config.hw 0 key (clampFreq Config.hw v0) s :=
    noteOn_of_new v0 (State.findKey_eq_none_iff.2 fun j hj => hnew j hj.2) (State.claimSlot_of_full hfull)
  refine ⟨_, exec_eq_next.2 hnote, ?_, fun v hv => ?_, ?_, hnote ▸ noteOn_frame _ s key v0⟩
  · rw [trigger_voice, if_pos rfl, ← hfull 0]
    rfl
  · rw [trigger_voice, if_neg hv]
  · cases hmode : s.fm.mode with
    | harmonic => exact trigger_fm_of_harmonic hmode
    | inharmonic => exact trigger_fm_of_inharmonic hmode

/-- Settles O26: a holder is retuned, which leaves `fm`; otherwise the claimed slot is triggered. -/
theorem harmonicRecomputeOnNewVoicesOnly : Obligations.HarmonicRecomputeOnNewVoicesOnly := by
  intro key v0 s
  cases hfind : s.findKey key with
  | some i =>
    have hnote : noteOn Config.hw key v0 s = retune i (clampFreq Config.hw v0) s := noteOn_of_held v0 hfind
    refine ⟨_, exec_eq_next.2 hnote, fun _ => rfl, fun _ => rfl, fun hnew => ?_⟩
    rw [State.findKey_eq_none_iff.2 hnew] at hfind
    cases hfind
  | none =>
    have hnote : noteOn Config.hw key v0 s = trigger Config.hw s.claimSlot key (clampFreq Config.hw v0) s :=
      noteOn_of_new v0 hfind rfl
    exact ⟨_, exec_eq_next.2 hnote, fun ⟨j, hj⟩ => absurd hj (State.findKey_eq_none_iff.1 hfind j),
      trigger_fm_of_inharmonic, fun _ => trigger_fm_of_harmonic⟩

/-- Settles O27: the released slot is the one that the search for the key finds. -/
theorem noteoffReleasesTheHoldingSlot : Obligations.NoteoffReleasesTheHoldingSlot := by
  intro key s
  refine ⟨_, exec_eq_effect _ s, fun v ⟨hactive, hkey, hleast⟩ => ?_, fun v hnot => ?_, noteOff_frame s key⟩
  · exact (noteOff_voice v).trans (if_pos (State.findKey_eq_some_iff.2 ⟨⟨hactive, hkey⟩, hleast⟩))
  · refine (noteOff_voice v).trans (if_neg fun hfind => hnot ?_)
    obtain ⟨⟨hactive, hkey⟩, hleast⟩ := State.findKey_eq_some_iff.1 hfind
    exact ⟨hactive, hkey, hleast⟩

/-- Settles O43: the turns of the active voices in slot order, each slot taking one at most. -/
theorem mixSumsActiveVoicesInSlotOrder : Obligations.MixSumsActiveVoicesInSlotOrder := by
  intro κ c s
  refine ⟨fun v => State.mem_activeVoices, activeVoices_pairwise s,
    foldl_mixVoice_mix c (activeVoices_nodup s) (s, F32.zero), fun v => ?_,
    foldl_mixVoice_mphase c s.activeVoices (s, F32.zero)⟩
  rw [mixVoices, foldl_mixVoice_voice c (activeVoices_nodup s), apply_ite Voice.phase]
  simp only [State.mem_activeVoices]
  rfl

end Sys2Proof
end

section
/-! The FM operator: the registers SETFM writes (spec/42_fm_operator.md R181 to R184), and why an index of `+0.0` leaves the
carrier's phase as it is (spec/42_fm_operator.md R187, R189; spec/00_scope.md R12). -/

namespace Sys2Proof.F32

/-! ### Products with a zero and sums with a zero -/

theorem eq_zero_or_eq_neg_zero {x : F32} (h : x.isZero = true) : x = zero ∨ x = zero.neg := by
  have hmag : x.magBits = 0 := of_decide_eq_true h
  cases hs : x.sign with
  | false => exact .inl (ext_sign_magBits hs hmag)
  | true => exact .inr (ext_sign_magBits hs hmag)

/-- `+0.0` times a finite value is a zero of either sign. -/
theorem zero_mul_isZero {x : F32} (hx : x.isFinite = true) : (mul zero x).isZero = true := by
  have hmag : roundMag (zero.mag * x.mag) (2 ^ 149) = 0 := by
    rw [show zero.mag = 0 from rfl, Nat.zero_mul, roundMag_zero _ (Nat.two_pow_pos _)]
  rw [mul_parts (by decide) hx, hmag, isZero, ofParts_magBits _ _ (by decide)]
  rfl

/-- Adding a zero of either sign changes no finite value but `-0.0`, which `+0.0` turns into `+0.0` (R12, R189). -/
theorem add_of_isZero {x z : F32} (hx : x.isFinite = true) (hneg : x ≠ zero.neg) (hz : z.isZero = true) :
    add x z = x := by
  by_cases h0 : x.isZero = true
  · obtain rfl := (eq_zero_or_eq_neg_zero h0).resolve_right hneg
    rcases eq_zero_or_eq_neg_zero hz with rfl | rfl <;> decide
  · have ⟨hzFin, hzVal⟩ : z.isFinite = true ∧ z.val = 0 := by
      rcases eq_zero_or_eq_neg_zero hz with rfl | rfl <;> exact ⟨by decide, rfl⟩
    obtain ⟨-, hrank⟩ := add_rank hx hzFin
    rw [hzVal, Int.add_zero, roundRank_val hx] at hrank
    exact eq_of_rank_eq hrank (by simpa [isZero] using h0)

end Sys2Proof.F32

namespace Sys2Proof.Machine

open F32

variable {κ : Shape}

/-- The registers SETFM leaves, as one record for both modes (R181). -/
theorem configured_eq (c : Config) (fm : Fm) (enabled : Bool) (w : Waveform) (mode : FmMode) (v0 v1 : F32) :
    fm.configured c enabled w mode v0 v1 =
      { enabled := enabled, wave := w, mode := mode,
        ratio := if mode = .harmonic then clampRatio c v0 else fm.ratio,
        mfreq := if mode = .inharmonic then clampFreq c v0 else fm.mfreq,
        mphase := fm.mphase, beta := clampBeta c v1 } := by
  cases mode <;> rfl

theorem PhaseInRange.isFinite {p : F32} (hp : PhaseInRange p) : p.isFinite = true :=
  isFinite_of_between hp.1 hp.le_max (by decide) (by decide)

/-- With an index of `+0.0` the modulated phase is the phase (R189). -/
theorem carrier_of_zero_index {c : Config} {fm : Fm} {v : Voice κ} (hbeta : fm.beta = zero) (hphase : PhaseLegal v.phase)
    (hfin : (fm.value c).isFinite = true) : carrier c fm v = wave c v.waveform v.phase := by
  obtain ⟨hrange, hneg⟩ := hphase
  rw [carrier, hbeta, add_of_isZero hrange.isFinite hneg (zero_mul_isZero hfin)]

end Sys2Proof.Machine

namespace Sys2Proof

open Machine

/-- Settles O28: the operator is configured in both modes at once, and the frame is that of a write to `fm`. -/
theorem setfmConfiguresTheOperator : Obligations.SetfmConfiguresTheOperator := fun en w m v0 v1 s =>
  ⟨_, exec_eq_effect _ s, configured_eq Config.hw s.fm en w m v0 v1, rfl⟩

/-- Settles O45: the modulator's step keeps the index, so that the carrier is evaluated at the advanced phase itself. -/
theorem zeroIndexModulationIsPlain : Obligations.ZeroIndexModulationIsPlain := fun _ _ _ _ hbeta hphase hfin =>
  ⟨carrier_of_zero_index hbeta hphase hfin, rfl⟩

end Sys2Proof
end

section
/-! The filter chain: what ADDFLT, RMFLT and SETFLT write (spec/43_filter.md R213, R221 to R223), how a sample is threaded through
the chain (R230, R232), and the leading coefficient of the design (R216, R218, R233). -/

namespace Sys2Proof.F32

/-! ### Positive values and infinity as operands -/

theorem isZero_of_pos {x : F32} (h : lt zero x = true) : x.isZero = false := by
  have hrank : 0 < x.rank := (lt_iff.1 h).2.2
  obtain ⟨-, hmag⟩ := rank_of_pos hrank
  rw [isZero, decide_eq_false_iff_not]
  omega

theorem isFinite_or_eq_infinity {x : F32} (hs : x.sign = false) (hn : x.isNaN = false) :
    x.isFinite = true ∨ x = ⟨0x7F800000⟩ := by
  rcases Nat.lt_or_ge x.magBits infBits with hlt | hge
  · exact .inl (decide_eq_true hlt)
  · have hle : x.magBits ≤ infBits := by simpa [isNaN] using hn
    exact .inr (ext_sign_magBits hs (Nat.le_antisymm hle hge))

theorem div_infinity {x : F32} (hx : x.isFinite = true) (hs : x.sign = false) : div x ⟨0x7F800000⟩ = zero := by
  have hInf : (⟨0x7F800000⟩ : F32).isInf = true := by decide
  have hZero : (⟨0x7F800000⟩ : F32).isZero = false := by decide
  have hNaN : (⟨0x7F800000⟩ : F32).isNaN = false := by decide
  simp only [div, not_isNaN_of_isFinite hx, isInf_eq_false hx, hInf, hZero, hNaN, hs, Bool.false_and, Bool.and_false,
    Bool.or_false, Bool.false_eq_true, if_false, if_true]
  rfl

/-- The exact quotient 1.0 is representable. -/
theorem div_self_of_isFinite {x : F32} (hx : x.isFinite = true) (h0 : x.isZero = false) : div x x = one := by
  have hone : magOf one.magBits = 2 ^ 149 := by decide +kernel
  rw [div_parts hx hx h0, Nat.mul_comm, ← hone, roundMag_magOf _ _ (mag_pos hx h0) (by decide), bne_self_eq_false]
  rfl

theorem sub_zero_of_sign {x : F32} (hx : x.isFinite = true) (hs : x.sign = false) : sub x zero = x := by
  rw [sub_eq_add_neg hx (by decide), add_of_isZero hx (ne_neg_zero_of_sign hs) (by decide)]

end Sys2Proof.F32

namespace Sys2Proof

open F32

section CutoffBounds
variable {c : Config} (hv : c.valid = true)
include hv

theorem Config.sr_isZero : c.sr.isZero = false := by
  obtain ⟨-, hsr, -⟩ := Config.valid_parts hv
  exact isZero_of_pos (lt_of_lt_of_le (y := twoHundredForty) (by decide) hsr)

theorem Config.cutoffMax_le_freqMax : le c.cutoffMax c.freqMax = true := by
  obtain ⟨-, hfin⟩ := Config.freqMax_ge hv
  have hmono := sub_mono (y := hundred) (y' := zero) hfin hfin (by decide) (by decide)
    (le_refl (not_isNaN_of_isFinite hfin)) (by decide)
  rwa [sub_zero_of_sign hfin (Config.freqMax_sign hv)] at hmono

end CutoffBounds

end Sys2Proof

namespace Sys2Proof.Machine

open F32

variable {κ : Shape}

/-! ### The commands -/

theorem addFilter_of_full (c : Config) {s : State κ} (h : s.fcount.val = κ.filters) : addFilter c s = s :=
  dif_neg (by omega)

theorem removeFilter_of_absent {index : Nat} {s : State κ} (h : s.fcount.val ≤ index) : removeFilter index s = s :=
  if_neg (by omega)

/-- SETFLT writes the named entry where it exists, and no other (R223). -/
theorem setFilter_filter_eq (c : Config) (index : Nat) (t : FilterType) (v0 v1 : F32) (s : State κ) (k : Fin κ.filters) :
    (setFilter c index t v0 v1 s).filter k =
      if k.val = index ∧ k.val < s.fcount.val then (s.filter k).withParameters c t v0 v1 else s.filter k := by
  by_cases hindex : index < s.fcount.val
  · have hiff : k.val = index ∧ k.val < s.fcount.val ↔ k.val = index := by omega
    simp only [setFilter_filter c t v0 v1 hindex, hiff]
  · rw [if_neg (by omega), setFilter, dif_neg hindex]

theorem setFilter_frame_filt (c : Config) (index : Nat) (t : FilterType) (v0 v1 : F32) (s : State κ) :
    { setFilter c index t v0 v1 s with filt := s.filt } = s := by
  unfold setFilter; split <;> rfl

/-! ### The chain -/

section Chain
variable (s : State κ) (x : F32)

theorem chainInput_succ (k : Fin κ.filters) : chainInput s x (k.val + 1) = (s.filter k).output (chainInput s x k.val) :=
  dif_pos k.isLt

/-- The chain cut off after the filters below `m`. -/
def chainBelow (m : Nat) : State κ × F32 :=
  ((List.finRange κ.filters).filter fun k => decide (k.val < m)).foldl process (s, x)

theorem chain_eq_chainBelow : chain x s = chainBelow s x s.fcount.val := rfl

theorem chainBelow_zero : chainBelow s x 0 = (s, x) := by simp [chainBelow]

theorem chainBelow_succ {m : Nat} (hm : m < κ.filters) :
    chainBelow s x (m + 1) = process (chainBelow s x m) ⟨m, hm⟩ := by
  rw [chainBelow, filter_finRange_succ hm, List.foldl_append]
  rfl

/-- After the filters below `m` the sample is the input of filter `m`, and each of their entries has shifted once. -/
theorem chainBelow_spec {m : Nat} (hm : m ≤ κ.filters) : (chainBelow s x m).2 = chainInput s x m ∧
    ∀ k, (chainBelow s x m).1.filter k =
      if k.val < m then (s.filter k).shifted (chainInput s x k.val) else s.filter k := by
  induction m with
  | zero => simp [chainBelow_zero, chainInput]
  | succ m ih =>
    obtain ⟨hout, hfilter⟩ := ih (by omega)
    have hnext : (chainBelow s x m).1.filter ⟨m, hm⟩ = s.filter ⟨m, hm⟩ :=
      (hfilter ⟨m, hm⟩).trans (if_neg (Nat.lt_irrefl m))
    rw [chainBelow_succ s x hm, process, hout, hnext]
    refine ⟨(chainInput_succ s x ⟨m, hm⟩).symm, fun k => ?_⟩
    rw [State.setFilter_filter, hfilter]
    by_cases hk : k.val = m
    · obtain rfl : k = ⟨m, hm⟩ := Fin.ext hk
      rw [if_pos rfl, if_pos (Nat.lt_succ_self m)]
    · have hne : (⟨m, hm⟩ : Fin κ.filters) ≠ k := fun h => hk (congrArg Fin.val h).symm
      have hiff : k.val < m + 1 ↔ k.val < m := by omega
      simp only [hne, hiff, if_false]

theorem foldl_process_frame_filt (ks : List (Fin κ.filters)) (acc : State κ × F32) :
    { (ks.foldl process acc).1 with filt := acc.1.filt } = acc.1 := by
  induction ks generalizing acc with
  | nil => rfl
  | cons k ks ih => exact congrArg (fun t : State κ => { t with filt := acc.1.filt }) (ih (process acc k))

theorem chain_output : (chain x s).2 = chainInput s x s.fcount.val :=
  (chainBelow_spec s x (Nat.le_of_lt_succ s.fcount.isLt)).1

theorem chain_filter (k : Fin κ.filters) : (chain x s).1.filter k =
    if k.val < s.fcount.val then (s.filter k).shifted (chainInput s x k.val) else s.filter k :=
  (chainBelow_spec s x (Nat.le_of_lt_succ s.fcount.isLt)).2 k

theorem chain_frame_filt : { (chain x s).1 with filt := s.filt } = s := foldl_process_frame_filt _ (s, x)

/-- A filter's output is the input of the filter after it. -/
theorem shifted_chainInput (k : Fin κ.filters) : (s.filter k).shifted (chainInput s x k.val) =
    { s.filter k with
      x1 := chainInput s x k.val, x2 := (s.filter k).x1, y1 := chainInput s x (k.val + 1), y2 := (s.filter k).y1 } := by
  rw [chainInput_succ]
  rfl

end Chain

/-! ### The design angle -/

section Angle
variable {c : Config} (hv : c.valid = true) (hstep : c.stepFinite = true)
include hv hstep

/-- A frequency up to `FREQ_MAX` is finite, and so is its product with `TWO_PI`. -/
theorem isFinite_of_le_freqMax {f : F32} (h0 : le zero f = true) (hmax : le f c.freqMax = true) :
    f.isFinite = true ∧ (mul twoPi f).isFinite = true := by
  obtain ⟨-, hmaxFin⟩ := Config.freqMax_ge hv
  have hfin := isFinite_of_between h0 hmax (by decide) hmaxFin
  have hlo := mul_mono_of_nonneg (k := twoPi) (by decide) rfl (by decide) hfin h0
  have hhi := mul_mono_of_nonneg (k := twoPi) (by decide) rfl hfin hmaxFin hmax
  exact ⟨hfin, isFinite_of_between hlo hhi (by decide +kernel) hstep⟩

theorem designAngle_mono {f g : F32} (h0 : le zero f = true) (h : le f g = true) (hmax : le g c.freqMax = true) :
    le (designAngle c f) (designAngle c g) = true := by
  obtain ⟨hsr, -⟩ := Config.valid_parts hv
  obtain ⟨hf, hfProd⟩ := isFinite_of_le_freqMax hv hstep h0 (le_trans h hmax)
  obtain ⟨hg, hgProd⟩ := isFinite_of_le_freqMax hv hstep (le_trans h0 h) hmax
  exact div_mono_of_pos hfProd hgProd hsr (Config.sr_sign hv) (Config.sr_isZero hv)
    (mul_mono_of_nonneg (by decide) rfl hf hg h)

/-- The angle of a cutoff up to `FREQ_MAX` is at most 4.0, like the increment of that frequency. -/
theorem designAngle_isFinite {f : F32} (hpos : lt zero f = true) (hmax : le f c.freqMax = true) :
    (designAngle c f).isFinite = true := by
  obtain ⟨hsr, -⟩ := Config.valid_parts hv
  obtain ⟨hf, hprod⟩ := isFinite_of_le_freqMax hv hstep (le_of_lt hpos) hmax
  have hsign : (designAngle c f).sign = false := by
    rw [designAngle, div_sign hprod hsr (Config.sr_isZero hv), mul_sign (by decide) hf, sign_of_pos hpos, Config.sr_sign hv]
    rfl
  have hlegal : FreqLegal c c.freqMax := ⟨Config.freq_bounds hv, le_refl (not_isNaN_of_le_right hmax)⟩
  obtain ⟨-, hinc⟩ := phaseInc_bounds hv hstep hlegal
  have hle := le_trans (designAngle_mono hv hstep (le_of_lt hpos) hmax hlegal.2) hinc
  exact isFinite_of_between (le_zero_of_sign hsign (not_isNaN_of_le_left hle)) hle (by decide) (by decide)

end Angle

/-! ### The leading coefficient -/

/-- The sine of the angle of a clamped cutoff is positive and at most 1.0 (R14, R218). -/
theorem sin_designAngle_between {c : Config} (hhw : c = c.withHardwareValues) (hv : c.valid = true)
    (hstep : c.stepFinite = true) (hlaws : c.TrigLaws) (cutoff : F32) :
    lt zero (c.sin (designAngle c (clampCutoff c cutoff))) = true ∧
    le (c.sin (designAngle c (clampCutoff c cutoff))) one = true := by
  have hmin : c.cutoffMin = ⟨0x41A00000⟩ := congrArg Config.cutoffMin hhw
  have hpos : lt zero c.cutoffMin = true := by rw [hmin]; decide
  have hmax := Config.cutoffMax_le_freqMax hv
  obtain ⟨hlo, hhi⟩ := clamp_between cutoff (hmin ▸ Config.cutoff_bounds hv : le c.cutoffMin c.cutoffMax = true)
  have hmaxFreq := le_trans hhi hmax
  have hangleLo := designAngle_mono hv hstep (le_of_lt hpos) hlo hmaxFreq
  have hangleHi := designAngle_mono hv hstep (le_trans (le_of_lt hpos) hlo) hhi hmax
  obtain ⟨-, hone⟩ := hlaws.sinRange _ (designAngle_isFinite hv hstep (lt_of_lt_of_le hpos hlo) hmaxFreq)
  exact ⟨hlaws.sinPosDesign _ hangleLo hangleHi, hone⟩

/-- Twice a clamped resonance is at least 0.1; it may be infinite. -/
theorem tenth_le_mul_two {q : F32} (h : le ⟨0x3D4CCCCD⟩ q = true) : le ⟨0x3DCCCCCD⟩ (mul two q) = true := by
  have hs := sign_of_pos (lt_of_lt_of_le (x := zero) (by decide) h)
  rcases isFinite_or_eq_infinity hs (not_isNaN_of_le_right h) with hfin | rfl
  · have hmono := mul_mono_of_nonneg (k := two) (by decide) rfl (by decide) hfin h
    rwa [show mul two ⟨0x3D4CCCCD⟩ = ⟨0x3DCCCCCD⟩ by decide +kernel] at hmono
  · decide +kernel

/-- A sine of at most 1.0 over at least 0.1 is at most 10.0, and `+0.0` where the divisor is infinite. -/
theorem div_between {sw d : F32} (hpos : lt zero sw = true) (hmax : le sw one = true) (hd : le ⟨0x3DCCCCCD⟩ d = true) :
    le zero (div sw d) = true ∧ le (div sw d) ⟨0x41200000⟩ = true := by
  have hsw := sign_of_pos hpos
  have hswFin := isFinite_of_between (le_of_lt hpos) hmax (by decide) (by decide)
  have hdPos : lt zero d = true := lt_of_lt_of_le (by decide) hd
  have hds := sign_of_pos hdPos
  rcases isFinite_or_eq_infinity hds (not_isNaN_of_le_right hd) with hfin | rfl
  · have hswBits := (le_iff_magBits hsw rfl (by decide)).1 hmax
    have hdBits := (le_iff_magBits rfl hds (not_isNaN_of_isFinite hfin)).1 hd
    have hd0 := isZero_of_pos hdPos
    have hsign : (div sw d).sign = false := by rw [div_sign hswFin hfin hd0, hsw, hds]; rfl
    have hbits := div_magBits_mono hswFin hfin (x' := one) (y' := ⟨0x3DCCCCCD⟩) (by decide) (by decide) hd0 (by decide)
      hswBits hdBits
    exact ⟨le_zero_of_sign hsign (div_isNaN hswFin hfin hd0),
      (le_iff_magBits hsign rfl (by decide)).2 (hbits.trans (by decide +kernel))⟩
  · rw [div_infinity hswFin hsw]
    decide

/-- The leading coefficient lies between 1.0 and 11.0. -/
theorem one_add_between {al : F32} (h0 : le zero al = true) (hmax : le al ⟨0x41200000⟩ = true) :
    le one (add one al) = true ∧ le (add one al) ⟨0x41300000⟩ = true := by
  have hfin := isFinite_of_between h0 hmax (by decide) (by decide)
  have hlo := add_mono (x := one) (x' := one) (by decide) (by decide) (by decide) hfin (by decide) h0
  have hhi := add_mono (x := one) (x' := one) (by decide) (by decide) hfin (by decide) (by decide) hmax
  rw [show add one zero = one by decide +kernel] at hlo
  rw [show add one ⟨0x41200000⟩ = ⟨0x41300000⟩ by decide +kernel] at hhi
  exact ⟨hlo, hhi⟩

theorem designA0_between {c : Config} (hhw : c = c.withHardwareValues) (hv : c.valid = true) (hstep : c.stepFinite = true)
    (hlaws : c.TrigLaws) (cutoff q : F32) :
    le one (designA0 c (clampCutoff c cutoff) (clampResonance c q)) = true ∧
    le (designA0 c (clampCutoff c cutoff) (clampResonance c q)) ⟨0x41300000⟩ = true := by
  have hqMin : c.qMin = ⟨0x3D4CCCCD⟩ := congrArg Config.qMin hhw
  have hq : le c.qMin (clampResonance c q) = true := clampMin_ge q (by rw [hqMin]; decide)
  obtain ⟨hpos, hone⟩ := sin_designAngle_between hhw hv hstep hlaws cutoff
  obtain ⟨h0, hmax⟩ := div_between hpos hone (tenth_le_mul_two (hqMin ▸ hq))
  exact one_add_between h0 hmax

end Sys2Proof.Machine

namespace Sys2Proof

open Machine F32

/-- Settles O30: the entry the count names is made afresh, and the frame is that of the filter registers. -/
theorem addfltAppendsADefaultFilter : Obligations.AddfltAppendsADefaultFilter := fun s =>
  ⟨_, exec_eq_effect _ s, addFilter_of_full Config.hw, fun hroom =>
    ⟨addFilter_fcount Config.hw hroom,
      fun k hk => (addFilter_filter Config.hw hroom k).trans (if_pos hk),
      fun k hk => (addFilter_filter Config.hw hroom k).trans (if_neg hk),
      addFilter_frame Config.hw s⟩⟩

/-- Settles O31: below the index an entry stays, and from it on an entry is the one after it. -/
theorem rmfltShiftsTheLaterFiltersDown : Obligations.RmfltShiftsTheLaterFiltersDown := by
  intro index s
  refine ⟨_, exec_eq_effect _ s, removeFilter_of_absent, fun hindex => ?_⟩
  have hcount : ((Instr.rmflt index).effect s).fcount.val = s.fcount.val - 1 := removeFilter_fcount hindex
  refine ⟨by omega, fun k hk => ?_, fun k m hk hlt hm => ?_, removeFilter_frame s index⟩
  · exact (removeFilter_filter hindex k (by omega)).trans (if_pos hk)
  · have hnext : (⟨k.val + 1, hm ▸ m.isLt⟩ : Fin Shape.hw.filters) = m := Fin.ext hm.symm
    exact (removeFilter_filter hindex k (by omega)).trans ((if_neg (by omega)).trans (congrArg s.filter hnext))

/-- Settles O32: the named entry takes the clamped parameters and their design where it exists. -/
theorem setfltSetsOneFiltersParameters : Obligations.SetfltSetsOneFiltersParameters := fun index ty v0 v1 s =>
  ⟨_, exec_eq_effect _ s,
    fun k hk hlt => (setFilter_filter_eq Config.hw index ty v0 v1 s k).trans (if_pos ⟨hk, hlt⟩),
    fun k hk => (setFilter_filter_eq Config.hw index ty v0 v1 s k).trans (if_neg hk),
    setFilter_frame_filt Config.hw index ty v0 v1 s⟩

/-- Settles O44: the chain is the fold over the filters below the count, each of them shifted once. -/
theorem chainThreadsFiltersInOrder : Obligations.ChainThreadsFiltersInOrder := fun _ x s =>
  ⟨chain_output s x,
    fun k hk => (chain_filter s x k).trans ((if_pos hk).trans (shifted_chainInput s x k)),
    fun k hk => (chain_filter s x k).trans (if_neg (Nat.not_lt.2 hk)),
    chain_frame_filt s x⟩

/-- Settles O48: the sine of the angle is in `(+0.0, 1.0]` and the divisor at least 0.1, so that the coefficient lies between
1.0 and 11.0. -/
theorem leadingCoefficientIsAtLeastOne : Obligations.LeadingCoefficientIsAtLeastOne := by
  intro c cutoff q hhw hv hstep hlaws
  obtain ⟨hlo, hhi⟩ := designA0_between hhw hv hstep hlaws cutoff q
  have hfin := isFinite_of_between hlo hhi (by decide) (by decide)
  exact ⟨hlo, hfin, div_self_of_isFinite hfin (isZero_of_pos (lt_of_lt_of_le (by decide) hlo))⟩

/-- Settles O49: the equal coefficients are one numerator over the same `a0`. -/
theorem designHasEqualCoefficients : Obligations.DesignHasEqualCoefficients := fun _ _ _ => ⟨rfl, rfl, rfl⟩

end Sys2Proof
end

section
/-! Sums of values in `[-1.0, 1.0]` and their quotient by the number of terms (spec/00_scope.md R12; spec/44_render.md R264). -/

namespace Sys2Proof.F32

/-! ### The value of a count -/

/-- A whole number below 2^24 is representable: rounding shifts out zeros only. -/
theorem roundMag_of_lt {n : Nat} (hn : n < 2 ^ 24) :
    roundMag (n * 2 ^ 149) 1 < infBits ∧ magOf (roundMag (n * 2 ^ 149) 1) = n * 2 ^ 149 := by
  have hshift : roundShift (n * 2 ^ 149) 1 ≤ 149 := by
    rcases Nat.eq_zero_or_pos n with rfl | hpos
    · simp [roundShift]
    · have hlog : (n * 2 ^ 149).log2 < 173 :=
        (Nat.log2_lt (Nat.mul_pos hpos (Nat.two_pow_pos _)).ne').2 (by omega)
      rw [roundShift, Nat.div_one]
      omega
  obtain ⟨hlt, -⟩ := roundShift_spec (n * 2 ^ 149) 1
  have hup := roundNE_upper (n * 2 ^ 149) (1 * 2 ^ roundShift (n * 2 ^ 149) 1)
  have hfin : roundMag (n * 2 ^ 149) 1 < infBits := by
    unfold roundMag infBits
    omega
  refine ⟨hfin, ?_⟩
  rw [(roundMag_finite hfin).1]
  generalize roundShift (n * 2 ^ 149) 1 = k at hshift
  have hsplit : n * 2 ^ 149 = n * 2 ^ (149 - k) * 2 ^ k := by
    rw [Nat.mul_assoc, ← Nat.pow_add, Nat.sub_add_cancel hshift]
  rw [Nat.one_mul, hsplit, roundNE_mul_self _ _ (Nat.two_pow_pos k)]

section Count
variable {n : Nat} (hn : n < 2 ^ 24)
include hn

/-- `float(n)` is exact (R12). -/
theorem ofNat_val : (ofNat n).val = n * 2 ^ 149 := by
  have hlt := roundMag_lt (n * 2 ^ 149) 1
  rw [ofNat, val_eq_signed, ofParts_sign _ _ hlt, ofParts_magBits _ _ hlt, (roundMag_of_lt hn).2]
  exact Int.natCast_mul n (2 ^ 149)

theorem ofNat_isFinite : (ofNat n).isFinite = true := by
  rw [ofNat, isFinite, ofParts_magBits _ _ (roundMag_lt _ _)]
  exact decide_eq_true (roundMag_of_lt hn).1

end Count

theorem ofNat_sign (n : Nat) : (ofNat n).sign = false := ofParts_sign _ _ (roundMag_lt _ _)

theorem val_of_isZero {x : F32} (h : x.isZero = true) : x.val = 0 := by
  rcases eq_zero_or_eq_neg_zero h with rfl | rfl <;> rfl

theorem ofNat_isZero {n : Nat} (hn : n < 2 ^ 24) (hpos : 0 < n) : (ofNat n).isZero = false := by
  rw [Bool.eq_false_iff]
  intro hzero
  have hval := ofNat_val hn
  rw [val_of_isZero hzero] at hval
  omega

/-! ### Sums of values in `[-1.0, 1.0]` -/

section Sum
variable {x y z : F32} (hx : x.isFinite = true) (hy : y.isFinite = true) (hz : z.isFinite = true)
include hx hy hz

/-- A representable lower bound of the exact sum is one of the rounded sum. -/
theorem le_add_of_val_le (h : z.val ≤ x.val + y.val) : le z (add x y) = true := by
  obtain ⟨hn, hrank⟩ := add_rank hx hy
  rw [le_iff, hrank, ← roundRank_val hz]
  exact ⟨not_isNaN_of_isFinite hz, hn, roundRank_mono h⟩

/-- A representable upper bound of the exact sum is one of the rounded sum. -/
theorem add_le_of_val_le (h : x.val + y.val ≤ z.val) : le (add x y) z = true := by
  obtain ⟨hn, hrank⟩ := add_rank hx hy
  rw [le_iff, hrank, ← roundRank_val hz]
  exact ⟨hn, not_isNaN_of_isFinite hz, roundRank_mono h⟩

end Sum

/-- `-1.0 <= x <= 1.0`. -/
def InUnitRange (x : F32) : Prop := le negOne x = true ∧ le x one = true

/-- `-float(n) <= x <= float(n)`: the bound on a rounded sum of `n` values in the unit range. -/
def InCountRange (n : Nat) (x : F32) : Prop := le (ofNat n).neg x = true ∧ le x (ofNat n) = true

theorem InCountRange.isFinite {n : Nat} {x : F32} (hn : n < 2 ^ 24) (hx : InCountRange n x) : x.isFinite = true :=
  isFinite_of_between hx.1 hx.2 (by rw [neg_isFinite, ofNat_isFinite hn]) (ofNat_isFinite hn)

/-- One more term in the unit range: `float(n)` and its negative are exact, so that rounding does not leave them. -/
theorem InCountRange.add {n : Nat} {x y : F32} (hn : n + 1 < 2 ^ 24) (hx : InCountRange n x) (hy : InUnitRange y) :
    InCountRange (n + 1) (add x y) := by
  have hn' : n < 2 ^ 24 := Nat.lt_of_succ_lt hn
  have hfin := ofNat_isFinite hn
  have hnegFin : (ofNat (n + 1)).neg.isFinite = true := by rw [neg_isFinite, hfin]
  have hxFin := hx.isFinite hn'
  have hyFin := isFinite_of_between hy.1 hy.2 (by decide) (by decide)
  have hxlo := (le_iff_val (by rw [neg_isFinite, ofNat_isFinite hn']) hxFin).1 hx.1
  have hxhi := (le_iff_val hxFin (ofNat_isFinite hn')).1 hx.2
  have hylo : -2 ^ 149 ≤ y.val := (le_iff_val (by decide) hyFin).1 hy.1
  have hyhi : y.val ≤ 2 ^ 149 := (le_iff_val hyFin (by decide)).1 hy.2
  rw [neg_val, ofNat_val hn'] at hxlo
  rw [ofNat_val hn'] at hxhi
  constructor
  · refine le_add_of_val_le hxFin hyFin hnegFin ?_
    rw [neg_val, ofNat_val hn]
    push_cast
    omega
  · refine add_le_of_val_le hxFin hyFin hfin ?_
    rw [ofNat_val hn]
    push_cast
    omega

theorem foldl_add_inCountRange {ys : List F32} (hys : ∀ y ∈ ys, InUnitRange y) {k : Nat} {x : F32}
    (hx : InCountRange k x) (hlen : k + ys.length < 2 ^ 24) : InCountRange (k + ys.length) (ys.foldl F32.add x) := by
  induction ys generalizing k x with
  | nil => exact hx
  | cons y ys ih =>
    obtain ⟨hy, hys⟩ := List.forall_mem_cons.1 hys
    rw [List.length_cons, Nat.add_comm ys.length, ← Nat.add_assoc] at hlen ⊢
    exact ih hys (hx.add (by omega) hy) hlen

/-! ### The quotient by the count -/

theorem neg_div_self_of_isFinite {x : F32} (hx : x.isFinite = true) (h0 : x.isZero = false) : div x.neg x = negOne := by
  have hone : one = ofParts false (roundMag (x.mag * 2 ^ 149) x.mag) := by
    rw [← div_self_of_isFinite hx h0, div_parts hx hx h0, bne_self_eq_false]
  have hneg : div x.neg x = ofParts true (roundMag (x.mag * 2 ^ 149) x.mag) := by
    rw [div_parts (by rw [neg_isFinite, hx]) hx h0, mag_eq_magOf x.neg, neg_magBits, ← mag_eq_magOf, neg_sign,
      Bool.not_bne_self]
  have hbits : roundMag (x.mag * 2 ^ 149) x.mag = one.magBits := by rw [hone, ofParts_magBits _ _ (roundMag_lt _ _)]
  rw [hneg, hbits]
  decide

/-- Division by `float(n)` is monotone and takes the bounds of the sum to -1.0 and 1.0 (R264). -/
theorem InCountRange.div {n : Nat} {x : F32} (hn : n < 2 ^ 24) (hpos : 0 < n) (hx : InCountRange n x) :
    InUnitRange (div x (ofNat n)) := by
  have hfin := ofNat_isFinite hn
  have h0 := ofNat_isZero hn hpos
  have hxFin := hx.isFinite hn
  have hlo := div_mono_of_pos (by rw [neg_isFinite, hfin]) hxFin hfin (ofNat_sign n) h0 hx.1
  have hhi := div_mono_of_pos hxFin hfin hfin (ofNat_sign n) h0 hx.2
  rw [neg_div_self_of_isFinite hfin h0] at hlo
  rw [div_self_of_isFinite hfin h0] at hhi
  exact ⟨hlo, hhi⟩

end Sys2Proof.F32
end

section
/-! The render loop: one sample as mix, normalisation, chain and ring append, the samples of RENDER as iterated sample steps,
the silent block, and the readout of the window (spec/44_render.md R260 to R267, R270). -/

namespace Sys2Proof.Machine

open F32

variable {κ : Shape}

/-! ### The normalised mix of plain voices -/

theorem activeVoices_length_le (s : State κ) : s.activeVoices.length ≤ κ.voices :=
  (List.length_filter_le _ _).trans (List.length_finRange (n := κ.voices)).le

theorem activeVoices_length (s : State κ) :
    s.activeVoices.length = (List.finRange κ.voices).countP fun v => (s.voice v).active :=
  List.countP_eq_length_filter.symm

/-- A plain voice's sample is its waveform at a phase in range (R125, R126). -/
theorem voiceSample_inUnitRange {c : Config} {s : State κ} (hv : c.valid = true) (hstep : c.stepFinite = true)
    (hlaws : c.TrigLaws) (hs : PhasesLegal c s) (hfm : s.fm.enabled = false) (r : Nat) (v : Fin κ.voices) :
    InUnitRange (voiceSample c s r v) := by
  obtain ⟨hrange, -⟩ := advance_phaseLegal hv hstep (hs.phases hstep v).1 (hs.freqs v)
  simp only [voiceSample, hfm, Bool.false_eq_true, if_false]
  exact waveformsStayInUnitRange c _ _ hlaws (.inl hrange)

/-- The mix of voices whose samples are in the unit range is bounded by their number (R264). -/
theorem mixVoices_inCountRange {c : Config} {s : State κ} (hsamples : ∀ r v, InUnitRange (voiceSample c s r v)) :
    InCountRange s.activeVoices.length (mixVoices c s).2 := by
  have hlen := (activeVoices_length_le s).trans κ.voicesFit
  have hzero : InCountRange 0 zero := ⟨by decide, by decide⟩
  have hsum := foldl_add_inCountRange (ys := s.activeVoices.mapIdx (voiceSample c s))
    (fun y hy => by
      obtain ⟨r, _, rfl⟩ := List.mem_mapIdx.1 hy
      exact hsamples r _)
    hzero (by rw [List.length_mapIdx]; omega)
  rw [Nat.zero_add, List.length_mapIdx] at hsum
  exact (foldl_mixVoice_mix c (activeVoices_nodup s) (s, zero)).symm ▸ hsum

theorem normalise_inUnitRange {n : Nat} {mix : F32} (hn : n < 2 ^ 24) (h : InCountRange n mix) :
    InUnitRange (normalise .divideByCount mix n) := by
  rcases Nat.eq_zero_or_pos n with rfl | hpos
  · exact ⟨le_trans (by decide +kernel) h.1, le_trans h.2 (by decide +kernel)⟩
  · rw [normalise, if_pos hpos]
    exact h.div hn hpos

/-! ### One sample -/

/-- The filter inputs depend on the filter entries only. -/
theorem chainInput_congr {s t : State κ} (h : t.filt = s.filt) (x : F32) (k : Nat) : chainInput t x k = chainInput s x k := by
  induction k with
  | zero => rfl
  | succ k ih => simp only [chainInput, ih, State.filter_congr h]

/-- The normalised mix: the input of the chain (R262, R264). -/
def sampleInput (c : Config) (s : State κ) : F32 := normalise c.normPolicy (mixVoices c s).2 s.activeVoices.length

section Sample
variable (c : Config) (s : State κ)

theorem sampleStep_eq : sampleStep c s =
    ((chain (sampleInput c s) (mixVoices c s).1).1.pushVis (chain (sampleInput c s) (mixVoices c s).1).2,
      (chain (sampleInput c s) (mixVoices c s).1).2) := rfl

/-- The mix leaves the chain as it is, so that the sample is the output of the chain of `s` (R232). -/
theorem sampleStep_output : (sampleStep c s).2 = chainInput s (sampleInput c s) s.fcount.val := by
  rw [sampleStep_eq, chain_output, mixVoices_fcount, chainInput_congr (mixVoices_filt c s)]

/-- Each filter that exists shifts once, by its input (R230, R232). -/
theorem sampleStep_filter (k : Fin κ.filters) : (sampleStep c s).1.filter k =
    if k.val < s.fcount.val then (s.filter k).shifted (chainInput s (sampleInput c s) k.val) else s.filter k := by
  rw [sampleStep_eq, State.pushVis_filter, chain_filter, mixVoices_fcount, chainInput_congr (mixVoices_filt c s),
    State.filter_congr (mixVoices_filt c s)]

theorem sampleStep_voices : (sampleStep c s).1.voices = (mixVoices c s).1.voices :=
  (congrArg State.voices (chain_frame_filt (mixVoices c s).1 (sampleInput c s)) :)

theorem sampleStep_fm : (sampleStep c s).1.fm = (mixVoices c s).1.fm :=
  (congrArg State.fm (chain_frame_filt (mixVoices c s).1 (sampleInput c s)) :)

theorem sampleStep_vis_get (j : Fin κ.vis) :
    (sampleStep c s).1.vis.get j = if j = s.vcur then (sampleStep c s).2 else s.vis.get j := by
  rw [(sampleStep_ring c s).1, Ring.get_set]
  simp only [eq_comm]

end Sample

/-- A frame leaves everything but the registers that rendering writes. -/
theorem RenderFrame.registers {s t : State κ} (h : RenderFrame s t) :
    { t with voices := s.voices, fm := s.fm, filt := s.filt, vis := s.vis, vcur := s.vcur } = s := by
  rw [h.fcount, h.decoder, h.responses, h.refusalMark, h.refusals, h.port, h.freeCount]

/-! ### RENDER -/

/-- `n` sample steps are the sample step iterated, and sample `i` is the result of the `i`-th of them (R260, R265). -/
theorem renderSamples_eq_iterate (c : Config) (n : Nat) (s : State κ) : renderSamples c n s =
    ((fun u => (sampleStep c u).1)^[n] s,
      (List.range n).map fun i => (sampleStep c ((fun u => (sampleStep c u).1)^[i] s)).2) := by
  induction n generalizing s with
  | zero => rfl
  | succ n ih => simp only [renderSamples, ih, List.range_succ_eq_map, List.map_cons, List.map_map, Function.comp_def,
      Function.iterate_succ_apply, Function.iterate_zero, id_eq]

/-- RENDER emits the samples after what was emitted before; the sample steps emit nothing. -/
theorem renderBuffer_eq (c : Config) (n : Nat) (s : State κ) : renderBuffer c n s =
    { (renderSamples c n s).1 with responses := s.responses ++ (renderSamples c n s).2.map F32.bits } := by
  rw [← (renderSamples_frame c n s).responses]
  rfl

/-! ### The silent block -/

/-- No voice sounds and no filter exists. -/
def Silent (s : State κ) : Prop := (∀ v, (s.voice v).active = false) ∧ s.fcount.val = 0

theorem activeVoices_of_inactive {s : State κ} (h : ∀ v, (s.voice v).active = false) : s.activeVoices = [] := by
  simp only [State.activeVoices, h, List.filter_false]

/-- A silent block's sample is `+0.0`, and only the ring moves (R264, R267). -/
theorem sampleStep_of_silent {c : Config} (hpolicy : c.normPolicy = .divideByCount) {s : State κ} (hs : Silent s) :
    sampleStep c s = (s.pushVis zero, zero) := by
  obtain ⟨hinactive, hfcount⟩ := hs
  have hnone := activeVoices_of_inactive hinactive
  have hmix : mixVoices c s = (s, zero) := by rw [mixVoices, hnone, List.foldl_nil]
  have hinput : sampleInput c s = zero := by rw [sampleInput, hpolicy, hmix, hnone]; rfl
  rw [sampleStep_eq, hinput, hmix, chain_of_no_filter hfcount]

theorem Silent.pushVis {s : State κ} (hs : Silent s) (y : F32) : Silent (s.pushVis y) := hs

/-- A silent block stays silent while it renders `+0.0` after `+0.0`. -/
theorem renderSamples_of_silent {c : Config} (hpolicy : c.normPolicy = .divideByCount) (n : Nat) {s : State κ}
    (hs : Silent s) :
    renderSamples c n s = ((fun u : State κ => u.pushVis zero)^[n] s, List.replicate n zero) := by
  induction n generalizing s with
  | zero => rfl
  | succ n ih => rw [renderSamples, sampleStep_of_silent hpolicy hs, ih (hs.pushVis zero), List.replicate_succ,
      Function.iterate_succ_apply]

/-- `n` appends move the cursor by `n` places and write neither voices nor modulator (R266). -/
theorem iterate_pushVis (y : F32) (n : Nat) (s : State κ) :
    ((fun u : State κ => u.pushVis y)^[n] s).vcur.val = (s.vcur.val + n) % κ.vis ∧
    ((fun u : State κ => u.pushVis y)^[n] s).voices = s.voices ∧
    ((fun u : State κ => u.pushVis y)^[n] s).fm = s.fm := by
  induction n generalizing s with
  | zero => exact ⟨(Nat.mod_eq_of_lt s.vcur.isLt).symm, rfl, rfl⟩
  | succ n ih =>
    obtain ⟨hvcur, hvoices, hfm⟩ := ih (s.pushVis y)
    refine ⟨?_, hvoices, hfm⟩
    rw [Function.iterate_succ_apply, hvcur, State.pushVis_vcur, State.ringAt_val, Nat.mod_add_mod, Nat.add_assoc,
      Nat.add_comm 1]

/-! ### RDVIS -/

theorem Ring.get_eq_getD (r : Ring κ) (j : Fin κ.vis) (d : F32) : r.get j = r.cells.getD j.val d :=
  (List.getD_eq_getElem r.cells d (by rw [r.size]; exact j.isLt)).symm

theorem visWindow_eq_getD (s : State κ) (d : F32) :
    visWindow s = (List.range κ.vis).map fun j => s.vis.cells.getD ((s.vcur.val + j) % κ.vis) d :=
  List.map_congr_left fun j _ => Ring.get_eq_getD s.vis (s.ringAt j) d

end Sys2Proof.Machine

namespace Sys2Proof

open Machine F32

/-- Settles O33: no sample step runs, and no word is appended. -/
theorem renderZeroChangesNothing : Obligations.RenderZeroChangesNothing := fun s => by
  rw [exec_eq_next, Instr.effect, renderBuffer_eq, renderSamples, List.map_nil, List.append_nil]

/-- Settles O34: the samples of RENDER are the results of the iterated sample steps. -/
theorem renderEmitsTheSampleSteps : Obligations.RenderEmitsTheSampleSteps := by
  intro n s after
  rw [exec_eq_next, Instr.effect, renderBuffer_eq, renderSamples_eq_iterate, List.map_map]
  rfl

/-- Settles O38: the window is read cell by cell, and only the response sequence is written. -/
theorem rdvisEmitsTheWindowOldestFirst : Obligations.RdvisEmitsTheWindowOldestFirst := fun s => by
  rw [exec_eq_next, Instr.effect, readVis, visWindow_eq_getD s ⟨0⟩, List.map_map]
  rfl

/-- Settles O39: a silent block renders by appending `+0.0` to the ring. -/
theorem silentRenderEmitsZeros : Obligations.SilentRenderEmitsZeros := by
  intro n s hinactive hfcount
  have hsamples := renderSamples_of_silent (c := Config.hw) rfl n (s := s) ⟨hinactive, congrArg Fin.val hfcount⟩
  have hrender := renderBuffer_eq Config.hw n s
  rw [hsamples, List.map_replicate] at hrender
  exact ⟨_, exec_eq_next.2 hrender, rfl, iterate_pushVis zero n s⟩

/-- Settles O50: each sample is in the unit range, their sum is bounded by their number, and the quotient is in the unit range
again. -/
theorem plainMixStaysInUnitRange : Obligations.PlainMixStaysInUnitRange := by
  intro κ c s hv hstep hlaws hs hfm
  have hlen := (activeVoices_length_le s).trans κ.voicesFit
  exact normalise_inUnitRange (by omega) (mixVoices_inCountRange (voiceSample_inUnitRange hv hstep hlaws hs hfm))

/-- Settles O58: mix, normalisation, chain and ring append each write registers of their own. -/
theorem sampleStepMixesNormalisesFiltersAndStores : Obligations.SampleStepMixesNormalisesFiltersAndStores := by
  intro κ c s n mix x y t
  have hinput : sampleInput c s = x := by
    simp only [x, mix, n, sampleInput, activeVoices_length]
    cases c.normPolicy with
    | divideByCount => exact normalise_divideByCount _ _
    | fixedGain g => rfl
  have hout : (sampleStep c s).2 = y := (sampleStep_output c s).trans (by rw [hinput])
  have hfilter : ∀ k, t.filter k = if k.val < s.fcount.val then (s.filter k).shifted (chainInput s x k.val) else s.filter k :=
    hinput ▸ sampleStep_filter c s
  refine ⟨hout, hout ▸ sampleStep_vis_get c s, congrArg Fin.val (sampleStep_ring c s).2, sampleStep_voices c s,
    sampleStep_fm c s, fun k hk => ?_, fun k hk => ?_, (sampleStep_frame c s).registers⟩
  · rw [hfilter, if_pos hk, shifted_chainInput]
  · rw [hfilter, if_neg (Nat.not_lt.2 hk)]

end Sys2Proof
end

section
/-! Nothing stops, and what reset leaves of a command it cuts off (spec/60_exceptions.md R290, R291, R294, R295). -/

namespace Sys2Proof.Machine

/-! ### Every step answers a next state -/

theorem runCommand_completes (words : List Word) (s : State) : ∃ t, runCommand words s = .next t := by
  unfold runCommand
  cases decode words with
  | instr i rest => exact ⟨_, exec_eq_effect i s⟩
  | illegal h rest => exact ⟨_, rfl⟩
  | incomplete => exact ⟨_, rfl⟩

/-- A whole legal command on which reset falls is executed and cut off (R294). -/
theorem runInterrupted_of_instr {words rest : List Word} {i : Instr} (h : decode words = .instr i rest) (s : State) :
    runInterrupted words s = .next (cutOff s (i.effect s)) := by
  simp only [runInterrupted, h, exec_eq_effect]

/-- A whole illegal command on which reset falls is refused before the reset is taken (R95, R323). -/
theorem runInterrupted_of_illegal {words rest : List Word} {header : Word} (h : decode words = .illegal header rest)
    (s : State) : runInterrupted words s = .next (s.refuse (.illegalEncoding header)).takeReset := by
  simp only [runInterrupted, h]

theorem runInterrupted_completes (words : List Word) (s : State) : ∃ t, runInterrupted words s = .next t := by
  cases h : decode words with
  | instr i rest => exact ⟨_, runInterrupted_of_instr h s⟩
  | illegal header rest => exact ⟨_, runInterrupted_of_illegal h s⟩
  | incomplete => exact ⟨s.takeReset, by simp only [runInterrupted, h]⟩

theorem step_completes (s : State) : ∃ t, step s = .next t := by
  unfold step
  cases fetch s.decoder.words s.port with
  | waiting words => exact ⟨_, rfl⟩
  | command words rest => exact runCommand_completes words _
  | reset rest => exact ⟨_, rfl⟩
  | interrupted words rest => exact runInterrupted_completes words _

/-! ### Reset on the word that completes a command -/

/-- Words that make up exactly one command, the last of them with reset on it, are handed over as an interrupted command
(R81, R294). -/
theorem step_of_interrupted_words {s : State} {ws : List Word} {last : Word} {rest : List PortEvent} {h : Word}
    {operands : List Word} (hl : operands.length + 1 = commandLength h)
    (hwords : s.decoder.words ++ ws ++ [last] = h :: operands)
    (hport : s.port = ws.map PortEvent.word ++ .interrupted last :: rest) :
    step s = runInterrupted (h :: operands) (s.afterFetch rest) := by
  obtain ⟨hinit, hwhole⟩ := wholeCommand_of_length hl hwords
  rw [step, hport, fetch_interrupted _ _ _ _ hinit, if_pos hwhole, hwords]
  rfl

/-- The words that a command emitted are those that it appended. -/
theorem emitted_of_append {s t : State} {out : List Word} (h : t.responses = s.responses ++ out) : emitted s t = out := by
  rw [emitted, h, List.drop_left]

/-- Cutting a command off leaves the power-on state and a prefix of the command's own words (R294). -/
theorem cutOff_eq {s t : State} {out : List Word} (h : t.responses = s.responses ++ out) :
    ∃ k ≤ out.length, cutOff s t =
      { State.reset with
        responses := s.responses ++ out.take k, refusalMark := s.refusalMark, refusals := s.refusals, port := s.port,
        freeCount := s.freeCount + 1 } := by
  refine ⟨Config.abortLength s.freeCount % (out.length + 1), Nat.lt_succ_iff.1 (Nat.mod_lt _ (Nat.succ_pos _)), ?_⟩
  rw [cutOff, emitted_of_append h]
  rfl

end Sys2Proof.Machine

namespace Sys2Proof

open Machine

/-- Settles O13: each command has its effect, and the decoder's answer on what the port delivers is executed, discarded or
reset. -/
theorem nothingEverStops : Obligations.NothingEverStops :=
  ⟨fun i s => ⟨_, exec_eq_effect i s⟩, step_completes⟩

/-- Settles O12: the command only appends to the response sequence, and the cut keeps a beginning of what it appended; an
illegal one is refused before the reset is taken. -/
theorem resetDuringACommandLeavesAPrefix : Obligations.ResetDuringACommandLeavesAPrefix := by
  constructor
  · intro s i ws last rest hw hwords hport
    obtain ⟨h, operands, he, hl⟩ := encode_length i
    have hdecode : decode (h :: operands) = .instr i [] := by simpa only [he, List.append_nil] using decode_encode_append hw []
    obtain ⟨out, hout⟩ := effect_responses_prefix i (s.afterFetch rest)
    obtain ⟨k, hk, hcut⟩ := cutOff_eq hout.symm
    refine ⟨_, out, k, exec_eq_effect i _, hout.symm, hk, ?_⟩
    rw [step_of_interrupted_words hl (hwords.trans he) hport, runInterrupted_of_instr hdecode, hcut]
    rfl
  · intro s h operands ws last rest hillegal hl hwords hport
    have hdecode : decode (h :: operands) = .illegal h [] := by
      simpa only [List.append_nil] using (decode_eq_illegal_iff [] hl).2 hillegal
    rw [step_of_interrupted_words hl hwords hport, runInterrupted_of_illegal hdecode]
    rfl

end Sys2Proof
end

section
/-! Reset before a command is whole, and RENDER split at any sample (spec/70_reset_and_hazards.md R320, R321, R323, R328). -/

namespace Sys2Proof.Machine

/-! ### Reset before a command is whole -/

theorem step_of_fetch_reset {s : State} {rest : List PortEvent} (h : fetch s.decoder.words s.port = .reset rest) :
    step s = .next (s.afterFetch rest).takeReset := by
  rw [step, h, runFetched]

/-! ### Emission and rendering commute

Rendering neither reads nor writes the response sequence: words emitted before it may as well be emitted after it. -/

section Emit
variable {κ : Shape} (c : Config) (s : State κ) (ws : List Word)

theorem State.emit_emit (more : List Word) : (s.emit ws).emit more = s.emit (ws ++ more) := by
  simp only [State.emit, List.append_assoc]

theorem mixVoice_emit (y : F32) (v : Fin κ.voices) :
    mixVoice c (s.emit ws, y) v = Prod.map (State.emit · ws) id (mixVoice c (s, y) v) := by
  have henabled : (s.emit ws).fm.enabled = s.fm.enabled := rfl
  simp only [mixVoice, henabled]
  cases s.fm.enabled <;> rfl

theorem mixVoices_emit : mixVoices c (s.emit ws) = Prod.map (State.emit · ws) id (mixVoices c s) :=
  List.foldl_hom (init := (s, F32.zero)) (Prod.map (State.emit · ws) id) fun acc v => mixVoice_emit c acc.1 ws acc.2 v

theorem chain_emit (x : F32) : chain x (s.emit ws) = Prod.map (State.emit · ws) id (chain x s) :=
  List.foldl_hom (init := (s, x)) (Prod.map (State.emit · ws) id) fun _ _ => rfl

theorem sampleStep_emit : sampleStep c (s.emit ws) = Prod.map (State.emit · ws) id (sampleStep c s) := by
  have hinput : sampleInput c (s.emit ws) = sampleInput c s := by
    rw [sampleInput, mixVoices_emit]
    rfl
  rw [sampleStep_eq, hinput, mixVoices_emit, Prod.map_fst, chain_emit]
  rfl

theorem renderSamples_emit (n : Nat) :
    renderSamples c n (s.emit ws) = Prod.map (State.emit · ws) id (renderSamples c n s) := by
  induction n generalizing s with
  | zero => rfl
  | succ n ih =>
    rw [renderSamples, sampleStep_emit, Prod.map_fst, ih]
    rfl

/-- Rendering `m + n` samples is rendering `m` and then `n` (R328). -/
theorem renderBuffer_add (m n : Nat) : renderBuffer c (m + n) s = renderBuffer c n (renderBuffer c m s) := by
  simp only [renderBuffer, renderSamples_add, renderSamples_emit, Prod.map_fst, Prod.map_snd, id, State.emit_emit,
    List.map_append]

end Emit

end Sys2Proof.Machine

namespace Sys2Proof

open Machine

/-- Settles O11: words that make up no whole command are passed over to the reset, which keeps nothing of them. -/
theorem resetLeavesThePowerOnState : Obligations.ResetLeavesThePowerOnState := by
  constructor
  · intro s ws rest hpartial hport
    exact step_of_fetch_reset (by rw [hport, fetch_reset _ _ _ hpartial])
  · intro s ws last rest hpartial hport
    have hfetch : fetch s.decoder.words s.port = .reset rest := by
      rw [hport, fetch_interrupted _ _ _ _ (wholeCommand_prefix hpartial), hpartial]
      rfl
    exact step_of_fetch_reset hfetch

/-- Settles O36: the samples split at `m`, and what the first RENDER emitted is in front of what the second emits. -/
theorem renderSplitsAtAnySample : Obligations.RenderSplitsAtAnySample := fun m n s =>
  ⟨_, _, exec_eq_effect _ s, exec_eq_effect _ _, exec_eq_next.2 (renderBuffer_add Config.hw s m n)⟩

end Sys2Proof
end
